-- ==== Sys2Proof/Word.lean ====
section
/-!
DEFINITION. The word types of the block (spec/00_scope.md R5, R15): bytes, CPU addresses, I/O ports, the
24-bit length field. Every value is unsigned (R15).
-/

namespace Sys2Proof

/-- One byte: a data byte, a slot or bank operand, a mask or flag operand (30_encoding.md R82). -/
abbrev Byte := BitVec 8

/-- A 16-bit CPU address; arithmetic on it wraps mod 2^16 (00_scope.md R5, 20_memory.md R50). -/
abbrev Addr := BitVec 16

/-- A 16-bit I/O port number (00_scope.md R5, 42_mapping.md R168). -/
abbrev Port := BitVec 16

/-- The 16-bit data field `W` (30_encoding.md R82). -/
abbrev Half := BitVec 16

/-- The 24-bit length field `N` (30_encoding.md R82). -/
abbrev Len24 := BitVec 24

end Sys2Proof
end

