-- ==== Sys2Proof/Machine/Bytes.lean ====
section
/-!
DEFINITION. Byte order (spec/20_memory.md R62, 00_scope.md R15): every multi-byte value is little-endian.
-/

namespace Sys2Proof.Machine

/-- `le_N`: the unsigned value of a byte sequence read little-endian (00_scope.md R15). -/
def ofLe : List Byte → Nat
  | [] => 0
  | b :: bs => b.toNat + 256 * ofLe bs

/-- `to_le_N`: the `n`-byte little-endian sequence of a value (00_scope.md R15). -/
def toLe : Nat → Nat → List Byte
  | 0, _ => []
  | n + 1, v => BitVec.ofNat 8 v :: toLe n (v / 256)

end Sys2Proof.Machine
end

