-- ==== Sys2Proof/Syntax.lean ====
section
/-!
DEFINITION. The operation set (spec/00_scope.md R2, 30_encoding.md R85): one constructor per row of
spec/opcode_table.json, with the operand fields of its format (30_encoding.md R83). A payload's length field
(`N` or `L`) is the length of the payload list, so it is no field of its own.
-/

namespace Sys2Proof

/-- One request of the block. -/
inductive Instr where
  /-- 0x01 READ8 `A` (40_access.md R111) -/
  | read8 (a : Addr)
  /-- 0x02 FETCH8 `A` (40_access.md R115) -/
  | fetch8 (a : Addr)
  /-- 0x03 WRITE8 `A`, `V` (40_access.md R118) -/
  | write8 (a : Addr) (v : Byte)
  /-- 0x04 GETMEM8 `A` (40_access.md R122) -/
  | getmem8 (a : Addr)
  /-- 0x05 GETMEM16 `A` (40_access.md R125) -/
  | getmem16 (a : Addr)
  /-- 0x06 GETMEM32 `A` (40_access.md R128) -/
  | getmem32 (a : Addr)
  /-- 0x07 SETMEM8 `A`, `V` (40_access.md R131) -/
  | setmem8 (a : Addr) (v : Byte)
  /-- 0x08 SETMEM16 `A`, `W` (40_access.md R134) -/
  | setmem16 (a : Addr) (w : Half)
  /-- 0x09 READBLOCK `A`, `N` (41_block.md R140) -/
  | readblock (a : Addr) (n : Len24)
  /-- 0x0A WRITEBLOCK `A`, `N`, `PAY` (41_block.md R143) -/
  | writeblock (a : Addr) (bytes : List Byte)
  /-- 0x0B WRITEBANK `B`, `N`, `PAY` (41_block.md R146) -/
  | writebank (b : Byte) (bytes : List Byte)
  /-- 0x0C SETSLOT `S`, `B` (42_mapping.md R161) -/
  | setslot (i : Byte) (b : Byte)
  /-- 0x0D SETNOTPOP `S` (42_mapping.md R163) -/
  | setnotpop (i : Byte)
  /-- 0x0E SETWP `A`, `N`, `C` (43_debug.md R190) -/
  | setwp (a : Addr) (n : Len24) (c : Byte)
  /-- 0x0F REMOVEWP `A`, `N`, `C` (43_debug.md R192) -/
  | removewp (a : Addr) (n : Len24) (c : Byte)
  /-- 0x10 CLEARHIT (43_debug.md R194) -/
  | clearhit
  /-- 0x11 GETHIT (43_debug.md R196) -/
  | gethit
  /-- 0x12 SERIALIZE (44_snapshot.md R222) -/
  | serialize
  /-- 0x13 DESERIALIZE `L`, `PAY` (44_snapshot.md R224) -/
  | deserialize (bytes : List Byte)
  /-- 0x14 GETSERSIZE (44_snapshot.md R226) -/
  | getsersize
  /-- 0x15 CLEARVIS (43_debug.md R198) -/
  | clearvis
  /-- 0x16 GETVIS (43_debug.md R200) -/
  | getvis
  /-- 0x17 IOWRITE `P`, `V` (42_mapping.md R168) -/
  | iowrite (p : Port) (v : Byte)
  /-- 0x18 SETDISPLAY `F` (42_mapping.md R175) -/
  | setdisplay (f : Byte)
  deriving DecidableEq, Repr

end Sys2Proof
end

