-- ==== Sys2Proof/WellFormed.lean ====
section
/-!
DEFINITION. Which terms of Instr are requests that can be sent: a payload's length must fit its length field
(spec/30_encoding.md R82: `N` has 3 bytes, `L` has 4). Every other operand is legal as syntax at every value;
a value an operation refuses (30_encoding.md R88) is a request all the same, and raises its fatal error.
-/

namespace Sys2Proof

/-- The request can be sent: its payload length fits the 24-bit `N` or the 32-bit `L`. -/
def Instr.wf : Instr → Bool
  | .read8 _ => true
  | .fetch8 _ => true
  | .write8 _ _ => true
  | .getmem8 _ => true
  | .getmem16 _ => true
  | .getmem32 _ => true
  | .setmem8 _ _ => true
  | .setmem16 _ _ => true
  | .readblock _ _ => true
  | .writeblock _ bytes => decide (bytes.length < 2 ^ 24)
  | .writebank _ bytes => decide (bytes.length < 2 ^ 24)
  | .setslot _ _ => true
  | .setnotpop _ => true
  | .setwp _ _ _ => true
  | .removewp _ _ _ => true
  | .clearhit => true
  | .gethit => true
  | .serialize => true
  | .deserialize bytes => decide (bytes.length < 2 ^ 32)
  | .getsersize => true
  | .clearvis => true
  | .getvis => true
  | .iowrite _ _ => true
  | .setdisplay _ => true

end Sys2Proof
end

