-- ==== Sys2Proof/Decode.lean ====
section
/-!
DEFINITION. The request decoder and encoder (spec/30_encoding.md R81 to R88). `decode` is total on any bytes:
it answers a request with the bytes after it, a reserved opcode with the bytes after it (R87), a truncated
request (R84), or that there is nothing on the port.
-/

namespace Sys2Proof

open Sys2Proof.Machine

/-- What the decoder finds at the front of the request stream. -/
inductive Decoded where
  /-- a complete request, and the bytes after it -/
  | request (i : Instr) (rest : List Byte)
  /-- a reserved opcode, which is a one-byte request (30_encoding.md R87), and the bytes after it -/
  | reserved (op : Byte) (rest : List Byte)
  /-- the bytes end before the request is complete (30_encoding.md R84) -/
  | truncated
  /-- no byte at all -/
  | noRequest
  deriving DecidableEq, Repr

/-- Format `F_A`: a CPU address (30_encoding.md R83). -/
def readA (k : Addr → Instr) : List Byte → Decoded
  | a0 :: a1 :: rest => .request (k (BitVec.ofNat 16 (ofLe [a0, a1]))) rest
  | _ => .truncated

/-- Formats `F_AV` and `F_PV`: an address or port, then a data byte (30_encoding.md R83). -/
def readAV (k : BitVec 16 → Byte → Instr) : List Byte → Decoded
  | a0 :: a1 :: v :: rest => .request (k (BitVec.ofNat 16 (ofLe [a0, a1])) v) rest
  | _ => .truncated

/-- Format `F_AW`: an address, then a 16-bit value (30_encoding.md R83). -/
def readAW (k : Addr → Half → Instr) : List Byte → Decoded
  | a0 :: a1 :: w0 :: w1 :: rest =>
    .request (k (BitVec.ofNat 16 (ofLe [a0, a1])) (BitVec.ofNat 16 (ofLe [w0, w1]))) rest
  | _ => .truncated

/-- Format `F_AN`: an address, then a 24-bit length (30_encoding.md R83). -/
def readAN (k : Addr → Len24 → Instr) : List Byte → Decoded
  | a0 :: a1 :: n0 :: n1 :: n2 :: rest =>
    .request (k (BitVec.ofNat 16 (ofLe [a0, a1])) (BitVec.ofNat 24 (ofLe [n0, n1, n2]))) rest
  | _ => .truncated

/-- Format `F_ANC`: an address, a 24-bit length, an access mask (30_encoding.md R83). -/
def readANC (k : Addr → Len24 → Byte → Instr) : List Byte → Decoded
  | a0 :: a1 :: n0 :: n1 :: n2 :: c :: rest =>
    .request (k (BitVec.ofNat 16 (ofLe [a0, a1])) (BitVec.ofNat 24 (ofLe [n0, n1, n2])) c) rest
  | _ => .truncated

/-- A payload of `n` bytes, consumed in full (30_encoding.md R84). -/
def readPayload (n : Nat) (k : List Byte → Instr) (bs : List Byte) : Decoded :=
  if bs.length < n then .truncated else .request (k (bs.take n)) (bs.drop n)

/-- Format `F_ANP`: an address, a 24-bit length, that many payload bytes (30_encoding.md R83). -/
def readANP (k : Addr → List Byte → Instr) : List Byte → Decoded
  | a0 :: a1 :: n0 :: n1 :: n2 :: rest =>
    readPayload (ofLe [n0, n1, n2]) (k (BitVec.ofNat 16 (ofLe [a0, a1]))) rest
  | _ => .truncated

/-- Format `F_BNP`: a bank index, a 24-bit length, that many payload bytes (30_encoding.md R83). -/
def readBNP (k : Byte → List Byte → Instr) : List Byte → Decoded
  | b :: n0 :: n1 :: n2 :: rest => readPayload (ofLe [n0, n1, n2]) (k b) rest
  | _ => .truncated

/-- Format `F_LP`: a 32-bit length, that many payload bytes (30_encoding.md R83). -/
def readLP (k : List Byte → Instr) : List Byte → Decoded
  | l0 :: l1 :: l2 :: l3 :: rest => readPayload (ofLe [l0, l1, l2, l3]) k rest
  | _ => .truncated

/-- Format `F_SB`: a slot index, a bank index (30_encoding.md R83). -/
def readSB (k : Byte → Byte → Instr) : List Byte → Decoded
  | i :: b :: rest => .request (k i b) rest
  | _ => .truncated

/-- Formats `F_S` and `F_F`: one operand byte (30_encoding.md R83). -/
def readS (k : Byte → Instr) : List Byte → Decoded
  | i :: rest => .request (k i) rest
  | _ => .truncated

/-- Reads one request: the whole first byte is the opcode and alone selects the format (30_encoding.md R85,
R86). -/
def decode : List Byte → Decoded
  | [] => .noRequest
  | op :: bs =>
    match op.toNat with
    | 0x01 => readA .read8 bs
    | 0x02 => readA .fetch8 bs
    | 0x03 => readAV .write8 bs
    | 0x04 => readA .getmem8 bs
    | 0x05 => readA .getmem16 bs
    | 0x06 => readA .getmem32 bs
    | 0x07 => readAV .setmem8 bs
    | 0x08 => readAW .setmem16 bs
    | 0x09 => readAN .readblock bs
    | 0x0A => readANP .writeblock bs
    | 0x0B => readBNP .writebank bs
    | 0x0C => readSB .setslot bs
    | 0x0D => readS .setnotpop bs
    | 0x0E => readANC .setwp bs
    | 0x0F => readANC .removewp bs
    | 0x10 => .request .clearhit bs
    | 0x11 => .request .gethit bs
    | 0x12 => .request .serialize bs
    | 0x13 => readLP .deserialize bs
    | 0x14 => .request .getsersize bs
    | 0x15 => .request .clearvis bs
    | 0x16 => .request .getvis bs
    | 0x17 => readAV .iowrite bs
    | 0x18 => readS .setdisplay bs
    | _ => .reserved op bs

/-- The bytes of a request (30_encoding.md R81, R83, R85). -/
def encode : Instr → List Byte
  | .read8 a => 0x01#8 :: toLe 2 a.toNat
  | .fetch8 a => 0x02#8 :: toLe 2 a.toNat
  | .write8 a v => 0x03#8 :: (toLe 2 a.toNat ++ [v])
  | .getmem8 a => 0x04#8 :: toLe 2 a.toNat
  | .getmem16 a => 0x05#8 :: toLe 2 a.toNat
  | .getmem32 a => 0x06#8 :: toLe 2 a.toNat
  | .setmem8 a v => 0x07#8 :: (toLe 2 a.toNat ++ [v])
  | .setmem16 a w => 0x08#8 :: (toLe 2 a.toNat ++ toLe 2 w.toNat)
  | .readblock a n => 0x09#8 :: (toLe 2 a.toNat ++ toLe 3 n.toNat)
  | .writeblock a bytes => 0x0A#8 :: (toLe 2 a.toNat ++ toLe 3 bytes.length ++ bytes)
  | .writebank b bytes => 0x0B#8 :: b :: (toLe 3 bytes.length ++ bytes)
  | .setslot i b => [0x0C#8, i, b]
  | .setnotpop i => [0x0D#8, i]
  | .setwp a n c => 0x0E#8 :: (toLe 2 a.toNat ++ toLe 3 n.toNat ++ [c])
  | .removewp a n c => 0x0F#8 :: (toLe 2 a.toNat ++ toLe 3 n.toNat ++ [c])
  | .clearhit => [0x10#8]
  | .gethit => [0x11#8]
  | .serialize => [0x12#8]
  | .deserialize bytes => 0x13#8 :: (toLe 4 bytes.length ++ bytes)
  | .getsersize => [0x14#8]
  | .clearvis => [0x15#8]
  | .getvis => [0x16#8]
  | .iowrite p v => 0x17#8 :: (toLe 2 p.toNat ++ [v])
  | .setdisplay f => [0x18#8, f]

/-- The total length of the request at the front of a byte sequence, read from its opcode and, for the
formats with a payload, its length field (30_encoding.md R81, R84); `none` when the length field itself is cut
off or there is no byte. -/
def requestLength : List Byte → Option Nat
  | [] => none
  | op :: bs =>
    match op.toNat with
    | 0x01 => some 3
    | 0x02 => some 3
    | 0x03 => some 4
    | 0x04 => some 3
    | 0x05 => some 3
    | 0x06 => some 3
    | 0x07 => some 4
    | 0x08 => some 5
    | 0x09 => some 6
    | 0x0A => if bs.length < 5 then none else some (6 + ofLe ((bs.drop 2).take 3))
    | 0x0B => if bs.length < 4 then none else some (5 + ofLe ((bs.drop 1).take 3))
    | 0x0C => some 3
    | 0x0D => some 2
    | 0x0E => some 7
    | 0x0F => some 7
    | 0x10 => some 1
    | 0x11 => some 1
    | 0x12 => some 1
    | 0x13 => if bs.length < 4 then none else some (5 + ofLe (bs.take 4))
    | 0x14 => some 1
    | 0x15 => some 1
    | 0x16 => some 1
    | 0x17 => some 4
    | 0x18 => some 2
    | _ => some 1

/-- The request whose bits are `w`, numbered as spec/opcode_table.json numbers them (bit 0 is the least
significant bit of the first byte), followed by zero bytes up to the end that its opcode and length field give. -/
def tableBytes (nbits w : Nat) : List Byte :=
  let given := toLe ((nbits + 7) / 8) w ++ List.replicate 6 0#8
  match requestLength given with
  | some len => (given ++ List.replicate (len - given.length) 0#8).take len
  | none => given

/-- The instruction the decoder reads from an opcode-table word. -/
def decodeTableWord (nbits w : Nat) : Option Instr :=
  match decode (tableBytes nbits w) with
  | .request i _ => some i
  | .reserved _ _ => none
  | .truncated => none
  | .noRequest => none

end Sys2Proof
end

