-- ==== Sys2Proof/Machine/Cells.lean ====
section
/-!
DEFINITION. Sparse arrays: a list of (index, value) pairs in one canonical form, indexes strictly rising and no
entry equal to the default, which is what an unlisted index reads as. STORE (default 0), WP_R and WP_W (default
0) and VIS (default NONE) are held so (spec/10_state.md R20, R28, R30).
-/

namespace Sys2Proof.Machine

/-- The value at index `x`; the default `d` where nothing is listed. -/
def cellGet {α : Type} (d : α) : List (Nat × α) → Nat → α
  | [], _ => d
  | (k, v) :: m, x => if k = x then v else cellGet d m x

/-- Sets index `x` to `w`; setting the default removes the entry. -/
def cellSet {α : Type} [DecidableEq α] (d : α) : List (Nat × α) → Nat → α → List (Nat × α)
  | [], x, w => if w = d then [] else [(x, w)]
  | (k, v) :: m, x, w =>
    if x < k then (if w = d then (k, v) :: m else (x, w) :: (k, v) :: m)
    else if x = k then (if w = d then m else (x, w) :: m)
    else (k, v) :: cellSet d m x w

/-- The entries of a run of values that starts at index `k`, defaults left out. -/
def cellRun {α : Type} [DecidableEq α] (d : α) : Nat → List α → List (Nat × α)
  | _, [] => []
  | k, v :: vs => if v = d then cellRun d (k + 1) vs else (k, v) :: cellRun d (k + 1) vs

/-- Sets the indexes `lo`, `lo + 1`, ... to the values `vs`, in one pass. -/
def cellPutRun {α : Type} [DecidableEq α] (d : α) (m : List (Nat × α)) (lo : Nat) (vs : List α) :
    List (Nat × α) :=
  m.filter (fun p => p.1 < lo) ++ cellRun d lo vs ++ m.filter (fun p => lo + vs.length ≤ p.1)

/-- The canonical form. -/
abbrev cellsWf {α : Type} (d : α) (m : List (Nat × α)) : Prop :=
  m.Pairwise (fun p q => p.1 < q.1) ∧ ∀ p ∈ m, p.2 ≠ d

end Sys2Proof.Machine
end

