-- ==== Sys2Proof/Machine/FatalCodes.lean ====
section
/-!
DEFINITION. The fatal errors and their codes (spec/60_exceptions.md R242), and the status byte of a response
(30_encoding.md R89, R90).
-/

namespace Sys2Proof.Machine

/-- The fatal errors of 60_exceptions.md R242. -/
inductive FatalCode where
  | illegalOp
  | badOperand
  | badSlot
  | badBank
  | bankLength
  | snapshotSize
  | snapshotFormat
  | wpOverflow
  | cfgSlotCount
  | cfgBankCount
  | cfgRomImage
  | cfgGeometry
  | cfgRule
  deriving DecidableEq, Repr

/-- The 8-bit code of a fatal error (60_exceptions.md R242). -/
def fatalByte : FatalCode → Byte
  | .illegalOp => 0x01#8
  | .badOperand => 0x02#8
  | .badSlot => 0x03#8
  | .badBank => 0x04#8
  | .bankLength => 0x05#8
  | .snapshotSize => 0x06#8
  | .snapshotFormat => 0x07#8
  | .wpOverflow => 0x08#8
  | .cfgSlotCount => 0x10#8
  | .cfgBankCount => 0x11#8
  | .cfgRomImage => 0x12#8
  | .cfgGeometry => 0x13#8
  | .cfgRule => 0x14#8

/-- The status byte of success (30_encoding.md R90). -/
def statusOk : Byte := 0x00#8

/-- The status byte of a fatal error with code `code`, `0x80 | code` (30_encoding.md R90). -/
def statusFatal (code : Byte) : Byte := 0x80#8 ||| code

/-- The codes an operation raises (60_exceptions.md R242, "raised by"). -/
def runtimeCodes : List Byte :=
  [fatalByte .illegalOp, fatalByte .badOperand, fatalByte .badSlot, fatalByte .badBank,
   fatalByte .bankLength, fatalByte .snapshotSize, fatalByte .snapshotFormat, fatalByte .wpOverflow]

/-- The codes reset raises (60_exceptions.md R242, "raised by"). -/
def resetCodes : List Byte :=
  [fatalByte .cfgSlotCount, fatalByte .cfgBankCount, fatalByte .cfgRomImage, fatalByte .cfgGeometry,
   fatalByte .cfgRule]

end Sys2Proof.Machine
end

