-- ==== Sys2Proof/Config.lean ====
section
/-!
DEFINITION. The configuration of the block (spec/00_scope.md R5 to R14): what an implementation fixes and a
reset event brings (70_reset_and_hazards.md R270). Plain data. The values derived from it (BANK_SIZE, SHIFT,
STORE_SIZE ...) are in Machine/Geometry.lean, the validation in Machine/Boot.lean, the presets in
Machine/Presets.lean. The OPEN parameters of the spec (VISUAL_SHIFT, WP_CNT_W, INIT_STORE, ROM_IMAGES) are
fields here, so every statement over a configuration holds for all of their values.
-/

namespace Sys2Proof

/-- One bank-switch rule in the layout of 42_mapping.md R166. -/
structure BankRule where
  /-- port bits the rule compares -/
  portMask : Port
  /-- the rule matches port `p` when `p & portMask = portMatch` -/
  portMatch : Port
  /-- the slot the rule rewires, or 0xFF for none -/
  slot : Byte
  /-- lowest bit of the bank field in the written value -/
  srcLsb : BitVec 3
  /-- width of the bank field, 0 to 8 -/
  srcWidth : BitVec 4
  /-- bank number for field value 0 -/
  bankBase : Byte
  /-- bank number step per field value -/
  bankScale : Byte
  /-- bit of the written value that sets LOCK, or 15 for none -/
  lockBit : BitVec 4
  deriving DecidableEq, Repr

/-- What the Memory Model Definition says of one slot: its window `[lo, hi]`, the bank first wired there and
whether it is populated (00_scope.md R14, 70_reset_and_hazards.md R271). The bank of an unpopulated slot counts for
nothing (10_state.md R23; log 23). -/
structure SlotDef where
  lo : Nat
  hi : Nat
  bank : Nat
  populated : Bool
  deriving DecidableEq, Repr

/-- One entry of `ROM_IMAGES`: the slice of `image` that starts at `offset` goes to `bank`
(70_reset_and_hazards.md R273). -/
structure RomLoad where
  bank : Nat
  image : List Byte
  offset : Nat
  deriving DecidableEq, Repr

/-- The whole configuration (00_scope.md R6 to R14). Numbers the validation may refuse are natural numbers, so
that a configuration the spec refuses can be written down. -/
structure Config where
  /-- `SLOT_COUNT` (R6) -/
  slotCount : Nat
  /-- `BANK_COUNT` (R7) -/
  bankCount : Nat
  /-- the definition's slots, slot 0 first; `none` is a slot the definition leaves out, a gap (70 R271) -/
  slots : List (Option SlotDef)
  /-- `ROM_FLAGS`, bank 0 first (R14) -/
  romFlags : List Bool
  /-- `ROM_IMAGES`, in load order (R14) -/
  romImages : List RomLoad
  /-- `INIT_STORE` (R14): the bytes that are not zero, by flat offset -/
  initStore : List Host.Cell
  /-- `VISUAL_SHIFT` (R10) -/
  visualShift : Nat
  /-- `WP_CNT_W` (R11) -/
  wpCntW : Nat
  /-- `HAS_DISPLAY_SELECT` (R12) -/
  hasDisplaySelect : Bool
  /-- `DISPLAY_PRIMARY_BANK` (R12) -/
  displayPrimaryBank : Nat
  /-- `DISPLAY_SHADOW_BANK` (R12) -/
  displayShadowBank : Nat
  /-- `RULES`, in list order (R13) -/
  rules : List BankRule
  deriving DecidableEq, Repr

end Sys2Proof
end

