-- ==== Sys2Proof/Machine/Geometry.lean ====
section
/-!
DEFINITION. The values derived from a configuration (spec/00_scope.md R8 to R11, 44_snapshot.md R221) and the
slot and in-bank offset of an address (20_memory.md R53, R54).
-/

namespace Sys2Proof.Machine

/-- `BANK_SIZE = 0x10000 / SLOT_COUNT` (00_scope.md R8). -/
def bankSize (c : Config) : Nat := 0x10000 / c.slotCount

/-- `SHIFT = 16 - log2 SLOT_COUNT` (00_scope.md R8). -/
def slotShift (c : Config) : Nat := 16 - Nat.log2 c.slotCount

/-- `STORE_SIZE = BANK_COUNT * BANK_SIZE` (00_scope.md R9). -/
def storeSize (c : Config) : Nat := c.bankCount * bankSize c

/-- `VIS_COUNT = 0x10000 >> VISUAL_SHIFT` (00_scope.md R10). -/
def visCount (c : Config) : Nat := 0x10000 >>> c.visualShift

/-- `WP_MAX = 2^WP_CNT_W - 1` (00_scope.md R11). -/
def wpMax (c : Config) : Nat := 2 ^ c.wpCntW - 1

/-- `SER_SIZE = 1 + SLOT_COUNT + 4 + STORE_SIZE` (44_snapshot.md R221). -/
def serSize (c : Config) : Nat := 1 + c.slotCount + 4 + storeSize c

/-- The slot an address lies in, `a >> SHIFT` (20_memory.md R54). -/
def slotOf (c : Config) (a : Addr) : Nat := a.toNat >>> slotShift c

/-- The offset of an address in its bank, `a & (BANK_SIZE - 1)` (20_memory.md R54). -/
def bankOffset (c : Config) (a : Addr) : Nat := a.toNat &&& (bankSize c - 1)

/-- The flat offset of an offset in a bank, `bank * BANK_SIZE + offset` (10_state.md R20, 20_memory.md R54). -/
def flatOffset (c : Config) (b : Byte) (off : Nat) : Nat := b.toNat * bankSize c + off

/-- The visual-memory bucket of an address, `a >> VISUAL_SHIFT` (10_state.md R30, 40_access.md R110). -/
def bucketOf (c : Config) (a : Addr) : Nat := a.toNat >>> c.visualShift

end Sys2Proof.Machine
end

