-- ==== Sys2Proof/Machine/Boot.lean ====
section
/-!
DEFINITION. Construction of the block from its configuration (spec/70_reset_and_hazards.md R270 to R273):
validation, ROM loading, and the reset values that the configuration gives (10_state.md R21, R23, R25, R27).
-/

namespace Sys2Proof.Machine

/-- The legal slot counts (00_scope.md R6). -/
def legalSlotCounts : List Nat := [1, 2, 4, 8, 16, 32, 64, 128]

/-- The definition of slot `i`; a slot the definition leaves out is a gap (70 R271). -/
def slotDef (c : Config) (i : Nat) : Option SlotDef := (c.slots[i]?).getD none

/-- `INIT_SLOT_BANK[i]`: the definition's bank of a populated slot, 0 for an unpopulated one, a gap among them
(10_state.md R23, 92 D44). -/
def initSlotBank (c : Config) (i : Nat) : Nat :=
  match slotDef c i with
  | some d => if d.populated then d.bank else 0
  | none => 0

/-- `INIT_SLOT_POP[i]`, 0 for a gap (10_state.md R25). -/
def initSlotPop (c : Config) (i : Nat) : Bool :=
  match slotDef c i with
  | some d => d.populated
  | none => false

/-- The window of slot `i`, where the definition gives one, is the uniform one of 20_memory.md R53 (70 R271). -/
def slotWindowOk (c : Config) (i : Nat) : Bool :=
  match slotDef c i with
  | some d => decide (d.lo = i * bankSize c) && decide (d.hi = i * bankSize c + bankSize c - 1)
  | none => true

/-- Slot `i` passes the geometry check of 70 R271: its window is the uniform one and `INIT_SLOT_BANK[i]` exists. The
bank that a definition gives beside an unpopulated slot is not `INIT_SLOT_BANK[i]` and is not checked (log 23). -/
def slotGeometryOk (c : Config) (i : Nat) : Bool :=
  slotWindowOk c i && decide (initSlotBank c i < c.bankCount)

/-- 42_mapping.md R167: the rule is valid. -/
def ruleValid (c : Config) (r : BankRule) : Bool :=
  decide (r.srcLsb.toNat + r.srcWidth.toNat ≤ 8)
    && (decide (r.slot.toNat < c.slotCount) || decide (r.slot = 0xFF#8))
    && (decide (r.slot = 0xFF#8)
        || decide (r.bankBase.toNat + r.bankScale.toNat * (2 ^ r.srcWidth.toNat - 1) < c.bankCount))
    && (decide (r.lockBit.toNat ≤ 7) || decide (r.lockBit = 15#4))
    && decide (r.portMatch &&& ~~~r.portMask = 0#16)

/-- `VALIDATE()` of 70 R271: the first check that fails, or `none`. -/
def validate (c : Config) : Option FatalCode :=
  if c.slotCount ∉ legalSlotCounts then some .cfgSlotCount
  else if c.bankCount < c.slotCount ∨ 256 < c.bankCount then some .cfgBankCount
  else if ¬ (List.range c.slotCount).all (slotGeometryOk c) then some .cfgGeometry
  else if c.hasDisplaySelect ∧ (c.bankCount ≤ c.displayPrimaryBank ∨ c.bankCount ≤ c.displayShadowBank) then
    some .cfgGeometry
  else if 16 < c.visualShift ∨ c.wpCntW < 1 then some .cfgGeometry
  else if ¬ c.rules.all (ruleValid c) then some .cfgRule
  else none

/-- The store before ROM loading: `INIT_STORE` (10_state.md R21). Entries outside the store name no byte of it. -/
def initialStore (c : Config) : List Host.Cell :=
  (c.initStore.filter (fun p => p.1 < storeSize c)).foldl (fun m p => cellSet 0#8 m p.1 p.2) []

/-- The slice of a ROM image that is loaded, `image[offset .. offset + BANK_SIZE - 1]` (70 R273). -/
def romSlice (c : Config) (image : List Byte) (offset : Nat) : List Byte :=
  (image.drop offset).take (bankSize c)

/-- `LOAD_ROMS()` of 70 R273, in list order. -/
def loadRoms (c : Config) : List RomLoad → List Host.Cell → Except FatalCode (List Host.Cell)
  | [], m => .ok m
  | r :: rs, m =>
    if c.bankCount ≤ r.bank then .error .cfgRomImage
    else if r.image.length < r.offset + bankSize c then .error .cfgRomImage
    else loadRoms c rs (cellPutRun 0#8 m (r.bank * bankSize c) (romSlice c r.image r.offset))

/-- Validation, then ROM loading (70 R271, R273): the store after a successful reset, or the code of the first
check that fails. -/
def construct (c : Config) : Except FatalCode (List Host.Cell) :=
  match validate c with
  | some code => .error code
  | none => loadRoms c c.romImages (initialStore c)

/-- The reset value of `SLOT_BANK` (10_state.md R23). -/
def bootSlotBank (c : Config) : List Byte :=
  (List.range c.slotCount).map (fun i => BitVec.ofNat 8 (initSlotBank c i))

/-- The reset value of `SLOT_POP` (10_state.md R25). -/
def bootSlotPop (c : Config) : List Bool := (List.range c.slotCount).map (initSlotPop c)

/-- The reset value of `ROM_BANK` (10_state.md R27); a bank for which no flag is given is not marked as ROM. -/
def bootRomBank (c : Config) : List Bool :=
  (List.range c.bankCount).map (fun b => c.romFlags.getD b false)

end Sys2Proof.Machine
end

