-- ==== Sys2Proof/Machine/Presets.lean ====
section
/-!
DEFINITION. The machine presets (spec/70_reset_and_hazards.md R276). The parameters a preset leaves OPEN are
arguments. The "unknown" preset is a whole configuration as an argument, so it has no definition here.
-/

namespace Sys2Proof.Machine

/-- The parameters that are OPEN in every preset (70 R276). -/
structure OpenParams where
  visualShift : Nat
  wpCntW : Nat
  initStore : List Host.Cell
  romImages : List RomLoad
  deriving DecidableEq, Repr

/-- The uniform slot windows of 20_memory.md R53, with the banks and populated flags given. -/
def uniformSlots (size : Nat) : Nat → List (Nat × Bool) → List (Option SlotDef)
  | _, [] => []
  | i, (b, pop) :: rest =>
    some { lo := i * size, hi := i * size + size - 1, bank := b, populated := pop }
      :: uniformSlots size (i + 1) rest

/-- A preset: slot count, bank count, ROM flags, wiring, rules, and the display banks where it has them. -/
def preset (o : OpenParams) (slotCount bankCount : Nat) (romFlags : List Bool) (wiring : List (Nat × Bool))
    (rules : List BankRule) (display : Option (Nat × Nat)) : Config where
  slotCount := slotCount
  bankCount := bankCount
  slots := uniformSlots (0x10000 / slotCount) 0 wiring
  romFlags := romFlags
  romImages := o.romImages
  initStore := o.initStore
  visualShift := o.visualShift
  wpCntW := o.wpCntW
  hasDisplaySelect := display.isSome
  displayPrimaryBank := (display.getD (0, 0)).1
  displayShadowBank := (display.getD (0, 0)).2
  rules := rules

/-- all-RAM: one slot, one bank, no ROM (70 R276). -/
def presetAllRam (o : OpenParams) : Config := preset o 1 1 [] [(0, true)] [] none

/-- ZX16K: 16 KiB ROM, 16 KiB RAM, the upper half unpopulated (70 R276, from general knowledge). It has fewer banks
than slots, so the validation of 70 R271 refuses it (log 22). -/
def presetZx16k (o : OpenParams) : Config :=
  preset o 4 2 [true] [(0, true), (1, true), (0, false), (0, false)] [] none

/-- ZX48K: bank 0 ROM, banks 1 to 3 RAM (70 R276). -/
def presetZx48k (o : OpenParams) : Config :=
  preset o 4 4 [true] [(0, true), (1, true), (2, true), (3, true)] [] none

/-- The RAM-select rule of the 128K-style port (42_mapping.md R173, rule 0). -/
def ruleRam128 : BankRule where
  portMask := 0x8002#16
  portMatch := 0x0000#16
  slot := 3#8
  srcLsb := 0#3
  srcWidth := 3#4
  bankBase := 0#8
  bankScale := 1#8
  lockBit := 5#4

/-- The ROM-select rule of the 128K-style port (42_mapping.md R173, rule 1). -/
def ruleRom128 : BankRule where
  portMask := 0x8002#16
  portMatch := 0x0000#16
  slot := 0#8
  srcLsb := 4#3
  srcWidth := 1#4
  bankBase := 8#8
  bankScale := 1#8
  lockBit := 15#4

/-- ZX128K family: RAM banks 0 to 7, ROM banks 8 and 9, the rules of 42_mapping.md R173, display banks 5 and 7
(70 R276). -/
def presetZx128k (o : OpenParams) : Config :=
  preset o 4 10 [false, false, false, false, false, false, false, false, true, true]
    [(8, true), (5, true), (2, true), (0, true)] [ruleRam128, ruleRom128] (some (5, 7))

/-- The RAM-select rule of the 128K-style port at 8 KiB granularity, for one half of the 16 KiB bank
(42_mapping.md R174). -/
def ruleRam8k (slot base : Byte) (lockBit : BitVec 4) : BankRule where
  portMask := 0x8002#16
  portMatch := 0x0000#16
  slot := slot
  srcLsb := 0#3
  srcWidth := 3#4
  bankBase := base
  bankScale := 2#8
  lockBit := lockBit

/-- The values the extended-bank preset's `BANK_COUNT` may take, `16 ≤ BANK_COUNT ≤ 224` (70 R276). -/
def extendedBankCountOk (bankCount : Nat) : Bool := decide (16 ≤ bankCount) && decide (bankCount ≤ 224)

/-- Extended-bank machine: 8 slots, the bank count OPEN within its bounds, the two ROM bank indexes and the rules OPEN,
wiring `[ROM0, ROM1, 10, 11, 4, 5, 0, 1]`, display banks 10 and 14 (70 R276). There is no such preset with a bank count
outside the bounds. A ROM index that is no bank makes a configuration that the validation of 70 R271 refuses. -/
def presetExtended (o : OpenParams) (bankCount rom0 rom1 : Nat) (rules : List BankRule) : Option Config :=
  if extendedBankCountOk bankCount then
    some (preset o 8 bankCount ((List.range bankCount).map (fun b => b == rom0 || b == rom1))
      [(rom0, true), (rom1, true), (10, true), (11, true), (4, true), (5, true), (0, true), (1, true)]
      rules (some (10, 14)))
  else none

/-- The values State.reset takes for the OPEN parameters (log 3, log 4; DESIGN CHOICE). -/
def resetOpenParams : OpenParams where
  visualShift := 8
  wpCntW := 8
  initStore := []
  romImages := []

end Sys2Proof.Machine
end

