-- ==== Sys2Proof/Machine/State.lean ====
section
/-!
DEFINITION. The state of the block (spec/10_state.md S1 to S10), its ports, the reasons a step stops, and reset
(70_reset_and_hazards.md R270 to R273). Plain data.
-/

namespace Sys2Proof.Machine

/-- The flat store as a list of (flat offset, byte) pairs; an unlisted offset reads 0 (log 4). -/
abbrev Memory := List Host.Cell

/-- The store is in its canonical form: offsets strictly rising, no entry equal to what an unlisted offset reads
as. -/
abbrev Memory.wf (m : Memory) : Prop := cellsWf 0#8 m

/-- The access class of a watchpoint hit; one bit, READ 0 and WRITE 1 (10_state.md R32). -/
inductive Access where
  | read
  | write
  deriving DecidableEq, Repr

/-- A visual tag; two bits, NONE 0, READ 1, WRITE 2, FETCH 3 (10_state.md R30). -/
inductive VisTag where
  | none
  | read
  | write
  | fetch
  deriving DecidableEq, Repr

/-- A reset event that has not been served: the configuration it brings and the request bytes that come after it
(70 R270; log 7). -/
structure ResetEvent where
  config : Config
  requests : List Byte
  deriving DecidableEq, Repr

/-- The state of the block and of its ports. -/
structure State where
  /-- the configuration, fixed between resets (10_state.md, head; log 1) -/
  cfg : Config
  /-- S1 `STORE` (R20) -/
  store : Memory
  /-- S2 `SLOT_BANK`, slot 0 first (R22) -/
  slotBank : List Byte
  /-- S3 `SLOT_POP`, slot 0 first (R24) -/
  slotPop : List Bool
  /-- S4 `ROM_BANK`, bank 0 first (R26) -/
  romBank : List Bool
  /-- S5 `WP_R`, counters that are not 0, by CPU address (R28; log 14) -/
  wpR : List (Nat × Nat)
  /-- S5 `WP_W`, counters that are not 0, by CPU address (R28; log 14) -/
  wpW : List (Nat × Nat)
  /-- S6 `VIS`, tags that are not NONE, by bucket (R30; log 14) -/
  vis : List (Nat × VisTag)
  /-- S7 `HIT_VALID` (R32) -/
  hitValid : Bool
  /-- S7 `HIT_ADDR` (R32) -/
  hitAddr : Addr
  /-- S7 `HIT_ACCESS` (R32) -/
  hitAccess : Access
  /-- S8 `LOCK` (R34) -/
  lock : Bool
  /-- S9 `DISP_SHADOW` (R36) -/
  dispShadow : Bool
  /-- S10 `FATAL` (R38) -/
  fatal : Bool
  /-- S10 `FATAL_CODE` (R38) -/
  fatalCode : Byte
  /-- the request port: bytes sent and not yet taken, oldest first (30_encoding.md R80; log 5) -/
  requests : List Byte
  /-- reset events raised and not yet served, oldest first (70 R270; log 7) -/
  pendingResets : List ResetEvent
  /-- the response port: the responses returned since reset, oldest first (30_encoding.md R89, 70 R283; log 6) -/
  responses : List (List Byte)
  deriving DecidableEq, Repr

/-- Where a state that breaks the invariants of 10_state.md R23 stops. No state a run reaches raises one
(20_memory.md R56; log 11). All are safe. -/
inductive Fault where
  /-- raised by a store access at a flat offset outside `0 .. STORE_SIZE - 1`, which the spec says does not exist
  (20_memory.md R51, R56); safe -/
  | storeOutOfRange (off : Nat)
  /-- raised by the address decoder when the slot has no bank-select register or no populated bit; safe -/
  | noSuchSlot (slot : Nat)
  /-- raised by the write datapath when the wired bank has no ROM flag; safe -/
  | noSuchBank (bank : Nat)
  deriving DecidableEq, Repr

/-- Why a step has no meaning. -/
inductive Refusal where
  /-- raised by an arm of exec that has no meaning yet; no arm does; safe -/
  | notModelled (mnemonic : String)
  /-- raised by step when the bytes on the request port end before the request is complete: not a request, and the
  block performs nothing for it (30_encoding.md R84, 93 section 1; log 10); safe -/
  | truncatedRequest
  deriving DecidableEq, Repr

/-- The state after a reset that fails with `code` (70 R272): FATAL and its code, the hit latch and the display
selector as the rule says; every other item is unobservable and empty here (log 8). -/
def State.afterFailedReset (c : Config) (code : FatalCode) : State where
  cfg := c
  store := []
  slotBank := []
  slotPop := []
  romBank := []
  wpR := []
  wpW := []
  vis := []
  hitValid := false
  hitAddr := 0#16
  hitAccess := .read
  lock := false
  dispShadow := false
  fatal := true
  fatalCode := fatalByte code
  requests := []
  pendingResets := []
  responses := []

/-- The state after a successful reset that leaves `store` (70 R272; 10_state.md R21 to R39). -/
def State.afterReset (c : Config) (store : Memory) : State where
  cfg := c
  store := store
  slotBank := bootSlotBank c
  slotPop := bootSlotPop c
  romBank := bootRomBank c
  wpR := []
  wpW := []
  vis := []
  hitValid := false
  hitAddr := 0#16
  hitAccess := .read
  lock := false
  dispShadow := false
  fatal := false
  fatalCode := 0#8
  requests := []
  pendingResets := []
  responses := []

/-- The block right after a reset from configuration `c` (70 R270 to R273). -/
def State.resetWith (c : Config) : State :=
  match construct c with
  | .error code => State.afterFailedReset c code
  | .ok store => State.afterReset c store

/-- The block right after a reset from the ZX128K-family preset of 70 R276 (log 2, log 3, log 4). Every rule is
modelled for every configuration by `State.resetWith`. -/
def State.reset : State := State.resetWith (presetZx128k resetOpenParams)

end Sys2Proof.Machine
end

