-- ==== Sys2Proof/Machine/Ops.lean ====
section
/-!
DEFINITION. The shared operations: the address decoder and the datapath (spec/20_memory.md R54 to R60), responses
(30_encoding.md R89), and raising a fatal error, the block's one exception (60_exceptions.md R241, R243). There is
no return from a fatal error but reset (60_exceptions.md R247).
-/

namespace Sys2Proof.Machine

/-- The outcome of a step of this machine. -/
abbrev Out := Host.Outcome State Fault Refusal

/-- What an operation's pseudocode comes to: done, with the state it leaves and its result bytes; `raise Fatal`
(00_scope.md R16); or a model fault. -/
inductive OpResult where
  | done (t : State) (result : List Byte)
  | fatal (code : FatalCode)
  | fault (f : Fault)
  deriving DecidableEq, Repr

/-- Returns a response (30_encoding.md R80, R89). -/
def respond (s : State) (bytes : List Byte) : State := { s with responses := s.responses ++ [bytes] }

/-- Raising a fatal error: FATAL and FATAL_CODE are set, the response is `0x80 | code`, and nothing else changes
(60_exceptions.md R241). -/
def raiseFatal (code : FatalCode) (s : State) : State :=
  respond { s with fatal := true, fatalCode := fatalByte code } [statusFatal (fatalByte code)]

/-- A request in the fatal state performs nothing and is answered with the code of the first fatal error
(60_exceptions.md R243). -/
def answerDead (s : State) : State := respond s [statusFatal s.fatalCode]

/-- Performs one operation: nothing in the fatal state; else its effect and status 0x00 with its result, or its
fatal error (30_encoding.md R89, 60_exceptions.md R241, R243). -/
def perform (op : State → OpResult) (s : State) : Out :=
  if s.fatal then .next (answerDead s)
  else
    match op s with
    | .done t result => .next (respond t (statusOk :: result))
    | .fatal code => .next (raiseFatal code s)
    | .fault f => .fault f

/-- A reserved opcode raises ILLEGAL_OP (30_encoding.md R87). -/
def performReserved (s : State) : Out := perform (fun _ => .fatal .illegalOp) s

/-- Goes on with the value of a datapath access, or stops with its model fault. -/
def withValue {α : Type} (x : Except Fault α) (k : α → OpResult) : OpResult :=
  match x with
  | .ok v => k v
  | .error f => .fault f

/-- The slot, bank and flat offset an address decodes to. -/
structure Target where
  slot : Nat
  bank : Byte
  off : Nat
  deriving DecidableEq, Repr

/-- `Translate(a)` (20_memory.md R54); reads `SLOT_BANK` afresh. -/
def translate (s : State) (a : Addr) : Except Fault Target :=
  match s.slotBank[slotOf s.cfg a]? with
  | none => .error (.noSuchSlot (slotOf s.cfg a))
  | some b =>
    .ok { slot := slotOf s.cfg a, bank := b, off := flatOffset s.cfg b (bankOffset s.cfg a) }

/-- `StoreRead(off)` (20_memory.md R57); an offset outside the store does not exist (R51). -/
def storeRead (c : Config) (m : Memory) (off : Nat) : Except Fault Byte :=
  if off < storeSize c then .ok (cellGet 0#8 m off) else .error (.storeOutOfRange off)

/-- `StoreWrite(off, v)` (20_memory.md R57); an offset outside the store does not exist (R51). -/
def storeWrite (c : Config) (m : Memory) (off : Nat) (v : Byte) : Except Fault Memory :=
  if off < storeSize c then .ok (cellSet 0#8 m off v) else .error (.storeOutOfRange off)

/-- `MemRead8(a)` (20_memory.md R58): 0xFF from an unpopulated slot, else the byte of the wired bank. -/
def memRead8 (s : State) (a : Addr) : Except Fault Byte :=
  match translate s a with
  | .error f => .error f
  | .ok t =>
    match s.slotPop[t.slot]? with
    | none => .error (.noSuchSlot t.slot)
    | some false => .ok 0xFF#8
    | some true => storeRead s.cfg s.store t.off

/-- `MemRead(a, n)` (20_memory.md R60): byte by byte, ascending, addresses mod 2^16. -/
def memRead (s : State) : Addr → Nat → Except Fault (List Byte)
  | _, 0 => .ok []
  | a, n + 1 =>
    match memRead8 s a with
    | .error f => .error f
    | .ok v =>
      match memRead s (a + 1#16) n with
      | .error f => .error f
      | .ok vs => .ok (v :: vs)

/-- `MemWrite8(a, v)` (20_memory.md R59) on the store `m`, through the wiring of `s`: discarded when the slot is
unpopulated or the bank is ROM. -/
def memWrite8 (s : State) (a : Addr) (v : Byte) (m : Memory) : Except Fault Memory :=
  match translate s a with
  | .error f => .error f
  | .ok t =>
    match s.slotPop[t.slot]? with
    | none => .error (.noSuchSlot t.slot)
    | some false => .ok m
    | some true =>
      match s.romBank[t.bank.toNat]? with
      | none => .error (.noSuchBank t.bank.toNat)
      | some true => .ok m
      | some false => storeWrite s.cfg m t.off v

/-- `MemWrite(a, n, bytes)` (20_memory.md R60) on the store `m`, through the wiring of `s`: byte by byte,
ascending, addresses mod 2^16. -/
def memWrite (s : State) : Addr → List Byte → Memory → Except Fault Memory
  | _, [], m => .ok m
  | a, v :: vs, m =>
    match memWrite8 s a v m with
    | .error f => .error f
    | .ok m' => memWrite s (a + 1#16) vs m'

/-- Answers the bytes of `MemRead(a, n)`, no state written. -/
def answerRead (s : State) (a : Addr) (n : Nat) : OpResult :=
  withValue (memRead s a n) (fun bytes => .done s bytes)

/-- Answers nothing after `MemWrite(a, len, bytes)`. -/
def answerWrite (s : State) (a : Addr) (bytes : List Byte) : OpResult :=
  withValue (memWrite s a bytes s.store) (fun m => .done { s with store := m } [])

/-- Writes a run of store bytes from flat offset `off` on, as `writeBank`, `deserialize` and ROM loading do
(41_block.md R146, 44_snapshot.md R224). -/
def storePutRun (s : State) (off : Nat) (bytes : List Byte) : State :=
  { s with store := cellPutRun 0#8 s.store off bytes }

/-- The output `DISPLAY_BANK` (10_state.md R36); there is none without the selector. -/
def displayBank (s : State) : Option Nat :=
  if s.cfg.hasDisplaySelect then
    some (if s.dispShadow then s.cfg.displayShadowBank else s.cfg.displayPrimaryBank)
  else none

/-- The levels a collaborator observes (60_exceptions.md R250). -/
structure Levels where
  hitValid : Bool
  hitAddr : Addr
  hitAccess : Access
  fatal : Bool
  fatalCode : Byte
  displayBank : Option Nat
  deriving DecidableEq, Repr

/-- The level outputs of a state (60_exceptions.md R250). -/
def levels (s : State) : Levels where
  hitValid := s.hitValid
  hitAddr := s.hitAddr
  hitAccess := s.hitAccess
  fatal := s.fatal
  fatalCode := s.fatalCode
  displayBank := displayBank s

end Sys2Proof.Machine
end

