-- ==== Sys2Proof/Machine/Flags.lean ====
section
/-!
DEFINITION. The block has no arithmetic flags (spec/10_state.md R41). Its status state is the hit latch, the
watchpoint counters and the visual tags: the bookkeeping helpers of 40_access.md R110, the counter updates of
43_debug.md R190 and R192, and the byte forms of the latch and the tags (43_debug.md R196, R200).
-/

namespace Sys2Proof.Machine

/-- The watchpoint counter of an address for an access class (10_state.md R28). -/
def wpCount (s : State) (acc : Access) (a : Addr) : Nat :=
  match acc with
  | .read => cellGet 0 s.wpR a.toNat
  | .write => cellGet 0 s.wpW a.toNat

/-- `WatchHit(a, acc)` (40_access.md R110): the first watched access since the latch was cleared is recorded. -/
def watchHit (a : Addr) (acc : Access) (s : State) : State :=
  if 0 < wpCount s acc a ∧ s.hitValid = false then
    { s with hitValid := true, hitAddr := a, hitAccess := acc }
  else s

/-- `Tag(a, cls)` (40_access.md R110). -/
def tagAccess (a : Addr) (cls : VisTag) (s : State) : State :=
  { s with vis := cellSet .none s.vis (bucketOf s.cfg a) cls }

/-- The bit of HIT_ACCESS as a response byte (10_state.md R32, 43_debug.md R196). -/
def accessByte : Access → Byte
  | .read => 0#8
  | .write => 1#8

/-- The bit of HIT_VALID as a response byte (43_debug.md R196). -/
def bitByte : Bool → Byte
  | false => 0#8
  | true => 1#8

/-- A visual tag as a response byte (10_state.md R30). -/
def tagByte : VisTag → Byte
  | .none => 0#8
  | .read => 1#8
  | .write => 2#8
  | .fetch => 3#8

/-- Bit 0 of the access mask: the read counters (43_debug.md R190). -/
def maskRead (c : Byte) : Bool := c.getLsbD 0

/-- Bit 1 of the access mask: the write counters (43_debug.md R190). -/
def maskWrite (c : Byte) : Bool := c.getLsbD 1

/-- The addresses of `[a, a + n)`, wrapping at 2^16, in order (43_debug.md R190). -/
def rangeAddrs (a : Addr) (n : Nat) : List Nat := (List.range n).map (fun i => (a.toNat + i) % 0x10000)

/-- Applies `f` to `n` counters from index `lo` on. -/
def countersRun (f : Nat → Nat) (m : List (Nat × Nat)) (lo n : Nat) : List (Nat × Nat) :=
  cellPutRun 0 m lo ((List.range n).map (fun i => f (cellGet 0 m (lo + i))))

/-- Applies `f` to the counter of every address of `[a, a + n)`, for `n` at most 0x10000: the part up to 0xFFFF,
then the part that wraps to 0x0000 (43_debug.md R190, R192). -/
def countersRange (f : Nat → Nat) (m : List (Nat × Nat)) (a : Addr) (n : Nat) : List (Nat × Nat) :=
  countersRun f (countersRun f m a.toNat (min n (0x10000 - a.toNat))) 0 (n - (0x10000 - a.toNat))

/-- `f` applied over the range to the read counters and the write counters the mask selects. -/
def countersMasked (f : Nat → Nat) (s : State) (a : Addr) (n : Nat) (c : Byte) : State :=
  { s with
    wpR := if maskRead c then countersRange f s.wpR a n else s.wpR
    wpW := if maskWrite c then countersRange f s.wpW a n else s.wpW }

/-- Some counter that the mask selects in the range holds `WP_MAX` (43_debug.md R190). -/
def someCounterFull (s : State) (a : Addr) (n : Nat) (c : Byte) : Bool :=
  (rangeAddrs a n).any (fun x =>
    (maskRead c && decide (cellGet 0 s.wpR x = wpMax s.cfg))
      || (maskWrite c && decide (cellGet 0 s.wpW x = wpMax s.cfg)))

end Sys2Proof.Machine
end

