-- ==== Sys2Proof/Machine/Operands.lean ====
section
/-!
DEFINITION. The legality of operand fields (spec/30_encoding.md R82, R88) and the order in which failed checks are
reported (60_exceptions.md R245).
-/

namespace Sys2Proof.Machine

/-- A check: `none` when it passes, else the fatal error it raises. -/
abbrev Check := Option FatalCode

/-- A check that passes exactly when `ok` holds. -/
def require (ok : Bool) (code : FatalCode) : Check := if ok then none else some code

/-- Field `N` of READBLOCK, WRITEBLOCK, SETWP, REMOVEWP: `0 .. 0x10000` (30_encoding.md R82). -/
def checkLength (n : Nat) : Check := require (decide (n ≤ 0x10000)) .badOperand

/-- Field `S`: `0 .. SLOT_COUNT - 1` (30_encoding.md R82). -/
def checkSlot (c : Config) (i : Byte) : Check := require (decide (i.toNat < c.slotCount)) .badSlot

/-- Field `B`: `0 .. BANK_COUNT - 1` (30_encoding.md R82). -/
def checkBank (c : Config) (b : Byte) : Check := require (decide (b.toNat < c.bankCount)) .badBank

/-- Field `N` of WRITEBANK: exactly `BANK_SIZE` (41_block.md R146). -/
def checkBankLength (c : Config) (n : Nat) : Check := require (decide (n = bankSize c)) .bankLength

/-- Field `C`: bits 7..2 zero (30_encoding.md R82). -/
def checkMask (m : Byte) : Check := require (decide (m.toNat / 4 = 0)) .badOperand

/-- Field `F`: bits 7..1 zero (30_encoding.md R82). -/
def checkFlag (f : Byte) : Check := require (decide (f.toNat / 2 = 0)) .badOperand

/-- The selector exists (42_mapping.md R175). -/
def checkSelector (c : Config) : Check := require c.hasDisplaySelect .illegalOp

/-- The first failed check, in the order given (60_exceptions.md R245). -/
def firstFailed : List Check → Check
  | [] => none
  | some code :: _ => some code
  | none :: rest => firstFailed rest

/-- Runs the checks before anything is written (60_exceptions.md R241): the first failure is raised, else the
operation goes on. -/
def guarded (checks : List Check) (r : OpResult) : OpResult :=
  match firstFailed checks with
  | some code => .fatal code
  | none => r

end Sys2Proof.Machine
end

