-- ==== Sys2Proof/Machine/Access.lean ====
section
/-!
DEFINITION. Byte and word accesses (spec/40_access.md): READ8, FETCH8, WRITE8 with their bookkeeping, and the
debugger accessors GETMEM8/16/32 and SETMEM8/16 without it (R121).
-/

namespace Sys2Proof.Machine

/-- A CPU read: hit latch (read counter), visual tag, the byte (40_access.md R111, R115). -/
def cpuRead (a : Addr) (cls : VisTag) (s : State) : OpResult :=
  withValue (memRead8 s a) (fun v => .done (tagAccess a cls (watchHit a .read s)) [v])

/-- READ8 (40_access.md R111, R112). -/
def execRead8 (a : Addr) (s : State) : Out := perform (cpuRead a .read) s

/-- FETCH8 (40_access.md R115, R116): as READ8, with the FETCH tag. -/
def execFetch8 (a : Addr) (s : State) : Out := perform (cpuRead a .fetch) s

/-- WRITE8 (40_access.md R118, R119): the bookkeeping happens whether or not the byte lands. -/
def execWrite8 (a : Addr) (v : Byte) (s : State) : Out :=
  perform (fun s => answerWrite (tagAccess a .write (watchHit a .write s)) a [v]) s

/-- GETMEM8 (40_access.md R122). -/
def execGetmem8 (a : Addr) (s : State) : Out := perform (fun s => answerRead s a 1) s

/-- GETMEM16 (40_access.md R125): the little-endian value of two bytes. -/
def execGetmem16 (a : Addr) (s : State) : Out :=
  perform (fun s => withValue (memRead s a 2) (fun bytes => .done s (toLe 2 (ofLe bytes)))) s

/-- GETMEM32 (40_access.md R128): the little-endian value of four bytes. -/
def execGetmem32 (a : Addr) (s : State) : Out :=
  perform (fun s => withValue (memRead s a 4) (fun bytes => .done s (toLe 4 (ofLe bytes)))) s

/-- SETMEM8 (40_access.md R131). -/
def execSetmem8 (a : Addr) (v : Byte) (s : State) : Out := perform (fun s => answerWrite s a [v]) s

/-- SETMEM16 (40_access.md R134, R135): the low byte at `a`, the high byte at `a + 1`, each by its own slot. -/
def execSetmem16 (a : Addr) (w : Half) (s : State) : Out :=
  perform (fun s => answerWrite s a (toLe 2 w.toNat)) s

end Sys2Proof.Machine
end

