-- ==== Sys2Proof/Machine/Block.lean ====
section
/-!
DEFINITION. Block transfers and bank loading (spec/41_block.md): READBLOCK, WRITEBLOCK, WRITEBANK.
-/

namespace Sys2Proof.Machine

/-- READBLOCK (41_block.md R140, R141). -/
def execReadblock (a : Addr) (n : Len24) (s : State) : Out :=
  perform (fun s => guarded [checkLength n.toNat] (answerRead s a n.toNat)) s

/-- WRITEBLOCK (41_block.md R143 to R145). -/
def execWriteblock (a : Addr) (bytes : List Byte) (s : State) : Out :=
  perform (fun s => guarded [checkLength bytes.length] (answerWrite s a bytes)) s

/-- WRITEBANK (41_block.md R146 to R148): the whole bank, whatever its ROM flag and the wiring. -/
def execWritebank (b : Byte) (bytes : List Byte) (s : State) : Out :=
  perform (fun s =>
    guarded [checkBank s.cfg b, checkBankLength s.cfg bytes.length]
      (.done (storePutRun s (flatOffset s.cfg b 0) bytes) [])) s

end Sys2Proof.Machine
end

