-- ==== Sys2Proof/Machine/Debug.lean ====
section
/-!
DEFINITION. Watchpoints, hit latch and visual memory (spec/43_debug.md): SETWP, REMOVEWP, CLEARHIT, GETHIT,
CLEARVIS, GETVIS.
-/

namespace Sys2Proof.Machine

/-- SETWP (43_debug.md R190): every selected counter of the range is checked, then every one is incremented. -/
def execSetwp (a : Addr) (n : Len24) (c : Byte) (s : State) : Out :=
  perform (fun s =>
    guarded [checkMask c, checkLength n.toNat]
      (guarded [require (!someCounterFull s a n.toNat c) .wpOverflow]
        (.done (countersMasked (fun k => k + 1) s a n.toNat c) []))) s

/-- REMOVEWP (43_debug.md R192, R193): every selected counter of the range is decremented, down to 0. -/
def execRemovewp (a : Addr) (n : Len24) (c : Byte) (s : State) : Out :=
  perform (fun s =>
    guarded [checkMask c, checkLength n.toNat]
      (.done (countersMasked (fun k => k - 1) s a n.toNat c) [])) s

/-- CLEARHIT (43_debug.md R194). -/
def execClearhit (s : State) : Out :=
  perform (fun s => .done { s with hitValid := false, hitAddr := 0#16, hitAccess := .read } []) s

/-- GETHIT (43_debug.md R196): valid, address low, address high, access. -/
def execGethit (s : State) : Out :=
  perform (fun s => .done s (bitByte s.hitValid :: (toLe 2 s.hitAddr.toNat ++ [accessByte s.hitAccess]))) s

/-- CLEARVIS (43_debug.md R198): every bucket is NONE. -/
def execClearvis (s : State) : Out := perform (fun s => .done { s with vis := [] } []) s

/-- GETVIS (43_debug.md R200): one byte per bucket. -/
def execGetvis (s : State) : Out :=
  perform (fun s => .done s ((List.range (visCount s.cfg)).map (fun k => tagByte (cellGet .none s.vis k)))) s

end Sys2Proof.Machine
end

