-- ==== Sys2Proof/Machine/Mapping.lean ====
section
/-!
DEFINITION. Slot wiring, bank-switch rules and the display selector (spec/42_mapping.md): SETSLOT, SETNOTPOP,
IOWRITE, SETDISPLAY.
-/

namespace Sys2Proof.Machine

/-- Wires bank `b` into slot `i` and marks it populated (42_mapping.md R161, R168). -/
def wireSlot (i : Nat) (b : Byte) (s : State) : State :=
  { s with slotBank := s.slotBank.set i b, slotPop := s.slotPop.set i true }

/-- SETSLOT (42_mapping.md R161, R162). -/
def execSetslot (i b : Byte) (s : State) : Out :=
  perform (fun s => guarded [checkSlot s.cfg i, checkBank s.cfg b] (.done (wireSlot i.toNat b s) [])) s

/-- SETNOTPOP (42_mapping.md R163, R164): the bank index is kept. -/
def execSetnotpop (i : Byte) (s : State) : Out :=
  perform (fun s =>
    guarded [checkSlot s.cfg i] (.done { s with slotPop := s.slotPop.set i.toNat false } [])) s

/-- A rule matches a write to port `p` (42_mapping.md R166). -/
def ruleMatches (r : BankRule) (p : Port) : Bool := decide (p &&& r.portMask = r.portMatch)

/-- The bank a matching rule wires for the written value (42_mapping.md R166). -/
def ruleBank (r : BankRule) (v : Byte) : Byte :=
  BitVec.ofNat 8
    (r.bankBase.toNat + r.bankScale.toNat * ((v.toNat >>> r.srcLsb.toNat) &&& (2 ^ r.srcWidth.toNat - 1)))

/-- The rule sets the lock for the written value (42_mapping.md R168). -/
def ruleLocks (r : BankRule) (v : Byte) : Bool := decide (r.lockBit ≠ 15#4) && v.getLsbD r.lockBit.toNat

/-- One rule of the interpreter's loop: it rewires its slot when it matches and names one (42_mapping.md R168). -/
def applyRule (p : Port) (v : Byte) (s : State) (r : BankRule) : State :=
  if ruleMatches r p ∧ r.slot ≠ 0xFF#8 then wireSlot r.slot.toNat (ruleBank r v) s else s

/-- The rules in list order, then the lock (42_mapping.md R168 to R170). -/
def runRules (p : Port) (v : Byte) (s : State) : State :=
  { s.cfg.rules.foldl (applyRule p v) s with
    lock := s.cfg.rules.any (fun r => ruleMatches r p && ruleLocks r v) }

/-- IOWRITE (42_mapping.md R168): ignored while the lock is set. -/
def execIowrite (p : Port) (v : Byte) (s : State) : Out :=
  perform (fun s => if s.lock then .done s [] else .done (runRules p v s) []) s

/-- SETDISPLAY (42_mapping.md R175). -/
def execSetdisplay (f : Byte) (s : State) : Out :=
  perform (fun s =>
    guarded [checkSelector s.cfg, checkFlag f] (.done { s with dispShadow := f.getLsbD 0 } [])) s

end Sys2Proof.Machine
end

