-- ==== Sys2Proof/Machine/Snapshot.lean ====
section
/-!
DEFINITION. The snapshot (spec/44_snapshot.md): SERIALIZE, DESERIALIZE, GETSERSIZE.
-/

namespace Sys2Proof.Machine

/-- The bytes of the whole store, flat offset 0 first. -/
def storeBytes (c : Config) (m : Memory) : List Byte := (List.range (storeSize c)).map (cellGet 0#8 m)

/-- The snapshot of a state: slot count, bank indexes, length of the store, store (44_snapshot.md R220, R222). -/
def snapshotOf (s : State) : List Byte :=
  BitVec.ofNat 8 s.cfg.slotCount ::
    (s.slotBank ++ toLe 4 (storeSize s.cfg) ++ storeBytes s.cfg s.store)

/-- The bank indexes a snapshot holds (44_snapshot.md R220). -/
def snapshotBanks (c : Config) (bytes : List Byte) : List Byte := (bytes.drop 1).take c.slotCount

/-- The length field a snapshot holds (44_snapshot.md R220). -/
def snapshotStoreLength (c : Config) (bytes : List Byte) : Nat := ofLe ((bytes.drop (1 + c.slotCount)).take 4)

/-- The store bytes a snapshot holds (44_snapshot.md R220). -/
def snapshotStore (c : Config) (bytes : List Byte) : List Byte := bytes.drop (5 + c.slotCount)

/-- The checks of 44_snapshot.md R224, in its order. -/
def snapshotChecks (c : Config) (bytes : List Byte) : List Check :=
  [ require (decide (5 + c.slotCount ≤ bytes.length)) .snapshotFormat,
    require (decide ((bytes.headD 0#8).toNat = c.slotCount)) .snapshotFormat,
    require ((snapshotBanks c bytes).all (fun b => decide (b.toNat < c.bankCount))) .snapshotFormat,
    require (decide (snapshotStoreLength c bytes = storeSize c)) .snapshotSize,
    require (decide (bytes.length = serSize c)) .snapshotFormat ]

/-- The state a snapshot restores: wiring, store, and visual memory cleared (44_snapshot.md R224). -/
def restore (s : State) (bytes : List Byte) : State :=
  { storePutRun s 0 (snapshotStore s.cfg bytes) with slotBank := snapshotBanks s.cfg bytes, vis := [] }

/-- SERIALIZE (44_snapshot.md R222). -/
def execSerialize (s : State) : Out := perform (fun s => .done s (snapshotOf s)) s

/-- DESERIALIZE (44_snapshot.md R224). -/
def execDeserialize (bytes : List Byte) (s : State) : Out :=
  perform (fun s => guarded (snapshotChecks s.cfg bytes) (.done (restore s bytes) [])) s

/-- GETSERSIZE (44_snapshot.md R226). -/
def execGetsersize (s : State) : Out := perform (fun s => .done s (toLe 4 (serSize s.cfg))) s

end Sys2Proof.Machine
end

