-- ==== Sys2Proof/Machine/Dispatch.lean ====
section
/-!
DEFINITION. One arm per operation (spec/30_encoding.md R85): each calls its meaning.
-/

namespace Sys2Proof.Machine

def exec (i : Instr) (s : State) : Host.Outcome State Fault Refusal :=
  match i with
  | .read8 a => Sys2Proof.Machine.execRead8 a s
  | .fetch8 a => Sys2Proof.Machine.execFetch8 a s
  | .write8 a v => Sys2Proof.Machine.execWrite8 a v s
  | .getmem8 a => Sys2Proof.Machine.execGetmem8 a s
  | .getmem16 a => Sys2Proof.Machine.execGetmem16 a s
  | .getmem32 a => Sys2Proof.Machine.execGetmem32 a s
  | .setmem8 a v => Sys2Proof.Machine.execSetmem8 a v s
  | .setmem16 a w => Sys2Proof.Machine.execSetmem16 a w s
  | .readblock a n => Sys2Proof.Machine.execReadblock a n s
  | .writeblock a bytes => Sys2Proof.Machine.execWriteblock a bytes s
  | .writebank b bytes => Sys2Proof.Machine.execWritebank b bytes s
  | .setslot k b => Sys2Proof.Machine.execSetslot k b s
  | .setnotpop k => Sys2Proof.Machine.execSetnotpop k s
  | .setwp a n c => Sys2Proof.Machine.execSetwp a n c s
  | .removewp a n c => Sys2Proof.Machine.execRemovewp a n c s
  | .clearhit => Sys2Proof.Machine.execClearhit s
  | .gethit => Sys2Proof.Machine.execGethit s
  | .serialize => Sys2Proof.Machine.execSerialize s
  | .deserialize bytes => Sys2Proof.Machine.execDeserialize bytes s
  | .getsersize => Sys2Proof.Machine.execGetsersize s
  | .clearvis => Sys2Proof.Machine.execClearvis s
  | .getvis => Sys2Proof.Machine.execGetvis s
  | .iowrite p v => Sys2Proof.Machine.execIowrite p v s
  | .setdisplay f => Sys2Proof.Machine.execSetdisplay f s

end Sys2Proof.Machine
end

