-- ==== Sys2Proof/Machine/RequestPort.lean ====
section
/-!
DEFINITION. Taking the next request off the port (spec/30_encoding.md R80, R84), and serving a reset event
(70_reset_and_hazards.md R270).
-/

namespace Sys2Proof.Machine

/-- What the ports hold for the next step: a request to run, or a step that is already an outcome. -/
inductive Taken where
  | run (i : Instr) (t : State)
  | answered (o : Out)

/-- A reset event: the block is built anew from the event's configuration; bytes of an unfinished request before it
are dropped unanswered, the event's own bytes and the later events stay (70 R270; log 7). -/
def serveReset (e : ResetEvent) (later : List ResetEvent) : State :=
  { State.resetWith e.config with requests := e.requests, pendingResets := later }

/-- No complete request on the port: a pending reset event is served; else, with nothing on the port, the block does
nothing (60_exceptions.md R256); else the bytes are no request and are refused (30_encoding.md R84). -/
def noRequestStep (s : State) : Out :=
  match s.pendingResets with
  | e :: later => .next (serveReset e later)
  | [] =>
    match s.requests with
    | [] => .next s
    | _ :: _ => .refused .truncatedRequest

/-- Takes one request off the port (30_encoding.md R80, R84); a reserved opcode is answered with ILLEGAL_OP (R87). -/
def takeRequest (s : State) : Taken :=
  match decode s.requests with
  | .request i rest => .run i { s with requests := rest }
  | .reserved _ rest => .answered (performReserved { s with requests := rest })
  | .truncated => .answered (noRequestStep s)
  | .noRequest => .answered (noRequestStep s)

end Sys2Proof.Machine
end

