-- ==== Sys2Proof/Machine/Step.lean ====
section
/-!
DEFINITION. One step: the next request, performed as one atomic operation (spec/20_memory.md R66), or what the
ports hold instead of one.
-/

namespace Sys2Proof.Machine

/-- One step of the block. -/
def step (s : State) : Host.Outcome State Fault Refusal :=
  match takeRequest s with
  | .run i t => exec i t
  | .answered o => o

/-- `s` with an opcode-table word as the next request on the port (log 5). -/
def State.withFetchWord (s : State) (nbits w : Nat) : State := { s with requests := tableBytes nbits w }

end Sys2Proof.Machine
end

