-- ==== Sys2Proof/Machine/Run.lean ====
section
/-!
DEFINITION. A run and the observation made of it (spec/70_reset_and_hazards.md R283). A run is the sequence of requests
from one reset, which the requester ends; its result is the sequence of responses and the state after the last one. The
block serves on in the fatal state, and the observation of a run that reaches it is refuted by a fault (log 9).
-/

namespace Sys2Proof.Machine

/-- The bytes are one request and no more, a reserved opcode being one (30_encoding.md R81, R84, R87). -/
def isOneRequest (bytes : List Byte) : Bool :=
  match decode bytes with
  | .request _ rest => rest.isEmpty
  | .reserved _ rest => rest.isEmpty
  | .truncated => false
  | .noRequest => false

/-- Bytes sent to the request port (30_encoding.md R80). -/
def State.sendRequest (s : State) (bytes : List Byte) : State := { s with requests := s.requests ++ bytes }

/-- The requests served one by one, each sent after the response to the one before it (70 R284). The fatal state is no
end: the block goes on answering (70 R283). -/
def serveAll : List (List Byte) → State → Out
  | [], s => .next s
  | r :: rs, s =>
    match step (s.sendRequest r) with
    | .next t => serveAll rs t
    | .fault f => .fault f
    | .refused f => .refused f

/-- The result of a run: the responses since the reset, and the state after the last of them (70 R283). -/
structure RunResult where
  responses : List (List Byte)
  after : State
  deriving DecidableEq, Repr

/-- What refutes the observation of a run. -/
inductive RunFault where
  /-- raised by observing a run that reaches the fatal state, with the code of its first fatal error (70 R283); safe -/
  | fatalReached (code : Byte)
  /-- raised where a step of the run faults, which no run from a reset does (20_memory.md R56; log 11); safe -/
  | stepFault (f : Fault)
  deriving DecidableEq, Repr

/-- What comes of observing a run: its result, the fault that refutes it, or the refusal of bytes that are no
request. -/
abbrev Observed := Host.Outcome RunResult RunFault Refusal

/-- The fatal state refutes the observation, whatever would be observed from there on (70 R283). -/
def unlessFatal (s : State) (o : Observed) : Observed :=
  if s.fatal then .fault (.fatalReached s.fatalCode) else o

/-- The observation of a run of the requests from `s` on; every state the run reaches is looked at (70 R283). -/
def observeFrom : List (List Byte) → State → Observed
  | [], s => unlessFatal s (.next { responses := s.responses, after := s })
  | r :: rs, s =>
    unlessFatal s
      (match step (s.sendRequest r) with
      | .next t => observeFrom rs t
      | .fault f => .fault (.stepFault f)
      | .refused f => .refused f)

/-- The observation of a run: the sequence of requests from one reset (70 R283). -/
def observe (c : Config) (requests : List (List Byte)) : Observed := observeFrom requests (State.resetWith c)

end Sys2Proof.Machine
end

