-- ==== Sys2Proof/Machine/Assembler.lean ====
section
/-!
DEFINITION. The text form of requests (spec/30_encoding.md R91) and the pseudo-operations loadRom, unmap and map
(R92). One line is a list of characters. What R91 leaves open of the text (white space, letters in hexadecimal,
numbers too wide for their field) is log 21.
-/

namespace Sys2Proof.Machine

/-- A line of assembler text, read. -/
inductive AsmLine where
  /-- nothing but white space and a comment -/
  | blank
  /-- the one request the line stands for -/
  | request (i : Instr)
  /-- the assembler refuses the line -/
  | refused
  deriving DecidableEq, Repr

/-- An operand as written. -/
inductive AsmArg where
  | num (n : Nat)
  | bytes (bs : List Byte)
  | word (w : List Char)
  deriving DecidableEq, Repr

/-- White space inside a line. -/
def isBlankChar (ch : Char) : Bool := ch == ' ' || ch == '\t'

/-- A text without white space at its two ends. -/
def trimChars (cs : List Char) : List Char :=
  ((cs.dropWhile isBlankChar).reverse.dropWhile isBlankChar).reverse

/-- The value of a hexadecimal digit. -/
def hexDigit (ch : Char) : Option Nat :=
  if '0' ≤ ch ∧ ch ≤ '9' then some (ch.toNat - '0'.toNat)
  else if 'a' ≤ ch ∧ ch ≤ 'f' then some (ch.toNat - 'a'.toNat + 10)
  else if 'A' ≤ ch ∧ ch ≤ 'F' then some (ch.toNat - 'A'.toNat + 10)
  else none

/-- Digits in base `base`, after the value `acc`. -/
def digitsFrom (base : Nat) : Nat → List Char → Option Nat
  | acc, [] => some acc
  | acc, ch :: cs =>
    match hexDigit ch with
    | some d => if d < base then digitsFrom base (acc * base + d) cs else none
    | none => none

/-- A number: `0x` and hexadecimal digits, or decimal digits (30_encoding.md R91). -/
def parseNumber : List Char → Option Nat
  | [] => none
  | '0' :: 'x' :: [] => none
  | '0' :: 'x' :: ds => digitsFrom 16 0 ds
  | ds => digitsFrom 10 0 ds

/-- Splits at the commas that stand outside brackets; `inside` says a bracket is open, `cur` is the piece so far,
reversed. -/
def splitCommas : Bool → List Char → List Char → List (List Char)
  | _, cur, [] => [trimChars cur.reverse]
  | inside, cur, ch :: cs =>
    if ch = ',' ∧ inside = false then trimChars cur.reverse :: splitCommas false [] cs
    else splitCommas (ch == '[' || (inside && ch != ']')) (ch :: cur) cs

/-- Every element of a list of optional values, or `none`. -/
def allSome {α : Type} : List (Option α) → Option (List α)
  | [] => some []
  | none :: _ => none
  | some x :: rest => (allSome rest).map (x :: ·)

/-- A byte value as written. -/
def parseByte (cs : List Char) : Option Byte :=
  match parseNumber cs with
  | some n => if n < 256 then some (BitVec.ofNat 8 n) else none
  | none => none

/-- A bracketed byte list (30_encoding.md R91); `cs` starts after the opening bracket. -/
def parsePayload (cs : List Char) : Option (List Byte) :=
  match cs.reverse with
  | ']' :: inner =>
    if trimChars inner.reverse = [] then some []
    else allSome ((splitCommas false [] inner.reverse).map parseByte)
  | _ => none

/-- One operand: a payload, a number, or a word. -/
def parseArg (cs : List Char) : Option AsmArg :=
  match cs with
  | [] => none
  | '[' :: rest => (parsePayload rest).map AsmArg.bytes
  | ch :: rest =>
    if '0' ≤ ch ∧ ch ≤ '9' then (parseNumber (ch :: rest)).map AsmArg.num else some (.word (ch :: rest))

/-- The access mask words `r`, `w`, `rw` (30_encoding.md R91). -/
def maskWord (w : List Char) : Option Byte :=
  if w = ['r'] then some 1#8 else if w = ['w'] then some 2#8 else if w = ['r', 'w'] then some 3#8 else none

/-- The display flag words `primary` and `shadow` (30_encoding.md R91). -/
def flagWord (w : List Char) : Option Byte :=
  if w = "primary".toList then some 0#8 else if w = "shadow".toList then some 1#8 else none

/-- A number as a field of `w` bits; refused when it does not fit. -/
def asField (w : Nat) (n : Nat) (k : BitVec w → AsmLine) : AsmLine :=
  if n < 2 ^ w then k (BitVec.ofNat w n) else .refused

/-- Operands of an operation of format `F_NONE`. -/
def asmNone (i : Instr) : List AsmArg → AsmLine
  | [] => .request i
  | _ => .refused

/-- Operands of an operation of format `F_A`. -/
def asmA (k : Addr → Instr) : List AsmArg → AsmLine
  | [.num a] => asField 16 a (fun a => .request (k a))
  | _ => .refused

/-- Operands of an operation of format `F_AV` or `F_PV`. -/
def asmAV (k : BitVec 16 → Byte → Instr) : List AsmArg → AsmLine
  | [.num a, .num v] => asField 16 a (fun a => asField 8 v (fun v => .request (k a v)))
  | _ => .refused

/-- Operands of an operation of format `F_AW`. -/
def asmAW (k : Addr → Half → Instr) : List AsmArg → AsmLine
  | [.num a, .num w] => asField 16 a (fun a => asField 16 w (fun w => .request (k a w)))
  | _ => .refused

/-- Operands of an operation of format `F_AN`. -/
def asmAN (k : Addr → Len24 → Instr) : List AsmArg → AsmLine
  | [.num a, .num n] => asField 16 a (fun a => asField 24 n (fun n => .request (k a n)))
  | _ => .refused

/-- Operands of an operation of format `F_ANC`. -/
def asmANC (k : Addr → Len24 → Byte → Instr) : List AsmArg → AsmLine
  | [.num a, .num n, .word w] =>
    match maskWord w with
    | some c => asField 16 a (fun a => asField 24 n (fun n => .request (k a n c)))
    | none => .refused
  | _ => .refused

/-- A request that can be sent (its payload fits its length field), else refused. -/
def sendable (i : Instr) : AsmLine := if i.wf then .request i else .refused

/-- Operands of an operation of format `F_ANP`. -/
def asmANP (k : Addr → List Byte → Instr) : List AsmArg → AsmLine
  | [.num a, .bytes bs] => asField 16 a (fun a => sendable (k a bs))
  | _ => .refused

/-- Operands of an operation of format `F_BNP`. -/
def asmBNP (k : Byte → List Byte → Instr) : List AsmArg → AsmLine
  | [.num b, .bytes bs] => asField 8 b (fun b => sendable (k b bs))
  | _ => .refused

/-- Operands of an operation of format `F_LP`. -/
def asmLP (k : List Byte → Instr) : List AsmArg → AsmLine
  | [.bytes bs] => sendable (k bs)
  | _ => .refused

/-- Operands of an operation of format `F_SB`. -/
def asmSB (k : Byte → Byte → Instr) : List AsmArg → AsmLine
  | [.num i, .num b] => asField 8 i (fun i => asField 8 b (fun b => .request (k i b)))
  | _ => .refused

/-- Operands of an operation of format `F_S`. -/
def asmS (k : Byte → Instr) : List AsmArg → AsmLine
  | [.num i] => asField 8 i (fun i => .request (k i))
  | _ => .refused

/-- Operands of an operation of format `F_F`. -/
def asmF (k : Byte → Instr) : List AsmArg → AsmLine
  | [.word w] =>
    match flagWord w with
    | some f => .request (k f)
    | none => .refused
  | _ => .refused

/-- `unmap s` expands to `setAsNotPopulatedSlot s` (30_encoding.md R92). -/
def pseudoUnmap (i : Byte) : Instr := .setnotpop i

/-- `map s, b` expands to `setSlot s, b` (30_encoding.md R92). -/
def pseudoMap (i b : Byte) : Instr := .setslot i b

/-- `loadRom b, image, off` expands to `writeBank b, image[off .. off + BANK_SIZE - 1]`, and is refused when the
slice does not exist (30_encoding.md R92). -/
def pseudoLoadRom (c : Config) (b : Byte) (image : List Byte) (off : Nat) : AsmLine :=
  if image.length < off + bankSize c then .refused
  else .request (.writebank b ((image.drop off).take (bankSize c)))

/-- Operands of `loadRom`; the image is named, and `images` holds the bytes of each name. -/
def asmLoadRom (c : Config) (images : List (List Char × List Byte)) : List AsmArg → AsmLine
  | [.num b, .word w, .num off] =>
    match images.find? (fun p => p.1 == w) with
    | some p => asField 8 b (fun b => pseudoLoadRom c b p.2 off)
    | none => .refused
  | _ => .refused

/-- What an operation's name does with its operands (30_encoding.md R91, R92). -/
def asmOperation (c : Config) (images : List (List Char × List Byte)) (name : List Char)
    (args : List AsmArg) : AsmLine :=
  let table : List (String × (List AsmArg → AsmLine)) :=
    [("read8", asmA .read8), ("fetch8", asmA .fetch8), ("write8", asmAV .write8),
     ("getMemory8", asmA .getmem8), ("getMemory16", asmA .getmem16), ("getMemory32", asmA .getmem32),
     ("setMemory8", asmAV .setmem8), ("setMemory16", asmAW .setmem16),
     ("readBlock", asmAN .readblock), ("writeBlock", asmANP .writeblock), ("writeBank", asmBNP .writebank),
     ("setSlot", asmSB .setslot), ("setAsNotPopulatedSlot", asmS .setnotpop),
     ("setWatchpoint", asmANC .setwp), ("removeWatchpoint", asmANC .removewp),
     ("clearHit", asmNone .clearhit), ("getHit", asmNone .gethit),
     ("serialize", asmNone .serialize), ("deserialize", asmLP .deserialize),
     ("getSerializedSize", asmNone .getsersize),
     ("clearVisualMemory", asmNone .clearvis), ("getVisualMemory", asmNone .getvis),
     ("ioWrite", asmAV .iowrite), ("setDisplayBank", asmF .setdisplay),
     ("loadRom", asmLoadRom c images), ("unmap", asmS pseudoUnmap), ("map", asmSB pseudoMap)]
  match table.find? (fun p => p.1.toList == name) with
  | some p => p.2 args
  | none => .refused

/-- One line of request text (30_encoding.md R91): an operation's name, then its operands separated by commas; a
comment starts with `;`. -/
def assembleLine (c : Config) (images : List (List Char × List Byte)) (line : List Char) : AsmLine :=
  let text := trimChars (line.takeWhile (fun ch => ch != ';'))
  let name := text.takeWhile (fun ch => !isBlankChar ch)
  let operands := trimChars (text.drop name.length)
  if text = [] then .blank
  else if operands = [] then asmOperation c images name []
  else
    match allSome ((splitCommas false [] operands).map parseArg) with
    | some args => asmOperation c images name args
    | none => .refused

end Sys2Proof.Machine
end

