-- ==== Sys2Proof/Safety.lean ====
section
/-!
DEFINITION. The terms claims are stated in: what a CPU address shows and where a write to it lands
(spec/20_memory.md R54 to R60), the invariant of the block (10_state.md R23, R33, R39), and a live block, one that has
met no fatal error. A run that reaches the fatal state refutes any observation made of it (70_reset_and_hazards.md
R283; Machine/Run.lean), so claims about an operation's effect are made of live states.
-/

namespace Sys2Proof.Machine

/-- One byte of the flat store (20_memory.md R57). -/
def storeByte (s : State) (off : Nat) : Byte := cellGet 0#8 s.store off

/-- The bank wired at an address (20_memory.md R54). -/
def wiredBank (s : State) (a : Addr) : Byte := s.slotBank.getD (slotOf s.cfg a) 0#8

/-- The slot of an address is populated (10_state.md R24). -/
def populatedAt (s : State) (a : Addr) : Bool := s.slotPop.getD (slotOf s.cfg a) false

/-- The flat offset of an address (20_memory.md R54). -/
def flatOf (s : State) (a : Addr) : Nat := flatOffset s.cfg (wiredBank s a) (bankOffset s.cfg a)

/-- What a CPU address shows (20_memory.md R58). -/
def peek (s : State) (a : Addr) : Byte := if populatedAt s a then storeByte s (flatOf s a) else 0xFF#8

/-- What `n` consecutive CPU addresses show, wrapping at 0xFFFF (20_memory.md R60). -/
def peekBytes (s : State) (a : Addr) (n : Nat) : List Byte :=
  (List.range n).map (fun i => peek s (a + BitVec.ofNat 16 i))

/-- A write to the address lands: its slot is populated and its bank is not ROM (20_memory.md R59). -/
def landsAt (s : State) (a : Addr) : Bool :=
  populatedAt s a && !(s.romBank.getD (wiredBank s a).toNat false)

/-- The parts of the invariant that every state has, the dead ones among them. -/
structure Tidy (s : State) : Prop where
  /-- the store is in canonical form -/
  storeWf : Memory.wf s.store
  wpRWf : cellsWf 0 s.wpR
  wpWWf : cellsWf 0 s.wpW
  /-- only CPU addresses are watched (10_state.md R28) -/
  wpRAddrs : ∀ p ∈ s.wpR, p.1 < 0x10000
  wpWAddrs : ∀ p ∈ s.wpW, p.1 < 0x10000
  visWf : cellsWf VisTag.none s.vis
  /-- the unset latch has one value (10_state.md R33) -/
  hitUnset : s.hitValid = false → s.hitAddr = 0#16 ∧ s.hitAccess = .read
  /-- no code without a fatal error (10_state.md R39) -/
  noCode : s.fatal = false → s.fatalCode = 0#8

/-- The parts of the invariant that hold from a successful reset on. -/
structure Wired (s : State) : Prop where
  /-- the configuration passed validation (70 R271) -/
  cfgValid : validate s.cfg = none
  bankLength : s.slotBank.length = s.cfg.slotCount
  /-- 10_state.md R23 -/
  banksExist : ∀ b ∈ s.slotBank, b.toNat < s.cfg.bankCount
  popLength : s.slotPop.length = s.cfg.slotCount
  /-- the ROM flags are the configuration's (10_state.md R26, R27) -/
  romFlags : s.romBank = bootRomBank s.cfg
  /-- every listed byte is a byte of the store (10_state.md R20) -/
  storeBound : ∀ p ∈ s.store, p.1 < storeSize s.cfg
  /-- every counter fits its width (10_state.md R28) -/
  wpRBound : ∀ p ∈ s.wpR, p.2 ≤ wpMax s.cfg
  wpWBound : ∀ p ∈ s.wpW, p.2 ≤ wpMax s.cfg
  /-- only buckets that exist are tagged (10_state.md R30) -/
  visBound : ∀ p ∈ s.vis, p.1 < visCount s.cfg
  /-- the selector's bit is there only with the selector (10_state.md R36) -/
  noSelector : s.cfg.hasDisplaySelect = false → s.dispShadow = false
  /-- a fatal error met at run time has a run-time code (60_exceptions.md R242) -/
  codeOfRun : s.fatal = true → s.fatalCode ∈ runtimeCodes

/-- The state after a reset that failed (70 R272): dead with a reset code. -/
def DeadAtReset (s : State) : Prop := s.fatal = true ∧ s.fatalCode ∈ resetCodes

/-- The invariant of the block. -/
def Inv (s : State) : Prop := Tidy s ∧ (Wired s ∨ DeadAtReset s)

/-- A block that meets the invariant and has met no fatal error. -/
def Live (s : State) : Prop := Inv s ∧ s.fatal = false

/-- The bytes are a request for `i`, whatever follows them on the port (spec/30_encoding.md R81). -/
def SentAs (bytes : List Byte) (i : Instr) : Prop := ∀ rest, decode (bytes ++ rest) = .request i rest

/-- The two bytes of a 16-bit field, low byte first (30_encoding.md R83). -/
def le16Bytes (w : BitVec 16) : List Byte := [w.extractLsb' 0 8, w.extractLsb' 8 8]

/-- The three bytes of a 24-bit field, low byte first (30_encoding.md R83). -/
def le24Bytes (w : BitVec 24) : List Byte := [w.extractLsb' 0 8, w.extractLsb' 8 8, w.extractLsb' 16 8]

/-- The four bytes of a 32-bit field, low byte first (30_encoding.md R83). -/
def le32Bytes (w : BitVec 32) : List Byte :=
  [w.extractLsb' 0 8, w.extractLsb' 8 8, w.extractLsb' 16 8, w.extractLsb' 24 8]

/-- The state in which a request that raises the fatal error with code `code` leaves the block: FATAL, its code, the
one response byte, and nothing else changed (60_exceptions.md R241). -/
def diedWith (s : State) (code : Byte) : State :=
  { s with fatal := true, fatalCode := code, responses := s.responses ++ [[0x80#8 ||| code]] }

/-- `x` is an address of `[a, a + n)`, counted mod 2^16 (43_debug.md R190). -/
def InWrap (a : Addr) (n x : Nat) : Prop := ∃ i < n, x = (a.toNat + i) % 0x10000

end Sys2Proof.Machine
end

