-- ==== Sys2Proof/Certificates/Slice0/Obligations.lean ====
section
/-!
DEFINITION. The statements for the provers. Each docstring names the rule of spec/ it formalises. `Live s` is the
invariant with no fatal error met (Safety.lean); `Inv s` is the invariant alone.
-/

open Sys2Proof Sys2Proof.Machine

/-! ### Requests on the port -/

/-- A step performs the request the decoder finds at the front of the port, with the bytes after it left there
(30_encoding.md R80, 20_memory.md R66). Nothing else is added around exec. -/
def Obligations.StepRunsDecodedRequest : Prop :=
  ∀ (s : State) (i : Instr) (rest : List Byte), decode s.requests = .request i rest →
    step s = exec i { s with requests := rest }

/-- Request bytes of the spec's own examples decode to the operations they stand for (95_test_vectors.md AC1, AC3,
AC12, BL1, BL6, MP1, MP11, MP21, DB1, DB13, SN7). -/
def Obligations.SpecRequestBytesDecode : Prop :=
  decode [0x01#8, 0x00#8, 0x00#8] = .request (.read8 0x0000#16) [] ∧
  decode [0x03#8, 0x00#8, 0x00#8, 0x99#8] = .request (.write8 0x0000#16 0x99#8) [] ∧
  decode [0x08#8, 0xFF#8, 0x7F#8, 0x34#8, 0x12#8] = .request (.setmem16 0x7FFF#16 0x1234#16) [] ∧
  decode [0x09#8, 0xFF#8, 0xFF#8, 0x02#8, 0x00#8, 0x00#8] = .request (.readblock 0xFFFF#16 2#24) [] ∧
  decode [0x0A#8, 0xFE#8, 0x3F#8, 0x03#8, 0x00#8, 0x00#8, 0xAA#8, 0xBB#8, 0xCC#8]
    = .request (.writeblock 0x3FFE#16 [0xAA#8, 0xBB#8, 0xCC#8]) [] ∧
  decode [0x0C#8, 0x03#8, 0x01#8] = .request (.setslot 3#8 1#8) [] ∧
  decode [0x17#8, 0xFD#8, 0x7F#8, 0x03#8] = .request (.iowrite 0x7FFD#16 0x03#8) [] ∧
  decode [0x18#8, 0x01#8] = .request (.setdisplay 1#8) [] ∧
  decode [0x0E#8, 0x00#8, 0x40#8, 0x02#8, 0x00#8, 0x00#8, 0x01#8] = .request (.setwp 0x4000#16 2#24 1#8) [] ∧
  decode [0x11#8] = .request .gethit [] ∧
  decode [0x13#8, 0x03#8, 0x00#8, 0x00#8, 0x00#8, 0x04#8, 0x00#8, 0x01#8]
    = .request (.deserialize [0x04#8, 0x00#8, 0x01#8]) []

/-- Decoding an encoded well-formed request gives it back, with every operand at every value, and leaves exactly
the bytes that follow it (30_encoding.md R81 to R86). -/
def Obligations.DecodeOfEncode : Prop :=
  ∀ (i : Instr) (rest : List Byte), i.wf = true → decode (encode i ++ rest) = .request i rest

/-- Each request has one form on the wire: bytes that decode to a request are its encoding followed by the rest, and
the request is well formed (30_encoding.md R81, R84, R86). -/
def Obligations.DecodedRequestsAreEncodings : Prop :=
  ∀ (bytes rest : List Byte) (i : Instr), decode bytes = .request i rest → bytes = encode i ++ rest ∧ i.wf = true

/-- 30_encoding.md R87: a reserved opcode is a one-byte request that raises ILLEGAL_OP, and SETDISPLAY without the
selector raises it too. No other opcode is reserved. -/
def Obligations.ReservedOpcodesRaiseIllegalOp : Prop :=
  (∀ (s : State) (op : Byte) (rest : List Byte), Live s → s.requests = op :: rest →
    (op = 0x00#8 ∨ 0x19 ≤ op.toNat) → step s = .next (diedWith { s with requests := rest } 0x01#8)) ∧
  (∀ (s : State) (f : Byte), Live s → s.cfg.hasDisplaySelect = false →
    exec (.setdisplay f) s = .next (diedWith s 0x01#8)) ∧
  (∀ (op r : Byte) (bytes rest : List Byte), 0x01 ≤ op.toNat → op.toNat ≤ 0x18 →
    decode (op :: bytes) ≠ .reserved r rest)

/-- 30_encoding.md R84: bytes that end inside a request are no request; with no reset event pending, the step refuses
them by name, and nothing is performed. -/
def Obligations.TruncatedRequestsRefused : Prop :=
  ∀ (s : State) (i : Instr) (k : Nat), i.wf = true → 0 < k → k < (encode i).length →
    s.requests = (encode i).take k → s.pendingResets = [] → step s = .refused .truncatedRequest

/-- With nothing on its ports the block does nothing (60_exceptions.md R256; the idle step is the model's choice,
log 5). -/
def Obligations.IdleBlockDoesNothing : Prop :=
  ∀ s : State, s.requests = [] → s.pendingResets = [] → step s = .next s

/-- A reset event builds the block anew from its configuration when no complete request is left before it, whatever
state the block is in; bytes of an unfinished request are dropped unanswered (70_reset_and_hazards.md R270; the order
of the events is the model's choice, log 7). -/
def Obligations.ResetEventRebuildsBlock : Prop :=
  ∀ (s : State) (e : ResetEvent) (later : List ResetEvent),
    (decode s.requests = .noRequest ∨ decode s.requests = .truncated) → s.pendingResets = e :: later →
    step s = .next { State.resetWith e.config with requests := e.requests, pendingResets := later }

/-! ### CPU accesses (40_access.md) -/

/-- What READ8 and FETCH8 leave (40_access.md R110 to R116): the tag of the address's bucket, the hit latch set by a
watched read while it was unset, the byte as the answer, and nothing else changed. -/
def Obligations.CpuReadsAnswerAndBook : Prop :=
  ∀ (s : State) (a : Addr), Live s →
    let hit := s.hitValid = false ∧ 0 < cellGet 0 s.wpR a.toNat
    let booked := fun (t : State) (cls : VisTag) =>
      (∀ k, cellGet .none t.vis k = if k = a.toNat / 2 ^ s.cfg.visualShift then cls else cellGet .none s.vis k) ∧
      (hit → t.hitValid = true ∧ t.hitAddr = a ∧ t.hitAccess = .read) ∧
      (¬ hit → t.hitValid = s.hitValid ∧ t.hitAddr = s.hitAddr ∧ t.hitAccess = s.hitAccess) ∧
      t = { s with hitValid := t.hitValid, hitAddr := t.hitAddr, hitAccess := t.hitAccess, vis := t.vis,
                   responses := s.responses ++ [[0x00#8, peek s a]] }
    SentAs (0x01#8 :: le16Bytes a) (.read8 a) ∧ SentAs (0x02#8 :: le16Bytes a) (.fetch8 a) ∧
    (∃ t, exec (.read8 a) s = .next t ∧ booked t .read) ∧
    (∃ t, exec (.fetch8 a) s = .next t ∧ booked t .fetch)

/-- What WRITE8 leaves (40_access.md R110, R118, R119; 20_memory.md R59): the bookkeeping in every case; the byte in
the store at the address's flat offset exactly when the slot is populated and the bank is not ROM; nothing else. -/
def Obligations.Write8LandsAndBooks : Prop :=
  ∀ (s : State) (a : Addr) (v : Byte), Live s →
    let hit := s.hitValid = false ∧ 0 < cellGet 0 s.wpW a.toNat
    SentAs (0x03#8 :: le16Bytes a ++ [v]) (.write8 a v) ∧
    ∃ t, exec (.write8 a v) s = .next t ∧
      (∀ k, cellGet .none t.vis k
        = if k = a.toNat / 2 ^ s.cfg.visualShift then .write else cellGet .none s.vis k) ∧
      (hit → t.hitValid = true ∧ t.hitAddr = a ∧ t.hitAccess = .write) ∧
      (¬ hit → t.hitValid = s.hitValid ∧ t.hitAddr = s.hitAddr ∧ t.hitAccess = s.hitAccess) ∧
      (∀ off, storeByte t off = if landsAt s a = true ∧ off = flatOf s a then v else storeByte s off) ∧
      t = { s with hitValid := t.hitValid, hitAddr := t.hitAddr, hitAccess := t.hitAccess, vis := t.vis,
                   store := t.store, responses := s.responses ++ [[0x00#8]] }

/-- GETMEM8, GETMEM16 and GETMEM32 answer what the addresses show, lowest address first, each byte through its own
slot, wrapping at 0xFFFF, and change no state (40_access.md R121, R122, R125, R128; 20_memory.md R62). -/
def Obligations.GetMemoryAnswersLittleEndian : Prop :=
  ∀ (s : State) (a : Addr), Live s →
    let answers := fun (i : Instr) (bytes : List Byte) =>
      exec i s = .next { s with responses := s.responses ++ [0x00#8 :: bytes] }
    SentAs (0x04#8 :: le16Bytes a) (.getmem8 a) ∧ SentAs (0x05#8 :: le16Bytes a) (.getmem16 a) ∧
    SentAs (0x06#8 :: le16Bytes a) (.getmem32 a) ∧
    answers (.getmem8 a) [peek s a] ∧
    answers (.getmem16 a) [peek s a, peek s (a + 1#16)] ∧
    answers (.getmem32 a) [peek s a, peek s (a + 1#16), peek s (a + 2#16), peek s (a + 3#16)]

/-- 40_access.md R126: multi-byte reads of unpopulated addresses are all ones, and where only some of the bytes lie in
an unpopulated slot exactly those are 0xFF and the others come from their banks. -/
def Obligations.UnpopulatedBytesReadAllOnes : Prop :=
  ∀ (s : State) (a : Addr), Live s →
    (populatedAt s a = false → populatedAt s (a + 1#16) = false →
      exec (.getmem16 a) s = .next { s with responses := s.responses ++ [0x00#8 :: le16Bytes 0xFFFF#16] }) ∧
    (populatedAt s a = false → populatedAt s (a + 1#16) = false → populatedAt s (a + 2#16) = false →
      populatedAt s (a + 3#16) = false →
      exec (.getmem32 a) s = .next { s with responses := s.responses ++ [0x00#8 :: le32Bytes 0xFFFFFFFF#32] }) ∧
    (∃ t r, exec (.getmem16 a) s = .next t ∧ t.responses = s.responses ++ [0x00#8 :: r] ∧ r.length = 2 ∧
      ∀ i < 2, r.getD i 0#8 = if populatedAt s (a + BitVec.ofNat 16 i) = true
        then storeByte s (flatOf s (a + BitVec.ofNat 16 i)) else 0xFF#8) ∧
    (∃ t r, exec (.getmem32 a) s = .next t ∧ t.responses = s.responses ++ [0x00#8 :: r] ∧ r.length = 4 ∧
      ∀ i < 4, r.getD i 0#8 = if populatedAt s (a + BitVec.ofNat 16 i) = true
        then storeByte s (flatOf s (a + BitVec.ofNat 16 i)) else 0xFF#8)

/-- SETMEM8 and SETMEM16 write by the rule of WRITE8, each byte by its own slot, and change nothing but the store
(40_access.md R121, R131, R134, R135). Where both bytes of SETMEM16 go to one flat offset the higher address wins. -/
def Obligations.SetMemoryWritesBytewise : Prop :=
  ∀ (s : State) (a : Addr), Live s →
    (∀ v : Byte, SentAs (0x07#8 :: le16Bytes a ++ [v]) (.setmem8 a v) ∧
      ∃ t, exec (.setmem8 a v) s = .next t ∧
        (∀ off, storeByte t off = if landsAt s a = true ∧ off = flatOf s a then v else storeByte s off) ∧
        t = { s with store := t.store, responses := s.responses ++ [[0x00#8]] }) ∧
    (∀ w : Half, SentAs (0x08#8 :: le16Bytes a ++ le16Bytes w) (.setmem16 a w) ∧
      ∃ t, exec (.setmem16 a w) s = .next t ∧
        (∀ off, storeByte t off =
          if landsAt s (a + 1#16) = true ∧ off = flatOf s (a + 1#16) then w.extractLsb' 8 8
          else if landsAt s a = true ∧ off = flatOf s a then w.extractLsb' 0 8
          else storeByte s off) ∧
        t = { s with store := t.store, responses := s.responses ++ [[0x00#8]] })

/-! ### Block transfers (41_block.md) -/

/-- READBLOCK answers what each address of the range shows, wrapping at 0xFFFF, and changes no state; a length above
0x10000 raises BAD_OPERAND (41_block.md R140, R141). -/
def Obligations.ReadBlockAnswersEachAddress : Prop :=
  ∀ (s : State) (a : Addr) (n : Len24), Live s →
    SentAs (0x09#8 :: le16Bytes a ++ le24Bytes n) (.readblock a n) ∧
    (n.toNat ≤ 0x10000 → ∃ bytes, exec (.readblock a n) s
        = .next { s with responses := s.responses ++ [0x00#8 :: bytes] } ∧
      bytes.length = n.toNat ∧ ∀ i < n.toNat, bytes.getD i 0#8 = peek s (a + BitVec.ofNat 16 i)) ∧
    (0x10000 < n.toNat → exec (.readblock a n) s = .next (diedWith s 0x02#8))

/-- WRITEBLOCK (41_block.md R143 to R145): at every flat offset the store keeps the byte of the last address of the
range that lands there; an offset where none lands is unchanged; nothing but the store changes; a length above 0x10000
raises BAD_OPERAND. -/
def Obligations.WriteBlockKeepsLastByte : Prop :=
  ∀ (s : State) (a : Addr) (bytes : List Byte), Live s →
    let at' := fun i : Nat => a + BitVec.ofNat 16 i
    (bytes.length < 2 ^ 24 →
      SentAs (0x0A#8 :: le16Bytes a ++ le24Bytes (BitVec.ofNat 24 bytes.length) ++ bytes) (.writeblock a bytes)) ∧
    (bytes.length ≤ 0x10000 → ∃ t, exec (.writeblock a bytes) s = .next t ∧
      (∀ i < bytes.length, landsAt s (at' i) = true →
        (∀ j, i < j → j < bytes.length → landsAt s (at' j) = true → flatOf s (at' j) ≠ flatOf s (at' i)) →
        storeByte t (flatOf s (at' i)) = bytes.getD i 0#8) ∧
      (∀ off, (∀ i < bytes.length, landsAt s (at' i) = true → flatOf s (at' i) ≠ off) →
        storeByte t off = storeByte s off) ∧
      t = { s with store := t.store, responses := s.responses ++ [[0x00#8]] }) ∧
    (0x10000 < bytes.length → exec (.writeblock a bytes) s = .next (diedWith s 0x02#8))

/-- WRITEBANK (41_block.md R146 to R148): the whole bank is replaced, ROM or not, wired or not, and no other byte
changes; a bank that does not exist raises BAD_BANK, else a wrong length raises BANK_LENGTH, and then no byte is
written. -/
def Obligations.WriteBankReplacesBank : Prop :=
  ∀ (s : State) (b : Byte) (bytes : List Byte), Live s →
    (bytes.length < 2 ^ 24 →
      SentAs (0x0B#8 :: b :: le24Bytes (BitVec.ofNat 24 bytes.length) ++ bytes) (.writebank b bytes)) ∧
    (b.toNat < s.cfg.bankCount → bytes.length = bankSize s.cfg → ∃ t, exec (.writebank b bytes) s = .next t ∧
      (∀ (b' : Byte) (off : Nat), off < bankSize s.cfg →
        storeByte t (b'.toNat * bankSize s.cfg + off)
          = if b' = b then bytes.getD off 0#8 else storeByte s (b'.toNat * bankSize s.cfg + off)) ∧
      t = { s with store := t.store, responses := s.responses ++ [[0x00#8]] }) ∧
    (s.cfg.bankCount ≤ b.toNat → exec (.writebank b bytes) s = .next (diedWith s 0x04#8)) ∧
    (b.toNat < s.cfg.bankCount → bytes.length ≠ bankSize s.cfg →
      exec (.writebank b bytes) s = .next (diedWith s 0x05#8))

/-! ### Wiring, rules, display (42_mapping.md) -/

/-- SETSLOT (42_mapping.md R160 to R162): the slot holds the bank and is populated, locked or not; the other slots, the
store and everything else are unchanged; the next access of every address of the slot goes to that bank. BAD_SLOT, else
BAD_BANK, for operands out of range. -/
def Obligations.SetSlotWiresAndPopulates : Prop :=
  ∀ (s : State) (i b : Byte), Live s →
    SentAs [0x0C#8, i, b] (.setslot i b) ∧
    (i.toNat < s.cfg.slotCount → b.toNat < s.cfg.bankCount → ∃ t, exec (.setslot i b) s = .next t ∧
      (∀ j, t.slotBank[j]? = if j = i.toNat then some b else s.slotBank[j]?) ∧
      (∀ j, t.slotPop[j]? = if j = i.toNat then some true else s.slotPop[j]?) ∧
      (∀ a : Addr, a.toNat / bankSize s.cfg = i.toNat →
        peek t a = storeByte s (b.toNat * bankSize s.cfg + a.toNat % bankSize s.cfg)) ∧
      (∀ a : Addr, a.toNat / bankSize s.cfg ≠ i.toNat → peek t a = peek s a) ∧
      t = { s with slotBank := t.slotBank, slotPop := t.slotPop, responses := s.responses ++ [[0x00#8]] }) ∧
    (s.cfg.slotCount ≤ i.toNat → exec (.setslot i b) s = .next (diedWith s 0x03#8)) ∧
    (i.toNat < s.cfg.slotCount → s.cfg.bankCount ≤ b.toNat → exec (.setslot i b) s = .next (diedWith s 0x04#8))

/-- SETNOTPOP (42_mapping.md R163, R164): the slot's populated bit is cleared and its bank index kept; every address of
the slot then shows 0xFF and no write to it lands; the store and everything else are unchanged. BAD_SLOT for a slot out
of range. -/
def Obligations.SetNotPopHidesSlot : Prop :=
  ∀ (s : State) (i : Byte), Live s →
    SentAs [0x0D#8, i] (.setnotpop i) ∧
    (i.toNat < s.cfg.slotCount → ∃ t, exec (.setnotpop i) s = .next t ∧
      (∀ j, t.slotPop[j]? = if j = i.toNat then some false else s.slotPop[j]?) ∧
      (∀ a : Addr, a.toNat / bankSize s.cfg = i.toNat → peek t a = 0xFF#8 ∧ landsAt t a = false) ∧
      (∀ a : Addr, a.toNat / bankSize s.cfg ≠ i.toNat → peek t a = peek s a ∧ landsAt t a = landsAt s a) ∧
      t = { s with slotPop := t.slotPop, responses := s.responses ++ [[0x00#8]] }) ∧
    (s.cfg.slotCount ≤ i.toNat → exec (.setnotpop i) s = .next (diedWith s 0x03#8))

/-- IOWRITE (42_mapping.md R166, R168 to R170). While the lock is set nothing happens. While it is clear: for every slot,
the last matching rule in list order that names it decides its bank, from the written value, and populates it; a slot
that no matching rule names is unchanged; the lock becomes the disjunction of the matching rules' lock bits; nothing
else changes. -/
def Obligations.IoWriteAppliesMatchingRules : Prop :=
  ∀ (s : State) (p : Port) (v : Byte), Live s →
    let applies := fun (j : Nat) (r : BankRule) =>
      p &&& r.portMask = r.portMatch ∧ r.slot ≠ 0xFF#8 ∧ r.slot.toNat = j
    SentAs (0x17#8 :: le16Bytes p ++ [v]) (.iowrite p v) ∧
    (s.lock = true → exec (.iowrite p v) s = .next { s with responses := s.responses ++ [[0x00#8]] }) ∧
    (s.lock = false → ∃ t, exec (.iowrite p v) s = .next t ∧
      (∀ (pre post : List BankRule) (r : BankRule) (j : Nat), s.cfg.rules = pre ++ r :: post → applies j r →
        (∀ q ∈ post, ¬ applies j q) →
        t.slotPop[j]? = some true ∧ ∃ b, t.slotBank[j]? = some b ∧
          b.toNat = r.bankBase.toNat
            + r.bankScale.toNat * ((v.toNat / 2 ^ r.srcLsb.toNat) % 2 ^ r.srcWidth.toNat)) ∧
      (∀ j, (∀ r ∈ s.cfg.rules, ¬ applies j r) →
        t.slotBank[j]? = s.slotBank[j]? ∧ t.slotPop[j]? = s.slotPop[j]?) ∧
      (t.lock = true ↔ ∃ r ∈ s.cfg.rules, p &&& r.portMask = r.portMatch ∧ r.lockBit ≠ 15#4 ∧
        v.getLsbD r.lockBit.toNat = true) ∧
      t = { s with slotBank := t.slotBank, slotPop := t.slotPop, lock := t.lock,
                   responses := s.responses ++ [[0x00#8]] })

/-- 42_mapping.md R171: an IOWRITE whose port matches no rule is answered and has no effect at all, and no IOWRITE has an
effect on any state but the wiring, the populated bits and the lock. -/
def Obligations.IoWriteUnmatchedDoesNothing : Prop :=
  ∀ (s : State) (p : Port) (v : Byte), Live s →
    ((∀ r ∈ s.cfg.rules, p &&& r.portMask ≠ r.portMatch) →
      exec (.iowrite p v) s = .next { s with responses := s.responses ++ [[0x00#8]] }) ∧
    (∃ t, exec (.iowrite p v) s = .next t ∧
      t = { s with slotBank := t.slotBank, slotPop := t.slotPop, lock := t.lock,
                   responses := s.responses ++ [[0x00#8]] })

/-- SETDISPLAY (42_mapping.md R175; 10_state.md R36). With the selector, bit 0 chooses the bank of the output
DISPLAY_BANK, whatever the lock, and nothing else changes; a reserved bit raises BAD_OPERAND. Without the selector it
raises ILLEGAL_OP. -/
def Obligations.SetDisplaySelectsBank : Prop :=
  ∀ (s : State) (f : Byte), Live s →
    SentAs [0x18#8, f] (.setdisplay f) ∧
    (s.cfg.hasDisplaySelect = true → f = 0#8 ∨ f = 1#8 → ∃ t, exec (.setdisplay f) s = .next t ∧
      displayBank t = some (if f = 1#8 then s.cfg.displayShadowBank else s.cfg.displayPrimaryBank) ∧
      t = { s with dispShadow := decide (f = 1#8), responses := s.responses ++ [[0x00#8]] }) ∧
    (s.cfg.hasDisplaySelect = true → ¬ (f = 0#8 ∨ f = 1#8) →
      exec (.setdisplay f) s = .next (diedWith s 0x02#8)) ∧
    (s.cfg.hasDisplaySelect = false → exec (.setdisplay f) s = .next (diedWith s 0x01#8))

/-! ### Watchpoints, hit latch, visual memory (43_debug.md) -/

/-- SETWP (43_debug.md R190, R191): with a legal mask and size and no selected counter of the range at WP_MAX, every
selected counter of the range goes up by one and no other changes; a full counter raises WP_OVERFLOW and changes none;
a reserved mask bit or a size above 0x10000 raises BAD_OPERAND. -/
def Obligations.SetWatchpointCounts : Prop :=
  ∀ (s : State) (a : Addr) (n : Len24) (c : Byte), Live s →
    let legal := c.toNat < 4 ∧ n.toNat ≤ 0x10000
    let full := ∃ x, InWrap a n.toNat x ∧
      (c.getLsbD 0 = true ∧ cellGet 0 s.wpR x = 2 ^ s.cfg.wpCntW - 1 ∨
        c.getLsbD 1 = true ∧ cellGet 0 s.wpW x = 2 ^ s.cfg.wpCntW - 1)
    SentAs (0x0E#8 :: le16Bytes a ++ le24Bytes n ++ [c]) (.setwp a n c) ∧
    (legal → ¬ full → ∃ t, exec (.setwp a n c) s = .next t ∧
      (∀ x, (c.getLsbD 0 = true ∧ InWrap a n.toNat x → cellGet 0 t.wpR x = cellGet 0 s.wpR x + 1) ∧
        (¬ (c.getLsbD 0 = true ∧ InWrap a n.toNat x) → cellGet 0 t.wpR x = cellGet 0 s.wpR x) ∧
        (c.getLsbD 1 = true ∧ InWrap a n.toNat x → cellGet 0 t.wpW x = cellGet 0 s.wpW x + 1) ∧
        (¬ (c.getLsbD 1 = true ∧ InWrap a n.toNat x) → cellGet 0 t.wpW x = cellGet 0 s.wpW x)) ∧
      t = { s with wpR := t.wpR, wpW := t.wpW, responses := s.responses ++ [[0x00#8]] }) ∧
    (legal → full → exec (.setwp a n c) s = .next (diedWith s 0x08#8)) ∧
    (¬ legal → exec (.setwp a n c) s = .next (diedWith s 0x02#8))

/-- REMOVEWP (43_debug.md R192, R193): every selected counter of the range goes down by one but not below 0, and no
other changes, the hit latch among the rest; a reserved mask bit or a size above 0x10000 raises BAD_OPERAND. -/
def Obligations.RemoveWatchpointClamps : Prop :=
  ∀ (s : State) (a : Addr) (n : Len24) (c : Byte), Live s →
    let legal := c.toNat < 4 ∧ n.toNat ≤ 0x10000
    SentAs (0x0F#8 :: le16Bytes a ++ le24Bytes n ++ [c]) (.removewp a n c) ∧
    (legal → ∃ t, exec (.removewp a n c) s = .next t ∧
      (∀ x, (c.getLsbD 0 = true ∧ InWrap a n.toNat x → cellGet 0 t.wpR x = cellGet 0 s.wpR x - 1) ∧
        (¬ (c.getLsbD 0 = true ∧ InWrap a n.toNat x) → cellGet 0 t.wpR x = cellGet 0 s.wpR x) ∧
        (c.getLsbD 1 = true ∧ InWrap a n.toNat x → cellGet 0 t.wpW x = cellGet 0 s.wpW x - 1) ∧
        (¬ (c.getLsbD 1 = true ∧ InWrap a n.toNat x) → cellGet 0 t.wpW x = cellGet 0 s.wpW x)) ∧
      t = { s with wpR := t.wpR, wpW := t.wpW, responses := s.responses ++ [[0x00#8]] }) ∧
    (¬ legal → exec (.removewp a n c) s = .next (diedWith s 0x02#8))

/-- The model's reading of 43_debug.md R193, an inference the spec marks as its own (log 20, DEDUCED): where R193 quotes
that adding and then removing the same watchpoint returns all counts in range to zero from any state, the pseudocode of
R190 and R192 gives each count back the value it had. From every live state in which the add succeeds, the removal
completes without a fatal error and leaves the watchpoint table as it was before the two. -/
def Obligations.AddThenRemoveRestoresTable : Prop :=
  ∀ (s t : State) (a : Addr) (n : Len24) (c : Byte), Live s →
    exec (.setwp a n c) s = .next t → t.fatal = false →
    ∃ u, exec (.removewp a n c) t = .next u ∧ u.wpR = s.wpR ∧ u.wpW = s.wpW ∧ u.fatal = false

/-- CLEARHIT unsets the latch and nothing else; GETHIT answers it and changes nothing; an unset latch answers four
zero bytes (43_debug.md R194, R196; 10_state.md R33). -/
def Obligations.HitLatchClearedAndRead : Prop :=
  ∀ s : State, Live s →
    SentAs [0x10#8] .clearhit ∧ SentAs [0x11#8] .gethit ∧
    exec .clearhit s = .next { s with hitValid := false, hitAddr := 0#16, hitAccess := .read,
                                      responses := s.responses ++ [[0x00#8]] } ∧
    exec .gethit s = .next { s with responses := s.responses ++
      [0x00#8 :: (if s.hitValid = true then 0x01#8 else 0x00#8) :: (le16Bytes s.hitAddr
        ++ [if s.hitAccess = .write then 0x01#8 else 0x00#8])] } ∧
    (s.hitValid = false → exec .gethit s
      = .next { s with responses := s.responses ++ [[0x00#8, 0x00#8, 0x00#8, 0x00#8, 0x00#8]] })

/-- CLEARVIS makes every bucket NONE and changes nothing else; GETVIS answers one byte for each bucket and changes
nothing (43_debug.md R198, R200; 10_state.md R30). -/
def Obligations.VisualMemoryClearedAndRead : Prop :=
  ∀ s : State, Live s →
    SentAs [0x15#8] .clearvis ∧ SentAs [0x16#8] .getvis ∧
    (∃ t, exec .clearvis s = .next t ∧ (∀ k, cellGet .none t.vis k = .none) ∧
      t = { s with vis := t.vis, responses := s.responses ++ [[0x00#8]] }) ∧
    (∃ bytes, exec .getvis s = .next { s with responses := s.responses ++ [0x00#8 :: bytes] } ∧
      bytes.length = 0x10000 / 2 ^ s.cfg.visualShift ∧
      ∀ k < bytes.length, bytes.getD k 0#8 =
        match cellGet .none s.vis k with
        | .none => 0#8
        | .read => 1#8
        | .write => 2#8
        | .fetch => 3#8)

/-! ### Snapshot (44_snapshot.md) -/

/-- SERIALIZE answers the snapshot in the layout of 44_snapshot.md R220 (R221, R222), unpopulated slots' bank indexes
among it, and changes nothing. -/
def Obligations.SerializeLayout : Prop :=
  ∀ s : State, Live s →
    SentAs [0x12#8] .serialize ∧
    ∃ out, exec .serialize s = .next { s with responses := s.responses ++ [0x00#8 :: out] } ∧
      out.length = 1 + s.cfg.slotCount + 4 + s.cfg.bankCount * bankSize s.cfg ∧
      (out.getD 0 0#8).toNat = s.cfg.slotCount ∧
      (∀ i < s.cfg.slotCount, s.slotBank[i]? = some (out.getD (1 + i) 0#8)) ∧
      (∀ k < 4, (out.getD (1 + s.cfg.slotCount + k) 0#8).toNat
        = (s.cfg.bankCount * bankSize s.cfg) / 256 ^ k % 256) ∧
      (∀ j < s.cfg.bankCount * bankSize s.cfg, out.getD (5 + s.cfg.slotCount + j) 0#8 = storeByte s j)

/-- DESERIALIZE (44_snapshot.md R224). The checks in their order: the header fits, the slot count is the block's and the
banks exist, else SNAPSHOT_FORMAT; the length field is STORE_SIZE, else SNAPSHOT_SIZE; the total length is SER_SIZE, else
SNAPSHOT_FORMAT; nothing is written when one fails. When all pass, wiring and store are the snapshot's, ROM banks
included, visual memory is NONE, and nothing else changes, the populated bits and the lock among the rest. -/
def Obligations.DeserializeChecksThenRestores : Prop :=
  ∀ (s : State) (x : List Byte), Live s →
    let size := s.cfg.bankCount * bankSize s.cfg
    let lengthField := (x.getD (1 + s.cfg.slotCount) 0#8).toNat + 256 * (x.getD (2 + s.cfg.slotCount) 0#8).toNat
      + 65536 * (x.getD (3 + s.cfg.slotCount) 0#8).toNat + 16777216 * (x.getD (4 + s.cfg.slotCount) 0#8).toNat
    let headerOk := 5 + s.cfg.slotCount ≤ x.length ∧ (x.getD 0 0#8).toNat = s.cfg.slotCount ∧
      ∀ i < s.cfg.slotCount, (x.getD (1 + i) 0#8).toNat < s.cfg.bankCount
    (x.length < 2 ^ 32 → SentAs (0x13#8 :: le32Bytes (BitVec.ofNat 32 x.length) ++ x) (.deserialize x)) ∧
    (¬ headerOk → exec (.deserialize x) s = .next (diedWith s 0x07#8)) ∧
    (headerOk → lengthField ≠ size → exec (.deserialize x) s = .next (diedWith s 0x06#8)) ∧
    (headerOk → lengthField = size → x.length ≠ 1 + s.cfg.slotCount + 4 + size →
      exec (.deserialize x) s = .next (diedWith s 0x07#8)) ∧
    (headerOk → lengthField = size → x.length = 1 + s.cfg.slotCount + 4 + size →
      ∃ t, exec (.deserialize x) s = .next t ∧
        (∀ i < s.cfg.slotCount, t.slotBank[i]? = some (x.getD (1 + i) 0#8)) ∧
        t.slotBank.length = s.cfg.slotCount ∧
        (∀ j < size, storeByte t j = x.getD (5 + s.cfg.slotCount + j) 0#8) ∧
        (∀ k, cellGet .none t.vis k = .none) ∧
        t = { s with slotBank := t.slotBank, store := t.store, vis := t.vis,
                     responses := s.responses ++ [[0x00#8]] })

/-- 44_snapshot.md R225: DESERIALIZE of the bytes SERIALIZE answered, with no operation between, succeeds, leaves wiring
and store exactly as they were, sets every visual tag to NONE, and changes nothing else. In any other live state of the
same configuration it brings the wiring and the store of the serialized state and changes nothing else but the tags:
the populated bits stay as they are there. -/
def Obligations.SnapshotRoundTrip : Prop :=
  ∀ (s : State), Live s → ∃ t out, exec .serialize s = .next t ∧ t.responses = s.responses ++ [0x00#8 :: out] ∧
    exec (.deserialize out) t = .next { s with vis := [], responses := t.responses ++ [[0x00#8]] } ∧
    ∀ u : State, Live u → u.cfg = s.cfg → exec (.deserialize out) u
      = .next { u with slotBank := s.slotBank, store := s.store, vis := [], responses := u.responses ++ [[0x00#8]] }

/-- GETSERSIZE answers SER_SIZE in four bytes, the length of what SERIALIZE answers in any live state of the same
configuration, and changes nothing (44_snapshot.md R221, R226). -/
def Obligations.SerializedSizeIsConstant : Prop :=
  ∀ s : State, Live s →
    SentAs [0x14#8] .getsersize ∧
    exec .getsersize s = .next { s with responses := s.responses ++
      [0x00#8 :: le32Bytes (BitVec.ofNat 32 (1 + s.cfg.slotCount + 4 + s.cfg.bankCount * bankSize s.cfg))] } ∧
    1 + s.cfg.slotCount + 4 + s.cfg.bankCount * bankSize s.cfg ≤ 0x1000006 ∧
    (∀ (t u : State) (out : List Byte), Live t → t.cfg = s.cfg → exec .serialize t = .next u →
      u.responses = t.responses ++ [0x00#8 :: out] →
      out.length = 1 + s.cfg.slotCount + 4 + s.cfg.bankCount * bankSize s.cfg)

/-! ### Fatal errors (60_exceptions.md) -/

/-- 60_exceptions.md R243: in the fatal state every request, a reserved opcode among them, is decoded and taken off the
port as usual, changes nothing and is answered with the one byte `0x80 | FATAL_CODE` of the first fatal error. -/
def Obligations.DeadBlockPerformsNothing : Prop :=
  (∀ (s : State) (i : Instr), s.fatal = true →
    exec i s = .next { s with responses := s.responses ++ [[0x80#8 ||| s.fatalCode]] }) ∧
  (∀ (s : State) (i : Instr) (rest : List Byte), s.fatal = true → decode s.requests = .request i rest →
    step s = .next { s with requests := rest, responses := s.responses ++ [[0x80#8 ||| s.fatalCode]] }) ∧
  (∀ (s : State) (op : Byte) (rest : List Byte), s.fatal = true → s.requests = op :: rest →
    (op = 0x00#8 ∨ 0x19 ≤ op.toNat) →
    step s = .next { s with requests := rest, responses := s.responses ++ [[0x80#8 ||| s.fatalCode]] })

/-- 60_exceptions.md R241, R242: an operation that raises a fatal error leaves the state before it but for FATAL,
FATAL_CODE and the response, and the code is one of the run-time codes 0x01 to 0x08. -/
def Obligations.FatalErrorsArePrecise : Prop :=
  ∀ (s t : State) (i : Instr), Live s → exec i s = .next t → t.fatal = true →
    t = diedWith s t.fatalCode ∧ 0x01 ≤ t.fatalCode.toNat ∧ t.fatalCode.toNat ≤ 0x08

/-- 60_exceptions.md R244: no runtime access to memory raises a fatal error, populated or not, ROM or RAM; nor does an
I/O write, whatever it matches, nor a removal below zero. Block transfers and removals have a legal size and mask. -/
def Obligations.MemoryAccessesNeverFatal : Prop :=
  ∀ s : State, Live s →
    let fine := fun i : Instr => ∃ t, exec i s = .next t ∧ t.fatal = false
    (∀ a, fine (.read8 a) ∧ fine (.fetch8 a) ∧ fine (.getmem8 a) ∧ fine (.getmem16 a) ∧ fine (.getmem32 a)) ∧
    (∀ a v, fine (.write8 a v) ∧ fine (.setmem8 a v)) ∧ (∀ a w, fine (.setmem16 a w)) ∧
    (∀ a (n : Len24), n.toNat ≤ 0x10000 → fine (.readblock a n)) ∧
    (∀ a (bytes : List Byte), bytes.length ≤ 0x10000 → fine (.writeblock a bytes)) ∧
    (∀ p v, fine (.iowrite p v)) ∧
    (∀ a (n : Len24) (c : Byte), c.toNat < 4 → n.toNat ≤ 0x10000 → fine (.removewp a n c))

/-- Every operation of a state that meets the invariant is answered, in one step, with one response: status 0x00 from a
live block it leaves live, else the single byte `0x80 | FATAL_CODE`, and then FATAL_CODE is one of the codes of
60_exceptions.md R242 (30_encoding.md R80, R89, R90; 20_memory.md R66). No other status occurs. -/
def Obligations.EveryOperationIsAnswered : Prop :=
  ∀ (s : State) (i : Instr), Inv s → ∃ t r, exec i s = .next t ∧ t.responses = s.responses ++ [r] ∧
    (t.fatal = false ∧ s.fatal = false ∧ r.head? = some 0x00#8 ∨
      t.fatal = true ∧ r = [0x80#8 ||| t.fatalCode] ∧
        t.fatalCode.toNat ∈ [0x01, 0x02, 0x03, 0x04, 0x05, 0x06, 0x07, 0x08, 0x10, 0x11, 0x12, 0x13, 0x14])

/-- 60_exceptions.md R247: once a fatal error has been met no step but the serving of a reset event leaves the fatal
state or changes its code. -/
def Obligations.FatalUntilReset : Prop :=
  ∀ s t : State, s.fatal = true → step s = .next t →
    (t.fatal = true ∧ t.fatalCode = s.fatalCode) ∨
    ∃ e later, s.pendingResets = e :: later ∧
      t = { State.resetWith e.config with requests := e.requests, pendingResets := later }

/-! ### Invariants and whole-machine rules -/

/-- The invariant holds right after reset from every configuration, and the block is live exactly when validation and
ROM loading succeed (10_state.md R23, R39; 70_reset_and_hazards.md R271 to R273). -/
def Obligations.ResetMeetsInvariant : Prop :=
  ∀ c : Config, Inv (State.resetWith c) ∧
    (Live (State.resetWith c) ↔ ∃ m, construct c = .ok m)

/-- Every step keeps the invariant, from every state that meets it (10_state.md R23, R33, R39). -/
def Obligations.StepKeepsInvariant : Prop :=
  ∀ s t : State, Inv s → step s = .next t → Inv t

/-- 20_memory.md R51, R56 (R56 is an inference the spec marks as its own): no step of a state that meets the invariant
reaches outside the store, or a register that does not exist; that a fault stands for such an access is the model's
choice (log 11). And a step refuses nothing but the bytes of an unfinished request (30_encoding.md R80, R84), and that
only when no reset event is pending: the refusal's form is log 10, the pending reset event log 7. -/
def Obligations.NoStepLeavesTheStore : Prop :=
  ∀ s : State, Inv s → (∀ f, step s ≠ .fault f) ∧
    (∀ r, step s = .refused r → r = .truncatedRequest ∧ decode s.requests = .truncated ∧ s.pendingResets = [])

/-- 20_memory.md R53 to R56: the decoder answers for every address; the slot is the quotient by BANK_SIZE and exists; the
flat offset is `bank * BANK_SIZE` plus the remainder and lies in the store; two addresses have one flat offset exactly
when their slots hold one bank and their offsets in the bank are equal. -/
def Obligations.TranslationTilesTheStore : Prop :=
  ∀ s : State, Live s →
    (∀ a : Addr, ∃ x b, translate s a = .ok x ∧ x.slot = a.toNat / bankSize s.cfg ∧ x.slot < s.cfg.slotCount ∧
      s.slotBank[x.slot]? = some b ∧ x.bank = b ∧ b.toNat < s.cfg.bankCount ∧
      x.off = b.toNat * bankSize s.cfg + a.toNat % bankSize s.cfg ∧ x.off < s.cfg.bankCount * bankSize s.cfg) ∧
    (∀ (a a' : Addr) (x x' : Target), translate s a = .ok x → translate s a' = .ok x' →
      (x.off = x'.off ↔ x.bank = x'.bank ∧ a.toNat % bankSize s.cfg = a'.toNat % bankSize s.cfg)) ∧
    s.cfg.slotCount * bankSize s.cfg = 0x10000

/-- 40_access.md R120, 20_memory.md R71: a byte written through one slot is what READ8 and FETCH8 then answer at every
address of a populated slot that is wired to the same bank and has the same offset in it, that address itself among
them. -/
def Obligations.AliasedSlotsShareBytes : Prop :=
  ∀ (s t : State) (a a' : Addr) (v : Byte), Live s → landsAt s a = true → populatedAt s a' = true →
    wiredBank s a' = wiredBank s a → a'.toNat % bankSize s.cfg = a.toNat % bankSize s.cfg →
    exec (.write8 a v) s = .next t →
    (∃ u, exec (.read8 a') t = .next u ∧ u.responses = t.responses ++ [[0x00#8, v]]) ∧
    (∃ u, exec (.fetch8 a') t = .next u ∧ u.responses = t.responses ++ [[0x00#8, v]])

/-- 41_block.md R147, 10_state.md R26: no operation but WRITEBANK and DESERIALIZE changes a byte of a ROM bank, and no
operation at all changes a ROM flag. -/
def Obligations.RomBytesProtected : Prop :=
  ∀ (s t : State) (i : Instr), Live s → exec i s = .next t →
    t.romBank = s.romBank ∧
    ((∀ b bytes, i ≠ .writebank b bytes) → (∀ bytes, i ≠ .deserialize bytes) →
      ∀ (b off : Nat), s.romBank[b]? = some true → off < bankSize s.cfg →
        storeByte t (b * bankSize s.cfg + off) = storeByte s (b * bankSize s.cfg + off))

/-- 43_debug.md R197, 60_exceptions.md R249: only READ8, FETCH8 and WRITE8 set the hit latch and only CLEARHIT clears it;
a set latch is never replaced. -/
def Obligations.HitLatchWriters : Prop :=
  ∀ (s t : State) (i : Instr), Inv s → exec i s = .next t →
    (i ≠ .clearhit → s.hitValid = true →
      t.hitValid = true ∧ t.hitAddr = s.hitAddr ∧ t.hitAccess = s.hitAccess) ∧
    ((∀ a, i ≠ .read8 a) → (∀ a, i ≠ .fetch8 a) → (∀ a v, i ≠ .write8 a v) → i ≠ .clearhit →
      t.hitValid = s.hitValid ∧ t.hitAddr = s.hitAddr ∧ t.hitAccess = s.hitAccess)

/-- 10_state.md R34: no operation clears the lock, and only IOWRITE sets it. -/
def Obligations.LockClearedOnlyByReset : Prop :=
  ∀ (s t : State) (i : Instr), Inv s → exec i s = .next t →
    (s.lock = true → t.lock = true) ∧ ((∀ p v, i ≠ .iowrite p v) → t.lock = s.lock)

/-- 43_debug.md R199: visual memory is never used for correctness. Two states that differ in it alone answer every
operation but GETVIS alike and go on to states that differ in it alone. -/
def Obligations.VisualMemoryNeverMatters : Prop :=
  ∀ (s t : State) (vis : List (Nat × VisTag)) (i : Instr), i ≠ .getvis → exec i s = .next t →
    ∃ u, exec i { s with vis := vis } = .next u ∧ u = { t with vis := u.vis }

/-- What writes the store, the wiring, the populated bits, the ROM flags, the watchpoint counters, the tags and the display
bit (10_state.md S1 to S6 and S9, "written by"): outside the operations named there, no operation changes one of them; the
configuration, the ROM flags and the ports' inputs are changed by none. The hit latch (S7) is in HitLatchWriters, LOCK (S8)
in LockClearedOnlyByReset, FATAL and FATAL_CODE (S10) in FatalErrorsArePrecise and DeadBlockPerformsNothing. -/
def Obligations.StateWrittenOnlyAsListed : Prop :=
  ∀ (s t : State) (i : Instr), Inv s → exec i s = .next t →
    t.cfg = s.cfg ∧ t.romBank = s.romBank ∧ t.requests = s.requests ∧ t.pendingResets = s.pendingResets ∧
    ((∀ a n c, i ≠ .setwp a n c) → (∀ a n c, i ≠ .removewp a n c) → t.wpR = s.wpR ∧ t.wpW = s.wpW) ∧
    ((∀ k b, i ≠ .setslot k b) → (∀ p v, i ≠ .iowrite p v) → (∀ x, i ≠ .deserialize x) →
      t.slotBank = s.slotBank) ∧
    ((∀ k b, i ≠ .setslot k b) → (∀ k, i ≠ .setnotpop k) → (∀ p v, i ≠ .iowrite p v) → t.slotPop = s.slotPop) ∧
    ((∀ f, i ≠ .setdisplay f) → t.dispShadow = s.dispShadow) ∧
    ((∀ a, i ≠ .read8 a) → (∀ a, i ≠ .fetch8 a) → (∀ a v, i ≠ .write8 a v) → i ≠ .clearvis →
      (∀ x, i ≠ .deserialize x) → t.vis = s.vis) ∧
    ((∀ a v, i ≠ .write8 a v) → (∀ a v, i ≠ .setmem8 a v) → (∀ a w, i ≠ .setmem16 a w) →
      (∀ a x, i ≠ .writeblock a x) → (∀ b x, i ≠ .writebank b x) → (∀ x, i ≠ .deserialize x) →
      t.store = s.store)

/-! ### Reset (70_reset_and_hazards.md) -/

/-- 70_reset_and_hazards.md R272, 10_state.md: after a reset that succeeds every item has its reset value; an
unpopulated slot, one left out of the definition among them, holds bank 0 (R23). The model's own choices in it: a bank for
which the configuration has no ROM flag is not ROM, and a slot beyond the end of the slot list counts as left out (both
log 12). -/
def Obligations.SuccessfulResetState : Prop :=
  ∀ (c : Config) (m : Memory), construct c = .ok m →
    let s := State.resetWith c
    s.cfg = c ∧ s.store = m ∧ s.slotBank.length = c.slotCount ∧ s.slotPop.length = c.slotCount ∧
    (∀ i < c.slotCount, ∀ d : SlotDef, c.slots[i]? = some (some d) →
      (s.slotBank.getD i 0#8).toNat = (if d.populated then d.bank else 0) ∧ s.slotPop[i]? = some d.populated) ∧
    (∀ i < c.slotCount, (∀ d : SlotDef, c.slots[i]? ≠ some (some d)) →
      s.slotBank[i]? = some 0#8 ∧ s.slotPop[i]? = some false) ∧
    (∀ b < c.bankCount, s.romBank[b]? = some (c.romFlags.getD b false)) ∧
    (∀ x, cellGet 0 s.wpR x = 0 ∧ cellGet 0 s.wpW x = 0) ∧ (∀ k, cellGet .none s.vis k = .none) ∧
    s.hitValid = false ∧ s.hitAddr = 0#16 ∧ s.hitAccess = .read ∧ s.lock = false ∧ s.dispShadow = false ∧
    s.fatal = false ∧ s.fatalCode = 0#8

/-- 70_reset_and_hazards.md R271: the first check that fails, in the order of the rule, decides the code of a failed
reset; a rule's validity is 42_mapping.md R167, the ROM loads that fail are R273. A configuration that fails a check leaves
the block dead with an unset latch and DISP_SHADOW clear (R272). A slot that the definition leaves out is no failure: like one
it gives as unpopulated it holds bank 0 (10_state.md R23). That a slot beyond the end of the slot list counts as left out
(log 12), and that the bank a definition gives beside an unpopulated slot is not checked (log 23), are the model's reading. -/
def Obligations.FailedResetReportsFirstCheck : Prop :=
  ∀ c : Config,
    let s := State.resetWith c
    let dead := fun code : Byte => s.fatal = true ∧ s.fatalCode = code ∧ s.hitValid = false ∧ s.hitAddr = 0#16 ∧
      s.hitAccess = .read ∧ s.dispShadow = false
    let slotsOk := c.slotCount ∈ [1, 2, 4, 8, 16, 32, 64, 128]
    let banksOk := c.slotCount ≤ c.bankCount ∧ c.bankCount ≤ 256
    let size := 0x10000 / c.slotCount
    let geometryOk := (∀ i < c.slotCount, ∀ d : SlotDef, c.slots[i]? = some (some d) →
        d.lo = i * size ∧ d.hi = i * size + size - 1 ∧ (d.populated = true → d.bank < c.bankCount)) ∧
      (c.hasDisplaySelect = true → c.displayPrimaryBank < c.bankCount ∧ c.displayShadowBank < c.bankCount) ∧
      c.visualShift ≤ 16 ∧ 1 ≤ c.wpCntW
    let ruleOk := fun r : BankRule => r.srcLsb.toNat + r.srcWidth.toNat ≤ 8 ∧
      (r.slot.toNat < c.slotCount ∨ r.slot = 0xFF#8) ∧
      (r.slot ≠ 0xFF#8 → r.bankBase.toNat + r.bankScale.toNat * (2 ^ r.srcWidth.toNat - 1) < c.bankCount) ∧
      (r.lockBit.toNat ≤ 7 ∨ r.lockBit = 15#4) ∧ r.portMatch &&& ~~~r.portMask = 0#16
    (¬ slotsOk → dead 0x10#8) ∧ (slotsOk → ¬ banksOk → dead 0x11#8) ∧
    (slotsOk → banksOk → ¬ geometryOk → dead 0x13#8) ∧
    (slotsOk → banksOk → geometryOk → ¬ (∀ r ∈ c.rules, ruleOk r) → dead 0x14#8) ∧
    (slotsOk → banksOk → geometryOk → (∀ r ∈ c.rules, ruleOk r) →
      (∃ r ∈ c.romImages, c.bankCount ≤ r.bank ∨ r.image.length < r.offset + size) → dead 0x12#8) ∧
    (slotsOk → banksOk → geometryOk → (∀ r ∈ c.rules, ruleOk r) →
      (∀ r ∈ c.romImages, r.bank < c.bankCount ∧ r.offset + size ≤ r.image.length) → s.fatal = false ∧
      ∀ i < c.slotCount, (∀ d : SlotDef, c.slots[i]? = some (some d) → d.populated = false) →
        s.slotBank[i]? = some 0#8 ∧ s.slotPop[i]? = some false)

/-- 70_reset_and_hazards.md R273: after a reset that succeeds, every bank holds the slice of the last ROM image loaded
into it, whatever its ROM flag, and a bank that no image names holds INIT_STORE. -/
def Obligations.RomImagesLoadedInOrder : Prop :=
  ∀ (c : Config) (m : Memory), construct c = .ok m →
    (∀ (pre post : List RomLoad) (r : RomLoad), c.romImages = pre ++ r :: post → (∀ q ∈ post, q.bank ≠ r.bank) →
      ∀ off < bankSize c, storeByte (State.resetWith c) (r.bank * bankSize c + off)
        = r.image.getD (r.offset + off) 0#8) ∧
    (∀ b < c.bankCount, (∀ r ∈ c.romImages, r.bank ≠ b) →
      ∀ off < bankSize c, storeByte (State.resetWith c) (b * bankSize c + off)
        = (c.initStore.reverse.find? (fun p => p.1 == b * bankSize c + off)).elim 0#8 (fun p => p.2))

/-- 70_reset_and_hazards.md R273, R275: loading a ROM image at reset has the effect of WRITEBANK with the image's slice
after a reset without it. -/
def Obligations.RomLoadIsWriteBank : Prop :=
  ∀ (c : Config) (earlier : List RomLoad) (r : RomLoad), c.romImages = earlier ++ [r] → (∃ m, construct c = .ok m) →
    ∃ t, exec (.writebank (BitVec.ofNat 8 r.bank) ((r.image.drop r.offset).take (bankSize c)))
        (State.resetWith { c with romImages := earlier }) = .next t ∧
      t.responses = [[0x00#8]] ∧ { t with cfg := c, responses := [] } = State.resetWith c

/-! ### Runs (70_reset_and_hazards.md R283) -/

/-- 70_reset_and_hazards.md R283: the fatal state is a fault that refutes any observation made of a run that reaches it. A
run from a failed reset is refuted with its code, whatever is sent. A run that reaches the fatal state after any of its
requests is refuted with the code of that first fatal error, whatever is sent afterwards. An observation that has a
result has the responses and the state after the last of them, and the run reached the fatal state nowhere. -/
def Obligations.FatalStateRefutesObservation : Prop :=
  (∀ (c : Config) (requests : List (List Byte)), (State.resetWith c).fatal = true →
    observe c requests = .fault (.fatalReached (State.resetWith c).fatalCode)) ∧
  (∀ (s t : State) (earlier later : List (List Byte)), Inv s → s.pendingResets = [] →
    serveAll earlier s = .next t → t.fatal = true →
    observeFrom (earlier ++ later) s = .fault (.fatalReached t.fatalCode)) ∧
  (∀ (s : State) (requests : List (List Byte)) (q : RunResult), observeFrom requests s = .next q →
    serveAll requests s = .next q.after ∧ q.responses = q.after.responses ∧ q.after.fatal = false ∧
    ∀ (earlier later : List (List Byte)) (t : State), requests = earlier ++ later → serveAll earlier s = .next t →
      t.fatal = false)

/-- 70_reset_and_hazards.md R283, 60_exceptions.md R243: the block never stops by itself. From every state that meets the
invariant, with nothing on its ports, every sequence of requests is served to its end, one response each: status 0x00 up to
the first fatal error, and from there on its code again and again. The run's observation is its responses and its last state
when no fatal error was met, and else is refuted with the code. -/
def Obligations.RunServesEveryRequest : Prop :=
  ∀ (s : State) (requests : List (List Byte)), Inv s → s.requests = [] → s.pendingResets = [] →
    (∀ r ∈ requests, isOneRequest r = true) →
    ∃ (t : State) (served dead : List (List Byte)), serveAll requests s = .next t ∧ t.requests = [] ∧
      t.responses = s.responses ++ (served ++ dead) ∧ (served ++ dead).length = requests.length ∧
      (∀ r ∈ served, r.head? = some 0x00#8) ∧ (∀ r ∈ dead, r = [0x80#8 ||| t.fatalCode]) ∧
      (t.fatal = false → dead = [] ∧ observeFrom requests s = .next { responses := t.responses, after := t }) ∧
      (t.fatal = true → (s.fatal = false → dead ≠ []) ∧ (s.fatal = true → served = []) ∧
        observeFrom requests s = .fault (.fatalReached t.fatalCode))
end

