-- ==== Sys2Proof/Laws/Cells.lean ====
section
/-!
SUPPORT. Sparse arrays: a read after a write, writes elsewhere, and that every operation keeps the canonical form
and any bound on indexes or values.
-/

namespace Sys2Proof.Machine

variable {α : Type} {d : α}

theorem cellsWf_nil (d : α) : cellsWf d [] := ⟨List.Pairwise.nil, by simp⟩

@[simp] theorem cellGet_nil (d : α) (x : Nat) : cellGet d [] x = d := rfl

theorem cellGet_cons (d : α) (k : Nat) (v : α) (m : List (Nat × α)) (x : Nat) :
    cellGet d ((k, v) :: m) x = if k = x then v else cellGet d m x := rfl

/-- Nothing listed at an index: it reads as the default. -/
theorem cellGet_of_not_listed {m : List (Nat × α)} {x : Nat} (h : ∀ p ∈ m, p.1 ≠ x) : cellGet d m x = d := by
  induction m with
  | nil => rfl
  | cons p m ih =>
    rw [cellGet_cons, if_neg (h p (by simp))]
    exact ih (fun q hq => h q (by simp [hq]))

theorem cellGet_append (m n : List (Nat × α)) (x : Nat) :
    cellGet d (m ++ n) x = if ∃ p ∈ m, p.1 = x then cellGet d m x else cellGet d n x := by
  induction m with
  | nil => simp
  | cons p m ih =>
    rw [List.cons_append, cellGet_cons, cellGet_cons, ih]
    by_cases h : p.1 = x <;> simp only [List.mem_cons, exists_eq_or_imp, h, if_true, if_false, true_or, false_or]

/-- What is listed is a member, so a property of all listed values holds of any value read that is not the
default. -/
theorem cellGet_mem {m : List (Nat × α)} {x : Nat} (h : cellGet d m x ≠ d) : (x, cellGet d m x) ∈ m := by
  induction m with
  | nil => simp at h
  | cons p m ih =>
    rw [cellGet_cons] at h ⊢
    split
    · next hk => subst hk; simp
    · next hk => rw [if_neg hk] at h; exact List.mem_cons_of_mem _ (ih h)

variable [DecidableEq α]

theorem mem_cellSet {m : List (Nat × α)} {x : Nat} {w : α} {p : Nat × α} (h : p ∈ cellSet d m x w) :
    p ∈ m ∨ (p = (x, w) ∧ w ≠ d) := by
  induction m with
  | nil =>
    simp only [cellSet] at h
    split at h <;> simp_all
  | cons q m ih =>
    simp only [cellSet] at h
    split at h
    · split at h
      · exact .inl h
      · next hw => exact (List.mem_cons.mp h).elim (fun h => .inr ⟨h, hw⟩) .inl
    · split at h
      · split at h
        · exact .inl (List.mem_cons_of_mem _ h)
        · next hw =>
          exact (List.mem_cons.mp h).elim (fun h => .inr ⟨h, hw⟩) (fun h => .inl (List.mem_cons_of_mem _ h))
      · rcases List.mem_cons.mp h with h | h
        · exact .inl (by simp [h])
        · rcases ih h with h | h
          · exact .inl (by simp [h])
          · exact .inr h

/-- A read after a write (needs the canonical form: an index is listed at most once, and in order). -/
theorem cellGet_cellSet {m : List (Nat × α)} (hm : cellsWf d m) (x y : Nat) (w : α) :
    cellGet d (cellSet d m x w) y = if x = y then w else cellGet d m y := by
  induction m with
  | nil =>
    simp only [cellSet]
    by_cases hw : w = d <;> by_cases hy : x = y <;> simp [hw, hy, cellGet_cons]
  | cons q m ih =>
    obtain ⟨k, v⟩ := q
    obtain ⟨hp, hd⟩ := hm
    have hp' := List.pairwise_cons.mp hp
    have hm' : cellsWf d m := ⟨hp'.2, fun p hq => hd p (by simp [hq])⟩
    simp only [cellSet]
    by_cases h1 : x < k
    · have hx : cellGet d ((k, v) :: m) x = d :=
        cellGet_of_not_listed (by
          intro p hq
          rcases List.mem_cons.mp hq with rfl | hq
          · simp; omega
          · have := hp'.1 p hq; simp at this; omega)
      by_cases hw : w = d
      · simp only [h1, hw, if_true]
        by_cases hy : x = y
        · simp [hy ▸ hx, hy]
        · simp [hy]
      · simp only [h1, hw, if_true, if_false]
        rw [cellGet_cons]
    · by_cases h2 : x = k
      · subst h2
        have hx : cellGet d m x = d := cellGet_of_not_listed (fun p hq => by
          have := hp'.1 p hq; simp at this; omega)
        by_cases hw : w = d
        · simp only [h1, hw, if_true, if_false]
          by_cases hy : x = y
          · simp [← hy, hx]
          · simp [hy, cellGet_cons]
        · simp only [h1, hw, if_true, if_false]
          rw [cellGet_cons, cellGet_cons]
          by_cases hy : x = y <;> simp [hy]
      · simp only [h1, h2, if_false]
        rw [cellGet_cons, cellGet_cons, ih hm']
        by_cases hy : x = y
        · subst hy; simp [Ne.symm h2]
        · simp [hy]

theorem cellSet_wf {m : List (Nat × α)} (hm : cellsWf d m) (x : Nat) (w : α) : cellsWf d (cellSet d m x w) := by
  refine ⟨?_, fun p hp => ?_⟩
  · induction m with
    | nil => simp only [cellSet]; split <;> simp
    | cons q m ih =>
      obtain ⟨k, v⟩ := q
      obtain ⟨hp, hd⟩ := hm
      have hp' := List.pairwise_cons.mp hp
      have hm' : cellsWf d m := ⟨hp'.2, fun p hq => hd p (by simp [hq])⟩
      simp only [cellSet]
      split
      · next h1 =>
        split
        · exact hp
        · refine List.pairwise_cons.mpr ⟨fun p hq => ?_, hp⟩
          rcases List.mem_cons.mp hq with rfl | hq
          · exact h1
          · have := hp'.1 p hq; simp at this ⊢; omega
      · next h1 =>
        split
        · next h2 =>
          subst h2
          split
          · exact hp'.2
          · exact List.pairwise_cons.mpr ⟨hp'.1, hp'.2⟩
        · next h2 =>
          refine List.pairwise_cons.mpr ⟨fun p hq => ?_, ih hm'⟩
          rcases mem_cellSet hq with hq | ⟨rfl, -⟩
          · exact hp'.1 p hq
          · simp; omega
  · rcases mem_cellSet hp with hp | ⟨rfl, hw⟩
    · exact hm.2 p hp
    · exact hw

theorem mem_cellRun {k : Nat} {vs : List α} {p : Nat × α} (h : p ∈ cellRun d k vs) :
    k ≤ p.1 ∧ p.1 < k + vs.length ∧ p.2 ∈ vs ∧ p.2 ≠ d := by
  induction vs generalizing k with
  | nil => simp [cellRun] at h
  | cons v vs ih =>
    simp only [cellRun] at h
    split at h
    · have := ih h
      simp; refine ⟨by omega, by omega, .inr this.2.2.1, this.2.2.2⟩
    · next hv =>
      rcases List.mem_cons.mp h with rfl | h
      · simp [hv]
      · have := ih h
        simp; refine ⟨by omega, by omega, .inr this.2.2.1, this.2.2.2⟩

theorem cellGet_cellRun (k : Nat) (vs : List α) (x : Nat) :
    cellGet d (cellRun d k vs) x = if k ≤ x then vs.getD (x - k) d else d := by
  induction vs generalizing k with
  | nil => simp [cellRun]
  | cons v vs ih =>
    have hstep : cellGet d (cellRun d k (v :: vs)) x
        = if k = x then v else cellGet d (cellRun d (k + 1) vs) x := by
      simp only [cellRun]
      split
      · next hv =>
        split
        · next hx =>
          rw [hv]
          exact cellGet_of_not_listed (fun p hp => by have := mem_cellRun hp; omega)
        · rfl
      · rw [cellGet_cons]
    rw [hstep, ih]
    by_cases h1 : k = x
    · subst h1; simp
    · by_cases h2 : k ≤ x
      · have : x - k = (x - (k + 1)) + 1 := by omega
        rw [if_neg h1, if_pos (by omega), if_pos h2, this, List.getD_cons_succ]
      · rw [if_neg h1, if_neg (by omega), if_neg h2]

theorem cellRun_sorted (k : Nat) (vs : List α) : (cellRun d k vs).Pairwise (fun p q => p.1 < q.1) := by
  induction vs generalizing k with
  | nil => simp [cellRun]
  | cons v vs ih =>
    simp only [cellRun]
    split
    · exact ih (k + 1)
    · exact List.pairwise_cons.mpr ⟨fun p hp => by have := mem_cellRun hp; simp; omega, ih (k + 1)⟩

theorem mem_cellPutRun {m : List (Nat × α)} {lo : Nat} {vs : List α} {p : Nat × α}
    (h : p ∈ cellPutRun d m lo vs) :
    (p ∈ m ∧ (p.1 < lo ∨ lo + vs.length ≤ p.1)) ∨ (lo ≤ p.1 ∧ p.1 < lo + vs.length ∧ p.2 ∈ vs ∧ p.2 ≠ d) := by
  simp only [cellPutRun, List.mem_append, List.mem_filter, decide_eq_true_eq] at h
  rcases h with (⟨h, h'⟩ | h) | ⟨h, h'⟩
  · exact .inl ⟨h, .inl h'⟩
  · exact .inr (mem_cellRun h)
  · exact .inl ⟨h, .inr h'⟩

theorem cellPutRun_wf {m : List (Nat × α)} (hm : cellsWf d m) (lo : Nat) (vs : List α) :
    cellsWf d (cellPutRun d m lo vs) := by
  refine ⟨?_, fun p hp => ?_⟩
  · simp only [cellPutRun]
    rw [List.append_assoc]
    refine List.pairwise_append.mpr ⟨hm.1.filter _, List.pairwise_append.mpr ⟨cellRun_sorted _ _,
      hm.1.filter _, fun p hp q hq => ?_⟩, fun p hp q hq => ?_⟩
    · have := mem_cellRun hp
      simp only [List.mem_filter, decide_eq_true_eq] at hq
      omega
    · simp only [List.mem_filter, List.mem_append, decide_eq_true_eq] at hp hq
      rcases hq with hq | hq
      · have := mem_cellRun hq
        omega
      · omega
  · rcases mem_cellPutRun hp with hp | hp
    · exact hm.2 p hp.1
    · exact hp.2.2.2

omit [DecidableEq α] in
theorem cellGet_filter (m : List (Nat × α)) (q : Nat → Bool) (x : Nat) :
    cellGet d (m.filter (fun p => q p.1)) x = if q x then cellGet d m x else d := by
  induction m with
  | nil => simp
  | cons p m ih =>
    rw [List.filter_cons]
    by_cases hq : q p.1
    · rw [if_pos hq, cellGet_cons, cellGet_cons, ih]
      by_cases hx : p.1 = x
      · simp [← hx, hq]
      · simp [hx]
    · rw [if_neg hq, cellGet_cons, ih]
      by_cases hx : p.1 = x
      · simp [← hx, hq]
      · simp [hx]

/-- A read after a run was written: the run's values inside it, what was there before outside it. -/
theorem cellGet_cellPutRun (m : List (Nat × α)) (lo : Nat) (vs : List α) (x : Nat) :
    cellGet d (cellPutRun d m lo vs) x
      = if lo ≤ x ∧ x < lo + vs.length then vs.getD (x - lo) d else cellGet d m x := by
  simp only [cellPutRun]
  rw [cellGet_append, cellGet_append]
  have f1 := cellGet_filter (d := d) m (fun k => decide (k < lo)) x
  have f2 := cellGet_filter (d := d) m (fun k => decide (lo + vs.length ≤ k)) x
  simp only [decide_eq_true_eq] at f1 f2
  by_cases h1 : x < lo
  · have hnr : ¬ ∃ p ∈ cellRun d lo vs, p.1 = x := by
      rintro ⟨p, hp, rfl⟩; have := mem_cellRun hp; omega
    have hr : cellGet d (cellRun d lo vs) x = d := cellGet_of_not_listed (fun p hp hx => hnr ⟨p, hp, hx⟩)
    rw [f1, f2, if_pos h1, if_neg (show ¬ (lo + vs.length ≤ x) by omega),
      if_neg (show ¬ (lo ≤ x ∧ x < lo + vs.length) by omega)]
    by_cases he : ∃ p ∈ List.filter (fun p => decide (p.1 < lo)) m, p.1 = x
    · rw [if_pos (by obtain ⟨p, hp, hx⟩ := he; exact ⟨p, List.mem_append.mpr (.inl hp), hx⟩), if_pos he]
    · have hl : cellGet d m x = d := cellGet_of_not_listed (fun p hp hx =>
        he ⟨p, List.mem_filter.mpr ⟨hp, by simp; omega⟩, hx⟩)
      rw [if_neg he, hr, hl]
      split <;> rfl
  · have hnl : ¬ ∃ p ∈ List.filter (fun p => decide (p.1 < lo)) m, p.1 = x := by
      rintro ⟨p, hp, rfl⟩; simp at hp; omega
    rw [if_neg hnl, f2, cellGet_cellRun]
    by_cases h2 : x < lo + vs.length
    · rw [if_pos (show lo ≤ x by omega), if_pos (show lo ≤ x ∧ x < lo + vs.length by omega),
        if_neg (show ¬ (lo + vs.length ≤ x) by omega)]
      split
      · rfl
      · next hn =>
        by_contra hne
        have hg := cellGet_cellRun (d := d) lo vs x
        rw [if_pos (show lo ≤ x by omega)] at hg
        have := cellGet_mem (d := d) (m := cellRun d lo vs) (x := x) (by rw [hg]; exact fun h => hne h.symm)
        exact hn ⟨_, List.mem_append.mpr (.inr this), rfl⟩
    · have hn : ¬ ∃ p ∈ List.filter (fun p => decide (p.1 < lo)) m ++ cellRun d lo vs, p.1 = x := by
        rintro ⟨p, hp, rfl⟩
        rcases List.mem_append.mp hp with hp | hp
        · simp at hp; omega
        · have := mem_cellRun hp; omega
      rw [if_neg hn, if_pos (show lo + vs.length ≤ x by omega),
        if_neg (show ¬ (lo ≤ x ∧ x < lo + vs.length) by omega)]

omit [DecidableEq α] in
/-- In canonical form, equal reads mean equal data. -/
theorem cells_ext {m n : List (Nat × α)} (hm : cellsWf d m) (hn : cellsWf d n)
    (h : ∀ x, cellGet d m x = cellGet d n x) : m = n := by
  induction m generalizing n with
  | nil =>
    cases n with
    | nil => rfl
    | cons q n =>
      have := h q.1
      rw [show cellGet d (q :: n) q.1 = q.2 from if_pos rfl, cellGet_nil] at this
      exact absurd this.symm (hn.2 q (by simp))
  | cons p m ih =>
    cases n with
    | nil =>
      have := h p.1
      rw [show cellGet d (p :: m) p.1 = p.2 from if_pos rfl, cellGet_nil] at this
      exact absurd this (hm.2 p (by simp))
    | cons q n =>
      obtain ⟨k, v⟩ := p
      obtain ⟨l, w⟩ := q
      have hp := List.pairwise_cons.mp hm.1
      have hq := List.pairwise_cons.mp hn.1
      have hv := hm.2 (k, v) (by simp)
      have hw := hn.2 (l, w) (by simp)
      have hm' : cellsWf d m := ⟨hp.2, fun p hp => hm.2 p (by simp [hp])⟩
      have hn' : cellsWf d n := ⟨hq.2, fun p hp => hn.2 p (by simp [hp])⟩
      have hkl : k = l := by
        rcases Nat.lt_trichotomy k l with hlt | he | hlt
        · have h1 := h k
          rw [cellGet_cons, if_pos rfl, cellGet_of_not_listed (by
            intro p hpm
            rcases List.mem_cons.mp hpm with rfl | hpm
            · simp; omega
            · have := hq.1 p hpm; simp at this; omega)] at h1
          exact absurd h1 hv
        · exact he
        · have h1 := h l
          rw [cellGet_cons d l, if_pos rfl, cellGet_of_not_listed (by
            intro p hpm
            rcases List.mem_cons.mp hpm with rfl | hpm
            · simp; omega
            · have := hp.1 p hpm; simp at this; omega)] at h1
          exact absurd h1.symm hw
      subst hkl
      have hvw : v = w := by have := h k; simpa [cellGet_cons] using this
      subst hvw
      congr 1
      refine ih hm' hn' (fun x => ?_)
      by_cases hx : k = x
      · subst hx
        rw [cellGet_of_not_listed (fun p hpm => by have := hp.1 p hpm; simp at this; omega),
          cellGet_of_not_listed (fun p hpm => by have := hq.1 p hpm; simp at this; omega)]
      · have := h x
        simpa [cellGet_cons, hx] using this

end Sys2Proof.Machine
end

