-- ==== Sys2Proof/Laws/Boot.lean ====
section
/-!
SUPPORT. What a valid configuration gives (spec/70_reset_and_hazards.md R271): the geometry of the slots
(20_memory.md R53 to R56), the bounds the rules keep (42_mapping.md R167), and the store ROM loading leaves (R273).
-/

namespace Sys2Proof.Machine

variable {c : Config}

/-- What every check of `VALIDATE()` gives when none fails. -/
theorem validate_none (h : validate c = none) :
    c.slotCount ∈ legalSlotCounts ∧ c.slotCount ≤ c.bankCount ∧ c.bankCount ≤ 256 ∧
      (∀ i < c.slotCount, slotGeometryOk c i = true) ∧
      (c.hasDisplaySelect = true → c.displayPrimaryBank < c.bankCount ∧ c.displayShadowBank < c.bankCount) ∧
      c.visualShift ≤ 16 ∧ 1 ≤ c.wpCntW ∧ (∀ r ∈ c.rules, ruleValid c r = true) := by
  unfold validate at h
  split at h
  · cases h
  next h1 =>
    split at h
    · cases h
    next h2 =>
      split at h
      · cases h
      next h3 =>
        split at h
        · cases h
        next h4 =>
          split at h
          · cases h
          next h5 =>
            split at h
            · cases h
            next h6 =>
              simp only [not_not, not_or, not_lt, List.all_eq_true, List.mem_range, not_and] at h1 h2 h3 h4 h5 h6
              exact ⟨h1, h2.1, h2.2, h3, fun hd => by have := h4 hd; omega, h5.1, h5.2, h6⟩

/-- A legal slot count is a power of two up to 128 (00_scope.md R6). -/
theorem legal_slotCount_cases (h : c.slotCount ∈ legalSlotCounts) :
    c.slotCount = 1 ∨ c.slotCount = 2 ∨ c.slotCount = 4 ∨ c.slotCount = 8 ∨ c.slotCount = 16 ∨
      c.slotCount = 32 ∨ c.slotCount = 64 ∨ c.slotCount = 128 := by
  simpa [legalSlotCounts] using h

/-- The slots tile the address space (20_memory.md R53). -/
theorem slotCount_mul_bankSize (h : c.slotCount ∈ legalSlotCounts) : c.slotCount * bankSize c = 0x10000 := by
  unfold bankSize
  rcases legal_slotCount_cases h with h | h | h | h | h | h | h | h <;> rw [h]

theorem bankSize_pos (h : c.slotCount ∈ legalSlotCounts) : 0 < bankSize c := by
  have := slotCount_mul_bankSize h
  rcases Nat.eq_zero_or_pos (bankSize c) with h0 | h0
  · rw [h0] at this; omega
  · exact h0

theorem bankSize_le (c : Config) : bankSize c ≤ 0x10000 := by
  unfold bankSize
  exact Nat.div_le_self _ _

/-- `a >> SHIFT` is the quotient by BANK_SIZE (20_memory.md R53, R54). -/
theorem slotOf_eq_div (h : c.slotCount ∈ legalSlotCounts) (a : Addr) : slotOf c a = a.toNat / bankSize c := by
  unfold slotOf slotShift bankSize
  rcases legal_slotCount_cases h with h | h | h | h | h | h | h | h <;> rw [h] <;>
    simp [Nat.log2_def, Nat.shiftRight_eq_div_pow]

/-- `a & (BANK_SIZE - 1)` is the remainder by BANK_SIZE (20_memory.md R54). -/
theorem bankOffset_eq_mod (h : c.slotCount ∈ legalSlotCounts) (a : Addr) :
    bankOffset c a = a.toNat % bankSize c := by
  unfold bankOffset bankSize
  rcases legal_slotCount_cases h with h | h | h | h | h | h | h | h <;> rw [h]
  · exact Nat.and_two_pow_sub_one_eq_mod _ 16
  · exact Nat.and_two_pow_sub_one_eq_mod _ 15
  · exact Nat.and_two_pow_sub_one_eq_mod _ 14
  · exact Nat.and_two_pow_sub_one_eq_mod _ 13
  · exact Nat.and_two_pow_sub_one_eq_mod _ 12
  · exact Nat.and_two_pow_sub_one_eq_mod _ 11
  · exact Nat.and_two_pow_sub_one_eq_mod _ 10
  · exact Nat.and_two_pow_sub_one_eq_mod _ 9

/-- Every address lies in a slot that exists (20_memory.md R55). -/
theorem slotOf_lt (h : c.slotCount ∈ legalSlotCounts) (a : Addr) : slotOf c a < c.slotCount := by
  rw [slotOf_eq_div h, Nat.div_lt_iff_lt_mul (bankSize_pos h), slotCount_mul_bankSize h]
  exact a.isLt

theorem bankOffset_lt (h : c.slotCount ∈ legalSlotCounts) (a : Addr) : bankOffset c a < bankSize c := by
  rw [bankOffset_eq_mod h]
  exact Nat.mod_lt _ (bankSize_pos h)

/-- An offset in a bank that exists is an offset in the store (20_memory.md R56). -/
theorem flatOffset_lt {b : Byte} {off : Nat} (hb : b.toNat < c.bankCount) (ho : off < bankSize c) :
    flatOffset c b off < storeSize c := by
  have h := Nat.mul_le_mul_right (bankSize c) (show b.toNat + 1 ≤ c.bankCount from hb)
  unfold flatOffset storeSize
  rw [Nat.succ_mul] at h
  omega

/-- Offsets in banks do not overlap (10_state.md R20). -/
theorem flatOffset_inj {b b' : Byte} {off off' : Nat} (ho : off < bankSize c) (ho' : off' < bankSize c) :
    flatOffset c b off = flatOffset c b' off' ↔ b = b' ∧ off = off' := by
  unfold flatOffset
  refine ⟨fun h => ?_, fun h => by rw [h.1, h.2]⟩
  have h1 := congrArg (· / bankSize c) h
  have h2 := congrArg (· % bankSize c) h
  have hp : 0 < bankSize c := by omega
  simp only [Nat.mul_comm _ (bankSize c), Nat.mul_add_div hp, Nat.div_eq_of_lt ho, Nat.div_eq_of_lt ho',
    Nat.mul_add_mod, Nat.mod_eq_of_lt ho, Nat.mod_eq_of_lt ho', Nat.add_zero] at h1 h2
  exact ⟨BitVec.eq_of_toNat_eq h1, h2⟩

/-- Every bucket index of an address exists (10_state.md R30). -/
theorem bucketOf_lt (h : c.visualShift ≤ 16) (a : Addr) : bucketOf c a < visCount c := by
  unfold bucketOf visCount
  rw [Nat.shiftRight_eq_div_pow, Nat.shiftRight_eq_div_pow]
  have hd : 2 ^ c.visualShift ∣ 0x10000 := ⟨2 ^ (16 - c.visualShift), by rw [← pow_add]; simp [h]⟩
  rw [Nat.div_lt_iff_lt_mul (by positivity), Nat.div_mul_cancel hd]
  exact a.isLt

/-- A valid rule that names a slot names one that exists, and every bank it computes exists (42_mapping.md R167). -/
theorem ruleValid_slot {r : BankRule} (h : ruleValid c r = true) (hs : r.slot ≠ 0xFF#8) :
    r.slot.toNat < c.slotCount ∧
      r.bankBase.toNat + r.bankScale.toNat * (2 ^ r.srcWidth.toNat - 1) < c.bankCount := by
  simp only [ruleValid, Bool.and_eq_true, Bool.or_eq_true, decide_eq_true_eq, hs, or_false, false_or] at h
  exact ⟨h.1.1.1.2, h.1.1.2⟩

/-- ROM loading keeps the canonical form and the bound of the store. -/
theorem loadRoms_keeps {rs : List RomLoad} {m m' : List Host.Cell} (h : loadRoms c rs m = .ok m')
    (hw : cellsWf 0#8 m) (hb : ∀ p ∈ m, p.1 < storeSize c) :
    cellsWf 0#8 m' ∧ ∀ p ∈ m', p.1 < storeSize c := by
  induction rs generalizing m with
  | nil => cases h; exact ⟨hw, hb⟩
  | cons r rs ih =>
    simp only [loadRoms] at h
    split at h
    · cases h
    next h1 =>
      split at h
      · cases h
      next h2 =>
        refine ih h (cellPutRun_wf hw _ _) (fun p hp => ?_)
        rcases mem_cellPutRun hp with hp | hp
        · exact hb p hp.1
        · have hl : (romSlice c r.image r.offset).length ≤ bankSize c := by simp [romSlice]
          have := Nat.mul_le_mul_right (bankSize c) (show r.bank + 1 ≤ c.bankCount by omega)
          rw [Nat.succ_mul] at this
          have hs : storeSize c = c.bankCount * bankSize c := rfl
          omega

/-- Loading one list of images and then another (70 R273, list order). -/
theorem loadRoms_append (c : Config) (rs qs : List RomLoad) (m : List Host.Cell) :
    loadRoms c (rs ++ qs) m = (loadRoms c rs m).bind (loadRoms c qs) := by
  induction rs generalizing m with
  | nil => rfl
  | cons r rs ih =>
    rw [List.cons_append, loadRoms, loadRoms]
    split
    · rfl
    · split
      · rfl
      · exact ih _

/-- A load that fails fails with CFG_ROM_IMAGE (70 R273). -/
theorem loadRoms_error {rs : List RomLoad} {m : List Host.Cell} {code : FatalCode}
    (h : loadRoms c rs m = .error code) : code = .cfgRomImage := by
  induction rs generalizing m with
  | nil => cases h
  | cons r rs ih =>
    simp only [loadRoms] at h
    split at h
    · cases h; rfl
    · split at h
      · cases h; rfl
      · exact ih h

/-- `INIT_STORE` as cells is canonical and within the store. -/
theorem initialStore_keeps (c : Config) :
    cellsWf 0#8 (initialStore c) ∧ ∀ p ∈ initialStore c, p.1 < storeSize c := by
  unfold initialStore
  have key : ∀ (l : List Host.Cell) (m : List Host.Cell), (∀ p ∈ l, p.1 < storeSize c) →
      cellsWf 0#8 m → (∀ p ∈ m, p.1 < storeSize c) →
      cellsWf 0#8 (l.foldl (fun m p => cellSet 0#8 m p.1 p.2) m) ∧
        ∀ p ∈ l.foldl (fun m p => cellSet 0#8 m p.1 p.2) m, p.1 < storeSize c := by
    intro l
    induction l with
    | nil => exact fun m _ hw hb => ⟨hw, hb⟩
    | cons q l ih =>
      intro m hl hw hb
      refine ih _ (fun p hp => hl p (by simp [hp])) (cellSet_wf hw _ _) (fun p hp => ?_)
      rcases mem_cellSet hp with hp | ⟨rfl, -⟩
      · exact hb p hp
      · exact hl q (by simp)
  refine key _ [] (fun p hp => ?_) ⟨List.Pairwise.nil, by simp⟩ (by simp)
  simpa using (List.mem_filter.mp hp).2

/-- A check that fails at reset has a reset code (60_exceptions.md R242). -/
theorem construct_error {code : FatalCode} (h : construct c = .error code) : fatalByte code ∈ resetCodes := by
  unfold construct at h
  split at h
  · next k hv =>
    cases h
    unfold validate at hv
    split at hv
    · cases hv; decide
    · split at hv
      · cases hv; decide
      · split at hv
        · cases hv; decide
        · split at hv
          · cases hv; decide
          · split at hv
            · cases hv; decide
            · split at hv
              · cases hv; decide
              · cases hv
  · rw [loadRoms_error h]; decide

/-- A successful construction: the configuration is valid, and the store is canonical and within its bounds. -/
theorem construct_ok {m : List Host.Cell} (h : construct c = .ok m) :
    validate c = none ∧ cellsWf 0#8 m ∧ ∀ p ∈ m, p.1 < storeSize c := by
  unfold construct at h
  split at h
  · cases h
  · next hv =>
    have hi := initialStore_keeps c
    exact ⟨hv, loadRoms_keeps h hi.1 hi.2⟩

/-- An unpopulated slot starts with bank 0 (10_state.md R23). -/
theorem initSlotBank_of_unpopulated {i : Nat} (h : initSlotPop c i = false) : initSlotBank c i = 0 := by
  unfold initSlotPop at h
  unfold initSlotBank
  split at h
  · next d hd => simp [h]
  · rfl

/-- A slot that passes the geometry check starts with a bank that exists (10_state.md R23). -/
theorem initSlotBank_lt {i : Nat} (h : slotGeometryOk c i = true) : initSlotBank c i < c.bankCount := by
  rw [slotGeometryOk, Bool.and_eq_true, decide_eq_true_eq] at h
  exact h.2

/-- The extended-bank preset exists exactly for the bank counts of its row (spec/70_reset_and_hazards.md R276), and has
the one asked for. -/
theorem presetExtended_bankCount {o : OpenParams} {n rom0 rom1 : Nat} {rules : List BankRule} :
    (presetExtended o n rom0 rom1 rules).map (fun c => c.bankCount) = if 16 ≤ n ∧ n ≤ 224 then some n else none := by
  unfold presetExtended extendedBankCountOk
  split <;> simp_all [preset]

end Sys2Proof.Machine
end

