-- ==== Sys2Proof/Laws/State.lean ====
section
/-!
SUPPORT. The fields of every state update, each true by definition, so that no later proof unfolds a record update.
-/

namespace Sys2Proof.Machine

section respond

variable (s : State) (bytes : List Byte)

@[simp] theorem respond_cfg : (respond s bytes).cfg = s.cfg := rfl
@[simp] theorem respond_store : (respond s bytes).store = s.store := rfl
@[simp] theorem respond_slotBank : (respond s bytes).slotBank = s.slotBank := rfl
@[simp] theorem respond_slotPop : (respond s bytes).slotPop = s.slotPop := rfl
@[simp] theorem respond_romBank : (respond s bytes).romBank = s.romBank := rfl
@[simp] theorem respond_wpR : (respond s bytes).wpR = s.wpR := rfl
@[simp] theorem respond_wpW : (respond s bytes).wpW = s.wpW := rfl
@[simp] theorem respond_vis : (respond s bytes).vis = s.vis := rfl
@[simp] theorem respond_hitValid : (respond s bytes).hitValid = s.hitValid := rfl
@[simp] theorem respond_hitAddr : (respond s bytes).hitAddr = s.hitAddr := rfl
@[simp] theorem respond_hitAccess : (respond s bytes).hitAccess = s.hitAccess := rfl
@[simp] theorem respond_lock : (respond s bytes).lock = s.lock := rfl
@[simp] theorem respond_dispShadow : (respond s bytes).dispShadow = s.dispShadow := rfl
@[simp] theorem respond_fatal : (respond s bytes).fatal = s.fatal := rfl
@[simp] theorem respond_fatalCode : (respond s bytes).fatalCode = s.fatalCode := rfl
@[simp] theorem respond_requests : (respond s bytes).requests = s.requests := rfl
@[simp] theorem respond_pendingResets : (respond s bytes).pendingResets = s.pendingResets := rfl
@[simp] theorem respond_responses : (respond s bytes).responses = s.responses ++ [bytes] := rfl

end respond

section raiseFatal

variable (code : FatalCode) (s : State)

@[simp] theorem raiseFatal_cfg : (raiseFatal code s).cfg = s.cfg := rfl
@[simp] theorem raiseFatal_store : (raiseFatal code s).store = s.store := rfl
@[simp] theorem raiseFatal_slotBank : (raiseFatal code s).slotBank = s.slotBank := rfl
@[simp] theorem raiseFatal_slotPop : (raiseFatal code s).slotPop = s.slotPop := rfl
@[simp] theorem raiseFatal_romBank : (raiseFatal code s).romBank = s.romBank := rfl
@[simp] theorem raiseFatal_wpR : (raiseFatal code s).wpR = s.wpR := rfl
@[simp] theorem raiseFatal_wpW : (raiseFatal code s).wpW = s.wpW := rfl
@[simp] theorem raiseFatal_vis : (raiseFatal code s).vis = s.vis := rfl
@[simp] theorem raiseFatal_hitValid : (raiseFatal code s).hitValid = s.hitValid := rfl
@[simp] theorem raiseFatal_hitAddr : (raiseFatal code s).hitAddr = s.hitAddr := rfl
@[simp] theorem raiseFatal_hitAccess : (raiseFatal code s).hitAccess = s.hitAccess := rfl
@[simp] theorem raiseFatal_lock : (raiseFatal code s).lock = s.lock := rfl
@[simp] theorem raiseFatal_dispShadow : (raiseFatal code s).dispShadow = s.dispShadow := rfl
@[simp] theorem raiseFatal_fatal : (raiseFatal code s).fatal = true := rfl
@[simp] theorem raiseFatal_fatalCode : (raiseFatal code s).fatalCode = fatalByte code := rfl
@[simp] theorem raiseFatal_requests : (raiseFatal code s).requests = s.requests := rfl
@[simp] theorem raiseFatal_pendingResets : (raiseFatal code s).pendingResets = s.pendingResets := rfl
@[simp] theorem raiseFatal_responses : (raiseFatal code s).responses = s.responses ++ [[statusFatal (fatalByte code)]] := rfl

end raiseFatal

section answerDead

variable (s : State)

@[simp] theorem answerDead_cfg : (answerDead s).cfg = s.cfg := rfl
@[simp] theorem answerDead_store : (answerDead s).store = s.store := rfl
@[simp] theorem answerDead_slotBank : (answerDead s).slotBank = s.slotBank := rfl
@[simp] theorem answerDead_slotPop : (answerDead s).slotPop = s.slotPop := rfl
@[simp] theorem answerDead_romBank : (answerDead s).romBank = s.romBank := rfl
@[simp] theorem answerDead_wpR : (answerDead s).wpR = s.wpR := rfl
@[simp] theorem answerDead_wpW : (answerDead s).wpW = s.wpW := rfl
@[simp] theorem answerDead_vis : (answerDead s).vis = s.vis := rfl
@[simp] theorem answerDead_hitValid : (answerDead s).hitValid = s.hitValid := rfl
@[simp] theorem answerDead_hitAddr : (answerDead s).hitAddr = s.hitAddr := rfl
@[simp] theorem answerDead_hitAccess : (answerDead s).hitAccess = s.hitAccess := rfl
@[simp] theorem answerDead_lock : (answerDead s).lock = s.lock := rfl
@[simp] theorem answerDead_dispShadow : (answerDead s).dispShadow = s.dispShadow := rfl
@[simp] theorem answerDead_fatal : (answerDead s).fatal = s.fatal := rfl
@[simp] theorem answerDead_fatalCode : (answerDead s).fatalCode = s.fatalCode := rfl
@[simp] theorem answerDead_requests : (answerDead s).requests = s.requests := rfl
@[simp] theorem answerDead_pendingResets : (answerDead s).pendingResets = s.pendingResets := rfl
@[simp] theorem answerDead_responses : (answerDead s).responses = s.responses ++ [[statusFatal s.fatalCode]] := rfl

end answerDead

section tagAccess

variable (a : Addr) (cls : VisTag) (s : State)

@[simp] theorem tagAccess_cfg : (tagAccess a cls s).cfg = s.cfg := rfl
@[simp] theorem tagAccess_store : (tagAccess a cls s).store = s.store := rfl
@[simp] theorem tagAccess_slotBank : (tagAccess a cls s).slotBank = s.slotBank := rfl
@[simp] theorem tagAccess_slotPop : (tagAccess a cls s).slotPop = s.slotPop := rfl
@[simp] theorem tagAccess_romBank : (tagAccess a cls s).romBank = s.romBank := rfl
@[simp] theorem tagAccess_wpR : (tagAccess a cls s).wpR = s.wpR := rfl
@[simp] theorem tagAccess_wpW : (tagAccess a cls s).wpW = s.wpW := rfl
@[simp] theorem tagAccess_vis : (tagAccess a cls s).vis = cellSet .none s.vis (bucketOf s.cfg a) cls := rfl
@[simp] theorem tagAccess_hitValid : (tagAccess a cls s).hitValid = s.hitValid := rfl
@[simp] theorem tagAccess_hitAddr : (tagAccess a cls s).hitAddr = s.hitAddr := rfl
@[simp] theorem tagAccess_hitAccess : (tagAccess a cls s).hitAccess = s.hitAccess := rfl
@[simp] theorem tagAccess_lock : (tagAccess a cls s).lock = s.lock := rfl
@[simp] theorem tagAccess_dispShadow : (tagAccess a cls s).dispShadow = s.dispShadow := rfl
@[simp] theorem tagAccess_fatal : (tagAccess a cls s).fatal = s.fatal := rfl
@[simp] theorem tagAccess_fatalCode : (tagAccess a cls s).fatalCode = s.fatalCode := rfl
@[simp] theorem tagAccess_requests : (tagAccess a cls s).requests = s.requests := rfl
@[simp] theorem tagAccess_pendingResets : (tagAccess a cls s).pendingResets = s.pendingResets := rfl
@[simp] theorem tagAccess_responses : (tagAccess a cls s).responses = s.responses := rfl

end tagAccess

section wireSlot

variable (i : Nat) (b : Byte) (s : State)

@[simp] theorem wireSlot_cfg : (wireSlot i b s).cfg = s.cfg := rfl
@[simp] theorem wireSlot_store : (wireSlot i b s).store = s.store := rfl
@[simp] theorem wireSlot_slotBank : (wireSlot i b s).slotBank = s.slotBank.set i b := rfl
@[simp] theorem wireSlot_slotPop : (wireSlot i b s).slotPop = s.slotPop.set i true := rfl
@[simp] theorem wireSlot_romBank : (wireSlot i b s).romBank = s.romBank := rfl
@[simp] theorem wireSlot_wpR : (wireSlot i b s).wpR = s.wpR := rfl
@[simp] theorem wireSlot_wpW : (wireSlot i b s).wpW = s.wpW := rfl
@[simp] theorem wireSlot_vis : (wireSlot i b s).vis = s.vis := rfl
@[simp] theorem wireSlot_hitValid : (wireSlot i b s).hitValid = s.hitValid := rfl
@[simp] theorem wireSlot_hitAddr : (wireSlot i b s).hitAddr = s.hitAddr := rfl
@[simp] theorem wireSlot_hitAccess : (wireSlot i b s).hitAccess = s.hitAccess := rfl
@[simp] theorem wireSlot_lock : (wireSlot i b s).lock = s.lock := rfl
@[simp] theorem wireSlot_dispShadow : (wireSlot i b s).dispShadow = s.dispShadow := rfl
@[simp] theorem wireSlot_fatal : (wireSlot i b s).fatal = s.fatal := rfl
@[simp] theorem wireSlot_fatalCode : (wireSlot i b s).fatalCode = s.fatalCode := rfl
@[simp] theorem wireSlot_requests : (wireSlot i b s).requests = s.requests := rfl
@[simp] theorem wireSlot_pendingResets : (wireSlot i b s).pendingResets = s.pendingResets := rfl
@[simp] theorem wireSlot_responses : (wireSlot i b s).responses = s.responses := rfl

end wireSlot

section storePutRun

variable (s : State) (off : Nat) (bytes : List Byte)

@[simp] theorem storePutRun_cfg : (storePutRun s off bytes).cfg = s.cfg := rfl
@[simp] theorem storePutRun_store : (storePutRun s off bytes).store = cellPutRun 0#8 s.store off bytes := rfl
@[simp] theorem storePutRun_slotBank : (storePutRun s off bytes).slotBank = s.slotBank := rfl
@[simp] theorem storePutRun_slotPop : (storePutRun s off bytes).slotPop = s.slotPop := rfl
@[simp] theorem storePutRun_romBank : (storePutRun s off bytes).romBank = s.romBank := rfl
@[simp] theorem storePutRun_wpR : (storePutRun s off bytes).wpR = s.wpR := rfl
@[simp] theorem storePutRun_wpW : (storePutRun s off bytes).wpW = s.wpW := rfl
@[simp] theorem storePutRun_vis : (storePutRun s off bytes).vis = s.vis := rfl
@[simp] theorem storePutRun_hitValid : (storePutRun s off bytes).hitValid = s.hitValid := rfl
@[simp] theorem storePutRun_hitAddr : (storePutRun s off bytes).hitAddr = s.hitAddr := rfl
@[simp] theorem storePutRun_hitAccess : (storePutRun s off bytes).hitAccess = s.hitAccess := rfl
@[simp] theorem storePutRun_lock : (storePutRun s off bytes).lock = s.lock := rfl
@[simp] theorem storePutRun_dispShadow : (storePutRun s off bytes).dispShadow = s.dispShadow := rfl
@[simp] theorem storePutRun_fatal : (storePutRun s off bytes).fatal = s.fatal := rfl
@[simp] theorem storePutRun_fatalCode : (storePutRun s off bytes).fatalCode = s.fatalCode := rfl
@[simp] theorem storePutRun_requests : (storePutRun s off bytes).requests = s.requests := rfl
@[simp] theorem storePutRun_pendingResets : (storePutRun s off bytes).pendingResets = s.pendingResets := rfl
@[simp] theorem storePutRun_responses : (storePutRun s off bytes).responses = s.responses := rfl

end storePutRun

section countersMasked

variable (f : Nat → Nat) (s : State) (a : Addr) (n : Nat) (c : Byte)

@[simp] theorem countersMasked_cfg : (countersMasked f s a n c).cfg = s.cfg := rfl
@[simp] theorem countersMasked_store : (countersMasked f s a n c).store = s.store := rfl
@[simp] theorem countersMasked_slotBank : (countersMasked f s a n c).slotBank = s.slotBank := rfl
@[simp] theorem countersMasked_slotPop : (countersMasked f s a n c).slotPop = s.slotPop := rfl
@[simp] theorem countersMasked_romBank : (countersMasked f s a n c).romBank = s.romBank := rfl
@[simp] theorem countersMasked_wpR : (countersMasked f s a n c).wpR = if maskRead c then countersRange f s.wpR a n else s.wpR := rfl
@[simp] theorem countersMasked_wpW : (countersMasked f s a n c).wpW = if maskWrite c then countersRange f s.wpW a n else s.wpW := rfl
@[simp] theorem countersMasked_vis : (countersMasked f s a n c).vis = s.vis := rfl
@[simp] theorem countersMasked_hitValid : (countersMasked f s a n c).hitValid = s.hitValid := rfl
@[simp] theorem countersMasked_hitAddr : (countersMasked f s a n c).hitAddr = s.hitAddr := rfl
@[simp] theorem countersMasked_hitAccess : (countersMasked f s a n c).hitAccess = s.hitAccess := rfl
@[simp] theorem countersMasked_lock : (countersMasked f s a n c).lock = s.lock := rfl
@[simp] theorem countersMasked_dispShadow : (countersMasked f s a n c).dispShadow = s.dispShadow := rfl
@[simp] theorem countersMasked_fatal : (countersMasked f s a n c).fatal = s.fatal := rfl
@[simp] theorem countersMasked_fatalCode : (countersMasked f s a n c).fatalCode = s.fatalCode := rfl
@[simp] theorem countersMasked_requests : (countersMasked f s a n c).requests = s.requests := rfl
@[simp] theorem countersMasked_pendingResets : (countersMasked f s a n c).pendingResets = s.pendingResets := rfl
@[simp] theorem countersMasked_responses : (countersMasked f s a n c).responses = s.responses := rfl

end countersMasked

section restore

variable (s : State) (bytes : List Byte)

@[simp] theorem restore_cfg : (restore s bytes).cfg = s.cfg := rfl
@[simp] theorem restore_store : (restore s bytes).store = cellPutRun 0#8 s.store 0 (snapshotStore s.cfg bytes) := rfl
@[simp] theorem restore_slotBank : (restore s bytes).slotBank = snapshotBanks s.cfg bytes := rfl
@[simp] theorem restore_slotPop : (restore s bytes).slotPop = s.slotPop := rfl
@[simp] theorem restore_romBank : (restore s bytes).romBank = s.romBank := rfl
@[simp] theorem restore_wpR : (restore s bytes).wpR = s.wpR := rfl
@[simp] theorem restore_wpW : (restore s bytes).wpW = s.wpW := rfl
@[simp] theorem restore_vis : (restore s bytes).vis = [] := rfl
@[simp] theorem restore_hitValid : (restore s bytes).hitValid = s.hitValid := rfl
@[simp] theorem restore_hitAddr : (restore s bytes).hitAddr = s.hitAddr := rfl
@[simp] theorem restore_hitAccess : (restore s bytes).hitAccess = s.hitAccess := rfl
@[simp] theorem restore_lock : (restore s bytes).lock = s.lock := rfl
@[simp] theorem restore_dispShadow : (restore s bytes).dispShadow = s.dispShadow := rfl
@[simp] theorem restore_fatal : (restore s bytes).fatal = s.fatal := rfl
@[simp] theorem restore_fatalCode : (restore s bytes).fatalCode = s.fatalCode := rfl
@[simp] theorem restore_requests : (restore s bytes).requests = s.requests := rfl
@[simp] theorem restore_pendingResets : (restore s bytes).pendingResets = s.pendingResets := rfl
@[simp] theorem restore_responses : (restore s bytes).responses = s.responses := rfl

end restore

section watchHit

variable (a : Addr) (acc : Access) (s : State)

@[simp] theorem watchHit_cfg : (watchHit a acc s).cfg = s.cfg := by
  unfold watchHit; split <;> rfl
@[simp] theorem watchHit_store : (watchHit a acc s).store = s.store := by
  unfold watchHit; split <;> rfl
@[simp] theorem watchHit_slotBank : (watchHit a acc s).slotBank = s.slotBank := by
  unfold watchHit; split <;> rfl
@[simp] theorem watchHit_slotPop : (watchHit a acc s).slotPop = s.slotPop := by
  unfold watchHit; split <;> rfl
@[simp] theorem watchHit_romBank : (watchHit a acc s).romBank = s.romBank := by
  unfold watchHit; split <;> rfl
@[simp] theorem watchHit_wpR : (watchHit a acc s).wpR = s.wpR := by
  unfold watchHit; split <;> rfl
@[simp] theorem watchHit_wpW : (watchHit a acc s).wpW = s.wpW := by
  unfold watchHit; split <;> rfl
@[simp] theorem watchHit_vis : (watchHit a acc s).vis = s.vis := by
  unfold watchHit; split <;> rfl
@[simp] theorem watchHit_lock : (watchHit a acc s).lock = s.lock := by
  unfold watchHit; split <;> rfl
@[simp] theorem watchHit_dispShadow : (watchHit a acc s).dispShadow = s.dispShadow := by
  unfold watchHit; split <;> rfl
@[simp] theorem watchHit_fatal : (watchHit a acc s).fatal = s.fatal := by
  unfold watchHit; split <;> rfl
@[simp] theorem watchHit_fatalCode : (watchHit a acc s).fatalCode = s.fatalCode := by
  unfold watchHit; split <;> rfl
@[simp] theorem watchHit_requests : (watchHit a acc s).requests = s.requests := by
  unfold watchHit; split <;> rfl
@[simp] theorem watchHit_pendingResets : (watchHit a acc s).pendingResets = s.pendingResets := by
  unfold watchHit; split <;> rfl
@[simp] theorem watchHit_responses : (watchHit a acc s).responses = s.responses := by
  unfold watchHit; split <;> rfl

/-- A set latch is never replaced (spec/40_access.md R110). -/
theorem watchHit_of_set (h : s.hitValid = true) : watchHit a acc s = s := by
  simp [watchHit, h]

/-- An unwatched access leaves the latch (spec/40_access.md R110). -/
theorem watchHit_of_unwatched (h : wpCount s acc a = 0) : watchHit a acc s = s := by
  simp [watchHit, h]

/-- The first watched access is recorded (spec/40_access.md R110). -/
theorem watchHit_of_first (h : 0 < wpCount s acc a) (hv : s.hitValid = false) :
    watchHit a acc s = { s with hitValid := true, hitAddr := a, hitAccess := acc } := by
  simp [watchHit, h, hv]

end watchHit

section runRules

variable (p : Port) (v : Byte) (s : State)

@[simp] theorem applyRule_cfg (r : BankRule) : (applyRule p v s r).cfg = s.cfg := by
  unfold applyRule; split <;> rfl
@[simp] theorem applyRules_cfg (rs : List BankRule) : (rs.foldl (applyRule p v) s).cfg = s.cfg := by
  induction rs generalizing s with
  | nil => rfl
  | cons r rs ih => rw [List.foldl_cons, ih, applyRule_cfg]
@[simp] theorem applyRule_store (r : BankRule) : (applyRule p v s r).store = s.store := by
  unfold applyRule; split <;> rfl
@[simp] theorem applyRules_store (rs : List BankRule) : (rs.foldl (applyRule p v) s).store = s.store := by
  induction rs generalizing s with
  | nil => rfl
  | cons r rs ih => rw [List.foldl_cons, ih, applyRule_store]
@[simp] theorem applyRule_romBank (r : BankRule) : (applyRule p v s r).romBank = s.romBank := by
  unfold applyRule; split <;> rfl
@[simp] theorem applyRules_romBank (rs : List BankRule) : (rs.foldl (applyRule p v) s).romBank = s.romBank := by
  induction rs generalizing s with
  | nil => rfl
  | cons r rs ih => rw [List.foldl_cons, ih, applyRule_romBank]
@[simp] theorem applyRule_wpR (r : BankRule) : (applyRule p v s r).wpR = s.wpR := by
  unfold applyRule; split <;> rfl
@[simp] theorem applyRules_wpR (rs : List BankRule) : (rs.foldl (applyRule p v) s).wpR = s.wpR := by
  induction rs generalizing s with
  | nil => rfl
  | cons r rs ih => rw [List.foldl_cons, ih, applyRule_wpR]
@[simp] theorem applyRule_wpW (r : BankRule) : (applyRule p v s r).wpW = s.wpW := by
  unfold applyRule; split <;> rfl
@[simp] theorem applyRules_wpW (rs : List BankRule) : (rs.foldl (applyRule p v) s).wpW = s.wpW := by
  induction rs generalizing s with
  | nil => rfl
  | cons r rs ih => rw [List.foldl_cons, ih, applyRule_wpW]
@[simp] theorem applyRule_vis (r : BankRule) : (applyRule p v s r).vis = s.vis := by
  unfold applyRule; split <;> rfl
@[simp] theorem applyRules_vis (rs : List BankRule) : (rs.foldl (applyRule p v) s).vis = s.vis := by
  induction rs generalizing s with
  | nil => rfl
  | cons r rs ih => rw [List.foldl_cons, ih, applyRule_vis]
@[simp] theorem applyRule_hitValid (r : BankRule) : (applyRule p v s r).hitValid = s.hitValid := by
  unfold applyRule; split <;> rfl
@[simp] theorem applyRules_hitValid (rs : List BankRule) : (rs.foldl (applyRule p v) s).hitValid = s.hitValid := by
  induction rs generalizing s with
  | nil => rfl
  | cons r rs ih => rw [List.foldl_cons, ih, applyRule_hitValid]
@[simp] theorem applyRule_hitAddr (r : BankRule) : (applyRule p v s r).hitAddr = s.hitAddr := by
  unfold applyRule; split <;> rfl
@[simp] theorem applyRules_hitAddr (rs : List BankRule) : (rs.foldl (applyRule p v) s).hitAddr = s.hitAddr := by
  induction rs generalizing s with
  | nil => rfl
  | cons r rs ih => rw [List.foldl_cons, ih, applyRule_hitAddr]
@[simp] theorem applyRule_hitAccess (r : BankRule) : (applyRule p v s r).hitAccess = s.hitAccess := by
  unfold applyRule; split <;> rfl
@[simp] theorem applyRules_hitAccess (rs : List BankRule) : (rs.foldl (applyRule p v) s).hitAccess = s.hitAccess := by
  induction rs generalizing s with
  | nil => rfl
  | cons r rs ih => rw [List.foldl_cons, ih, applyRule_hitAccess]
@[simp] theorem applyRule_lock (r : BankRule) : (applyRule p v s r).lock = s.lock := by
  unfold applyRule; split <;> rfl
@[simp] theorem applyRules_lock (rs : List BankRule) : (rs.foldl (applyRule p v) s).lock = s.lock := by
  induction rs generalizing s with
  | nil => rfl
  | cons r rs ih => rw [List.foldl_cons, ih, applyRule_lock]
@[simp] theorem applyRule_dispShadow (r : BankRule) : (applyRule p v s r).dispShadow = s.dispShadow := by
  unfold applyRule; split <;> rfl
@[simp] theorem applyRules_dispShadow (rs : List BankRule) : (rs.foldl (applyRule p v) s).dispShadow = s.dispShadow := by
  induction rs generalizing s with
  | nil => rfl
  | cons r rs ih => rw [List.foldl_cons, ih, applyRule_dispShadow]
@[simp] theorem applyRule_fatal (r : BankRule) : (applyRule p v s r).fatal = s.fatal := by
  unfold applyRule; split <;> rfl
@[simp] theorem applyRules_fatal (rs : List BankRule) : (rs.foldl (applyRule p v) s).fatal = s.fatal := by
  induction rs generalizing s with
  | nil => rfl
  | cons r rs ih => rw [List.foldl_cons, ih, applyRule_fatal]
@[simp] theorem applyRule_fatalCode (r : BankRule) : (applyRule p v s r).fatalCode = s.fatalCode := by
  unfold applyRule; split <;> rfl
@[simp] theorem applyRules_fatalCode (rs : List BankRule) : (rs.foldl (applyRule p v) s).fatalCode = s.fatalCode := by
  induction rs generalizing s with
  | nil => rfl
  | cons r rs ih => rw [List.foldl_cons, ih, applyRule_fatalCode]
@[simp] theorem applyRule_requests (r : BankRule) : (applyRule p v s r).requests = s.requests := by
  unfold applyRule; split <;> rfl
@[simp] theorem applyRules_requests (rs : List BankRule) : (rs.foldl (applyRule p v) s).requests = s.requests := by
  induction rs generalizing s with
  | nil => rfl
  | cons r rs ih => rw [List.foldl_cons, ih, applyRule_requests]
@[simp] theorem applyRule_pendingResets (r : BankRule) : (applyRule p v s r).pendingResets = s.pendingResets := by
  unfold applyRule; split <;> rfl
@[simp] theorem applyRules_pendingResets (rs : List BankRule) : (rs.foldl (applyRule p v) s).pendingResets = s.pendingResets := by
  induction rs generalizing s with
  | nil => rfl
  | cons r rs ih => rw [List.foldl_cons, ih, applyRule_pendingResets]
@[simp] theorem applyRule_responses (r : BankRule) : (applyRule p v s r).responses = s.responses := by
  unfold applyRule; split <;> rfl
@[simp] theorem applyRules_responses (rs : List BankRule) : (rs.foldl (applyRule p v) s).responses = s.responses := by
  induction rs generalizing s with
  | nil => rfl
  | cons r rs ih => rw [List.foldl_cons, ih, applyRule_responses]
@[simp] theorem runRules_cfg : (runRules p v s).cfg = s.cfg := applyRules_cfg p v s _
@[simp] theorem runRules_store : (runRules p v s).store = s.store := applyRules_store p v s _
@[simp] theorem runRules_romBank : (runRules p v s).romBank = s.romBank := applyRules_romBank p v s _
@[simp] theorem runRules_wpR : (runRules p v s).wpR = s.wpR := applyRules_wpR p v s _
@[simp] theorem runRules_wpW : (runRules p v s).wpW = s.wpW := applyRules_wpW p v s _
@[simp] theorem runRules_vis : (runRules p v s).vis = s.vis := applyRules_vis p v s _
@[simp] theorem runRules_hitValid : (runRules p v s).hitValid = s.hitValid := applyRules_hitValid p v s _
@[simp] theorem runRules_hitAddr : (runRules p v s).hitAddr = s.hitAddr := applyRules_hitAddr p v s _
@[simp] theorem runRules_hitAccess : (runRules p v s).hitAccess = s.hitAccess := applyRules_hitAccess p v s _
@[simp] theorem runRules_lock : (runRules p v s).lock = s.cfg.rules.any (fun r => ruleMatches r p && ruleLocks r v) := rfl
@[simp] theorem runRules_dispShadow : (runRules p v s).dispShadow = s.dispShadow := applyRules_dispShadow p v s _
@[simp] theorem runRules_fatal : (runRules p v s).fatal = s.fatal := applyRules_fatal p v s _
@[simp] theorem runRules_fatalCode : (runRules p v s).fatalCode = s.fatalCode := applyRules_fatalCode p v s _
@[simp] theorem runRules_requests : (runRules p v s).requests = s.requests := applyRules_requests p v s _
@[simp] theorem runRules_pendingResets : (runRules p v s).pendingResets = s.pendingResets := applyRules_pendingResets p v s _
@[simp] theorem runRules_responses : (runRules p v s).responses = s.responses := applyRules_responses p v s _

@[simp] theorem runRules_slotBank :
    (runRules p v s).slotBank = (s.cfg.rules.foldl (applyRule p v) s).slotBank := rfl
@[simp] theorem runRules_slotPop :
    (runRules p v s).slotPop = (s.cfg.rules.foldl (applyRule p v) s).slotPop := rfl

end runRules

end Sys2Proof.Machine
end

