-- ==== Sys2Proof/Laws/Ops.lean ====
section
/-!
SUPPORT. One lemma per shared operation, saying everything it can do: performing an operation, the checks, the
address decoder and the datapath.
-/

namespace Sys2Proof.Machine

/-! ### Performing an operation (spec/30_encoding.md R89, 60_exceptions.md R241, R243) -/

variable {op : State → OpResult} {s t : State}

theorem perform_dead (h : s.fatal = true) : perform op s = .next (answerDead s) := by
  simp [perform, h]

theorem perform_done {result : List Byte} (h : s.fatal = false) (ho : op s = .done t result) :
    perform op s = .next (respond t (statusOk :: result)) := by
  simp [perform, h, ho]

theorem perform_fatal {code : FatalCode} (h : s.fatal = false) (ho : op s = .fatal code) :
    perform op s = .next (raiseFatal code s) := by
  simp [perform, h, ho]

/-- Everything performing an operation can do when it answers a next state. -/
theorem perform_next (h : perform op s = .next t) :
    (s.fatal = true ∧ t = answerDead s) ∨
      (s.fatal = false ∧ ∃ u result, op s = .done u result ∧ t = respond u (statusOk :: result)) ∨
      (s.fatal = false ∧ ∃ code, op s = .fatal code ∧ t = raiseFatal code s) := by
  unfold perform at h
  split at h
  · next hf => cases h; exact .inl ⟨hf, rfl⟩
  · next hf =>
    have hf : s.fatal = false := by simpa using hf
    split at h
    · next u r ho => cases h; exact .inr (.inl ⟨hf, u, r, ho, rfl⟩)
    · next code ho => cases h; exact .inr (.inr ⟨hf, code, ho, rfl⟩)
    · cases h

/-- It never refuses. -/
theorem perform_not_refused (r : Refusal) : perform op s ≠ .refused r := by
  unfold perform
  split
  · simp
  · split <;> simp

/-- It faults exactly when the operation does in a state with no fatal error. -/
theorem perform_fault {f : Fault} (h : perform op s = .fault f) : s.fatal = false ∧ op s = .fault f := by
  unfold perform at h
  split at h
  · cases h
  · next hf =>
    split at h
    · cases h
    · cases h
    · next g ho => cases h; exact ⟨by simpa using hf, ho⟩

/-! ### Checks (spec/60_exceptions.md R245) -/

@[simp] theorem require_true (code : FatalCode) : require true code = none := rfl

@[simp] theorem require_false (code : FatalCode) : require false code = some code := rfl

theorem require_eq_none {ok : Bool} {code : FatalCode} : require ok code = none ↔ ok = true := by
  cases ok <;> simp

@[simp] theorem guarded_nil (r : OpResult) : guarded [] r = r := rfl

@[simp] theorem guarded_pass (checks : List Check) (r : OpResult) :
    guarded (none :: checks) r = guarded checks r := rfl

@[simp] theorem guarded_fail (code : FatalCode) (checks : List Check) (r : OpResult) :
    guarded (some code :: checks) r = .fatal code := rfl

theorem guarded_of_passed {checks : List Check} (h : ∀ k ∈ checks, k = none) (r : OpResult) :
    guarded checks r = r := by
  induction checks with
  | nil => rfl
  | cons k ks ih =>
    rw [h k (by simp), guarded_pass]
    exact ih (fun k hk => h k (by simp [hk]))

/-- Everything a guarded operation can do: a check failed and its code is raised, or all passed. -/
theorem guarded_cases (checks : List Check) (r : OpResult) :
    (∃ code, some code ∈ checks ∧ guarded checks r = .fatal code) ∨
      ((∀ k ∈ checks, k = none) ∧ guarded checks r = r) := by
  induction checks with
  | nil => exact .inr ⟨by simp, rfl⟩
  | cons k ks ih =>
    cases k with
    | some code => exact .inl ⟨code, by simp, rfl⟩
    | none =>
      rw [guarded_pass]
      rcases ih with ⟨code, hm, hg⟩ | ⟨hn, hg⟩
      · exact .inl ⟨code, by simp [hm], hg⟩
      · exact .inr ⟨by simpa using hn, hg⟩

/-! ### The address decoder and the datapath (spec/20_memory.md R54 to R60) -/

theorem Wired.legal (h : Wired s) : s.cfg.slotCount ∈ legalSlotCounts := (validate_none h.cfgValid).1

theorem Wired.slotOf_lt_banks (h : Wired s) (a : Addr) : slotOf s.cfg a < s.slotBank.length := by
  rw [h.bankLength]; exact slotOf_lt h.legal a

theorem Wired.slotOf_lt_pops (h : Wired s) (a : Addr) : slotOf s.cfg a < s.slotPop.length := by
  rw [h.popLength]; exact slotOf_lt h.legal a

theorem Wired.bankCount_le (h : Wired s) : s.cfg.bankCount ≤ 256 := (validate_none h.cfgValid).2.2.1

theorem Wired.wiredBank_lt (h : Wired s) (a : Addr) : (wiredBank s a).toNat < s.cfg.bankCount := by
  have hl := h.slotOf_lt_banks a
  unfold wiredBank
  rw [List.getD_eq_getElem _ _ hl]
  exact h.banksExist _ (List.getElem_mem hl)

/-- No access reaches outside the store (20_memory.md R56). -/
theorem Wired.flatOf_lt (h : Wired s) (a : Addr) : flatOf s a < storeSize s.cfg :=
  flatOffset_lt (h.wiredBank_lt a) (bankOffset_lt h.legal a)

theorem Wired.romBank_length (h : Wired s) : s.romBank.length = s.cfg.bankCount := by
  rw [h.romFlags]; simp [bootRomBank]

/-- The decoder, in a state that meets the invariant (20_memory.md R54). -/
theorem translate_eq (h : Wired s) (a : Addr) :
    translate s a = .ok { slot := slotOf s.cfg a, bank := wiredBank s a, off := flatOf s a } := by
  have hl := h.slotOf_lt_banks a
  unfold translate flatOf wiredBank
  rw [List.getElem?_eq_getElem hl, List.getD_eq_getElem _ _ hl]

/-- The read datapath shows what the address shows (20_memory.md R58). -/
theorem memRead8_eq (h : Wired s) (a : Addr) : memRead8 s a = .ok (peek s a) := by
  have hl := h.slotOf_lt_pops a
  unfold memRead8 peek populatedAt
  rw [translate_eq h]
  simp only [List.getElem?_eq_getElem hl, List.getD_eq_getElem _ _ hl]
  cases s.slotPop[slotOf s.cfg a] with
  | false => rfl
  | true => simp [storeRead, h.flatOf_lt a, storeByte]

/-- What `n + 1` addresses show: the first, then the rest from the next address on. -/
theorem peekBytes_succ (s : State) (a : Addr) (n : Nat) :
    peekBytes s a (n + 1) = peek s a :: peekBytes s (a + 1#16) n := by
  unfold peekBytes
  rw [List.range_succ_eq_map, List.map_cons, List.map_map]
  refine congrArg₂ _ (by simp) (List.map_congr_left fun i _ => ?_)
  have h : BitVec.ofNat 16 (i + 1) = 1#16 + BitVec.ofNat 16 i := by
    rw [Nat.add_comm, BitVec.ofNat_add]
  rw [Function.comp_apply, Nat.succ_eq_add_one, h, BitVec.add_assoc]

@[simp] theorem peekBytes_zero (s : State) (a : Addr) : peekBytes s a 0 = [] := rfl

@[simp] theorem peekBytes_length (s : State) (a : Addr) (n : Nat) : (peekBytes s a n).length = n := by
  simp [peekBytes]

/-- Multi-byte reads (20_memory.md R60). -/
theorem memRead_eq (h : Wired s) (a : Addr) (n : Nat) : memRead s a n = .ok (peekBytes s a n) := by
  induction n generalizing a with
  | zero => rfl
  | succ n ih => simp only [memRead, memRead8_eq h, ih, peekBytes_succ]

/-- The write datapath: the byte lands, or is discarded (20_memory.md R59). -/
theorem memWrite8_eq (h : Wired s) (a : Addr) (v : Byte) (m : Memory) :
    memWrite8 s a v m = .ok (if landsAt s a then cellSet 0#8 m (flatOf s a) v else m) := by
  have hl := h.slotOf_lt_pops a
  have hr : (wiredBank s a).toNat < s.romBank.length := by rw [h.romBank_length]; exact h.wiredBank_lt a
  unfold memWrite8 landsAt populatedAt
  rw [translate_eq h]
  simp only [List.getElem?_eq_getElem hl, List.getD_eq_getElem _ _ hl]
  cases s.slotPop[slotOf s.cfg a] with
  | false => rfl
  | true =>
    simp only [List.getElem?_eq_getElem hr, List.getD_eq_getElem _ _ hr]
    cases s.romBank[(wiredBank s a).toNat] with
    | true => rfl
    | false => simp [storeWrite, h.flatOf_lt a]

/-- The store after the bytes `vs` were written from address `a` on, byte by byte (20_memory.md R60). -/
def storeAfter (s : State) : Addr → List Byte → Memory → Memory
  | _, [], m => m
  | a, v :: vs, m =>
    storeAfter s (a + 1#16) vs (if landsAt s a then cellSet 0#8 m (flatOf s a) v else m)

/-- Multi-byte writes (20_memory.md R60). -/
theorem memWrite_eq (h : Wired s) (a : Addr) (vs : List Byte) (m : Memory) :
    memWrite s a vs m = .ok (storeAfter s a vs m) := by
  induction vs generalizing a m with
  | nil => rfl
  | cons v vs ih => simp only [memWrite, memWrite8_eq h, ih, storeAfter]

theorem storeAfter_wf {m : Memory} (hm : Memory.wf m) (s : State) (a : Addr) (vs : List Byte) :
    Memory.wf (storeAfter s a vs m) := by
  induction vs generalizing a m with
  | nil => exact hm
  | cons v vs ih =>
    rw [storeAfter]
    split
    · exact ih (cellSet_wf hm _ _) _
    · exact ih hm _

theorem storeAfter_bound (h : Wired s) {m : Memory} (hm : ∀ p ∈ m, p.1 < storeSize s.cfg) (a : Addr)
    (vs : List Byte) : ∀ p ∈ storeAfter s a vs m, p.1 < storeSize s.cfg := by
  induction vs generalizing a m with
  | nil => exact hm
  | cons v vs ih =>
    rw [storeAfter]
    split
    · refine ih (fun p hp => ?_) _
      rcases mem_cellSet hp with hp | ⟨rfl, -⟩
      · exact hm p hp
      · exact h.flatOf_lt a
    · exact ih hm _

/-- A store byte that no landing byte of the write goes to is unchanged (20_memory.md R59, R60). -/
theorem storeAfter_frame {m : Memory} (hm : Memory.wf m) (s : State) (a : Addr) (vs : List Byte) (off : Nat)
    (h : ∀ i < vs.length, landsAt s (a + BitVec.ofNat 16 i) = true → flatOf s (a + BitVec.ofNat 16 i) ≠ off) :
    cellGet 0#8 (storeAfter s a vs m) off = cellGet 0#8 m off := by
  induction vs generalizing a m with
  | nil => rfl
  | cons v vs ih =>
    have h0 := h 0 (by simp)
    simp only [BitVec.add_zero] at h0
    have hrest : ∀ i < vs.length, landsAt s (a + 1#16 + BitVec.ofNat 16 i) = true →
        flatOf s (a + 1#16 + BitVec.ofNat 16 i) ≠ off := by
      intro i hi hl
      have hn := h (i + 1) (by simpa using hi)
      rw [Nat.add_comm i 1, BitVec.ofNat_add, ← BitVec.add_assoc] at hn
      exact hn hl
    rw [storeAfter]
    split
    · next hl => rw [ih (cellSet_wf hm _ _) _ hrest, cellGet_cellSet hm, if_neg (h0 hl)]
    · exact ih hm _ hrest

/-- The last landing byte of the write that goes to a store byte is the one it keeps (41_block.md R145). -/
theorem storeAfter_last {m : Memory} (hm : Memory.wf m) (s : State) (a : Addr) (vs : List Byte) (i : Nat)
    (hi : i < vs.length) (hl : landsAt s (a + BitVec.ofNat 16 i) = true)
    (hlater : ∀ j, i < j → j < vs.length → landsAt s (a + BitVec.ofNat 16 j) = true →
      flatOf s (a + BitVec.ofNat 16 j) ≠ flatOf s (a + BitVec.ofNat 16 i)) :
    cellGet 0#8 (storeAfter s a vs m) (flatOf s (a + BitVec.ofNat 16 i)) = vs[i] := by
  induction vs generalizing a m i with
  | nil => simp at hi
  | cons v vs ih =>
    have hshift : ∀ j, a + BitVec.ofNat 16 (j + 1) = a + 1#16 + BitVec.ofNat 16 j := by
      intro j
      rw [Nat.add_comm j 1, BitVec.ofNat_add, BitVec.add_assoc]
    have hm' : Memory.wf (if landsAt s a then cellSet 0#8 m (flatOf s a) v else m) := by
      split
      exacts [cellSet_wf hm _ _, hm]
    rw [storeAfter]
    cases i with
    | zero =>
      rw [storeAfter_frame hm']
      · simp only [BitVec.add_zero] at hl ⊢
        rw [if_pos hl, cellGet_cellSet hm, if_pos rfl, List.getElem_cons_zero]
      · intro j hj hlj
        rw [← hshift j] at hlj ⊢
        exact hlater (j + 1) (by omega) (by simpa using hj) hlj
    | succ i =>
      rw [hshift i] at hl ⊢
      rw [List.getElem_cons_succ]
      refine ih hm' _ i (by simpa using hi) hl (fun j hij hj hlj => ?_)
      have := hlater (j + 1) (by omega) (by simpa using hj)
      rw [hshift j, hshift i] at this
      exact this hlj

/-- Reading answers what the addresses show, and writes nothing. -/
theorem answerRead_eq (h : Wired s) (a : Addr) (n : Nat) : answerRead s a n = .done s (peekBytes s a n) := by
  simp [answerRead, memRead_eq h, withValue]

/-- Writing changes the store alone. -/
theorem answerWrite_eq (h : Wired s) (a : Addr) (vs : List Byte) :
    answerWrite s a vs = .done { s with store := storeAfter s a vs s.store } [] := by
  simp [answerWrite, memWrite_eq h, withValue]

end Sys2Proof.Machine
end

