-- ==== Sys2Proof/Laws/Flags.lean ====
section
/-!
SUPPORT. Watchpoint counters over a range (spec/43_debug.md R190 to R193).
-/

namespace Sys2Proof.Machine

/-- `x` is an address of `[a, a + n)`, wrapping at 2^16 (43_debug.md R190). -/
def inRange (a : Addr) (n x : Nat) : Prop := a.toNat ≤ x ∧ x < a.toNat + n ∨ x + 0x10000 < a.toNat + n

theorem inRange_iff_mem (a : Addr) (n x : Nat) (hn : n ≤ 0x10000) (hx : x < 0x10000) :
    inRange a n x ↔ x ∈ rangeAddrs a n := by
  have ha := a.isLt
  simp only [inRange, rangeAddrs, List.mem_map, List.mem_range]
  constructor
  · rintro (h | h)
    · exact ⟨x - a.toNat, by omega, by omega⟩
    · exact ⟨x + 0x10000 - a.toNat, by omega, by omega⟩
  · rintro ⟨i, hi, rfl⟩
    omega

theorem cellGet_countersRun (f : Nat → Nat) (m : List (Nat × Nat)) (lo n x : Nat) :
    cellGet 0 (countersRun f m lo n) x = if lo ≤ x ∧ x < lo + n then f (cellGet 0 m x) else cellGet 0 m x := by
  unfold countersRun
  rw [cellGet_cellPutRun, List.length_map, List.length_range]
  split
  · next h =>
    have hl : x - lo < ((List.range n).map (fun i => f (cellGet 0 m (lo + i)))).length := by simp; omega
    rw [List.getD_eq_getElem _ _ hl, List.getElem_map, List.getElem_range]
    congr 2
    omega
  · rfl

/-- One pass over the range applies `f` to the counter of each of its addresses, and to no other. -/
theorem cellGet_countersRange (f : Nat → Nat) (m : List (Nat × Nat)) (a : Addr) (n x : Nat)
    (hn : n ≤ 0x10000) (hx : x < 0x10000) :
    cellGet 0 (countersRange f m a n) x = if x ∈ rangeAddrs a n then f (cellGet 0 m x) else cellGet 0 m x := by
  have ha := a.isLt
  have hr := inRange_iff_mem a n x hn hx
  unfold countersRange
  rw [cellGet_countersRun, cellGet_countersRun]
  unfold inRange at hr
  by_cases h1 : a.toNat ≤ x ∧ x < a.toNat + n
  · rw [if_neg (by omega), if_pos (by omega), if_pos (hr.mp (.inl h1))]
  · by_cases h2 : x + 0x10000 < a.toNat + n
    · rw [if_pos (by omega), if_neg (by omega), if_pos (hr.mp (.inr h2))]
    · rw [if_neg (by omega), if_neg (by omega), if_neg (fun h => (hr.mpr h).elim h1 h2)]

theorem countersRange_wf (f : Nat → Nat) {m : List (Nat × Nat)} (hm : cellsWf 0 m) (a : Addr) (n : Nat) :
    cellsWf 0 (countersRange f m a n) :=
  cellPutRun_wf (cellPutRun_wf hm _ _) _ _

/-- Only CPU addresses are ever counted. -/
theorem countersRange_addrs (f : Nat → Nat) {m : List (Nat × Nat)} (hm : ∀ p ∈ m, p.1 < 0x10000) (a : Addr)
    (n : Nat) (hn : n ≤ 0x10000) : ∀ p ∈ countersRange f m a n, p.1 < 0x10000 := by
  have ha := a.isLt
  intro p hp
  rcases mem_cellPutRun hp with ⟨hp, -⟩ | hp
  · rcases mem_cellPutRun hp with ⟨hp, -⟩ | hp
    · exact hm p hp
    · simp only [List.length_map, List.length_range] at hp
      omega
  · simp only [List.length_map, List.length_range] at hp
    omega

/-- A listed cell in canonical form is what a read of its index gives. -/
theorem cellGet_of_mem {α : Type} {d : α} {m : List (Nat × α)} (hm : cellsWf d m) {p : Nat × α}
    (hp : p ∈ m) : cellGet d m p.1 = p.2 := by
  induction m with
  | nil => simp at hp
  | cons q m ih =>
    have hq := List.pairwise_cons.mp hm.1
    rcases List.mem_cons.mp hp with rfl | hp
    · exact if_pos rfl
    · have hlt := hq.1 p hp
      rw [show cellGet d (q :: m) p.1 = if q.1 = p.1 then q.2 else cellGet d m p.1 from rfl, if_neg (by omega)]
      exact ih ⟨hq.2, fun r hr => hm.2 r (by simp [hr])⟩ hp

theorem mem_rangeAddrs_iff_inWrap (a : Addr) (n x : Nat) : x ∈ rangeAddrs a n ↔ InWrap a n x := by
  simp [InWrap, rangeAddrs, eq_comm]

/-- One pass over the range, at every index, for a table that lists CPU addresses alone. -/
theorem cellGet_countersRange_inWrap (f : Nat → Nat) {m : List (Nat × Nat)} (hm : ∀ p ∈ m, p.1 < 0x10000) (a : Addr)
    (n x : Nat) (hn : n ≤ 0x10000) :
    (InWrap a n x → cellGet 0 (countersRange f m a n) x = f (cellGet 0 m x)) ∧
      (¬ InWrap a n x → cellGet 0 (countersRange f m a n) x = cellGet 0 m x) := by
  by_cases hx : x < 0x10000
  · rw [cellGet_countersRange _ _ _ _ _ hn hx, ← mem_rangeAddrs_iff_inWrap]
    exact ⟨fun h => if_pos h, fun h => if_neg h⟩
  · have hno : ¬ InWrap a n x := by
      rintro ⟨i, -, rfl⟩
      omega
    refine ⟨fun h => absurd h hno, fun _ => ?_⟩
    rw [cellGet_of_not_listed (m := m) (fun p hp => by have := hm p hp; omega), cellGet_of_not_listed]
    intro p hp
    have := countersRange_addrs f hm a n hn p hp
    omega

/-- What one pass over a range leaves of the read counters, for a table of CPU addresses (43_debug.md R190, R192). -/
theorem cellGet_countersMasked_wpR (f : Nat → Nat) {s : State} (hs : ∀ p ∈ s.wpR, p.1 < 0x10000) (a : Addr) (n : Nat)
    (c : Byte) (x : Nat) (hn : n ≤ 0x10000) :
    (maskRead c = true ∧ InWrap a n x → cellGet 0 (countersMasked f s a n c).wpR x = f (cellGet 0 s.wpR x)) ∧
      (¬ (maskRead c = true ∧ InWrap a n x) → cellGet 0 (countersMasked f s a n c).wpR x = cellGet 0 s.wpR x) := by
  by_cases hc : maskRead c = true
  · have hw : (countersMasked f s a n c).wpR = countersRange f s.wpR a n := by simp [countersMasked, hc]
    rw [hw]
    exact cellGet_countersRange_inWrap f hs a n x hn |>.imp (fun h k => h k.2) (fun h k => h (fun w => k ⟨hc, w⟩))
  · have hw : (countersMasked f s a n c).wpR = s.wpR := by simp [countersMasked, hc]
    rw [hw]
    exact ⟨fun h => absurd h.1 hc, fun _ => rfl⟩

/-- What one pass over a range leaves of the write counters, for a table of CPU addresses (43_debug.md R190, R192). -/
theorem cellGet_countersMasked_wpW (f : Nat → Nat) {s : State} (hs : ∀ p ∈ s.wpW, p.1 < 0x10000) (a : Addr) (n : Nat)
    (c : Byte) (x : Nat) (hn : n ≤ 0x10000) :
    (maskWrite c = true ∧ InWrap a n x → cellGet 0 (countersMasked f s a n c).wpW x = f (cellGet 0 s.wpW x)) ∧
      (¬ (maskWrite c = true ∧ InWrap a n x) → cellGet 0 (countersMasked f s a n c).wpW x = cellGet 0 s.wpW x) := by
  by_cases hc : maskWrite c = true
  · have hw : (countersMasked f s a n c).wpW = countersRange f s.wpW a n := by simp [countersMasked, hc]
    rw [hw]
    exact cellGet_countersRange_inWrap f hs a n x hn |>.imp (fun h k => h k.2) (fun h k => h (fun w => k ⟨hc, w⟩))
  · have hw : (countersMasked f s a n c).wpW = s.wpW := by simp [countersMasked, hc]
    rw [hw]
    exact ⟨fun h => absurd h.1 hc, fun _ => rfl⟩

/-- A watched access while the latch is unset is recorded (40_access.md R110). -/
theorem watchHit_recorded {s : State} {a : Addr} {acc : Access} (h : 0 < wpCount s acc a ∧ s.hitValid = false) :
    watchHit a acc s = { s with hitValid := true, hitAddr := a, hitAccess := acc } := by
  rw [watchHit, if_pos h]

/-- Any other access leaves the latch as it was (40_access.md R110). -/
theorem watchHit_skipped {s : State} {a : Addr} {acc : Access} (h : ¬ (0 < wpCount s acc a ∧ s.hitValid = false)) :
    watchHit a acc s = s := by
  rw [watchHit, if_neg h]

/-- No selected counter of the range is full (43_debug.md R190). -/
theorem someCounterFull_false {s : State} {a : Addr} {n : Nat} {c : Byte} :
    someCounterFull s a n c = false ↔
      ∀ x ∈ rangeAddrs a n,
        (maskRead c = true → cellGet 0 s.wpR x ≠ wpMax s.cfg) ∧
          (maskWrite c = true → cellGet 0 s.wpW x ≠ wpMax s.cfg) := by
  simp [someCounterFull]

/-- Some selected counter of the range is full (43_debug.md R190). -/
theorem someCounterFull_true {s : State} {a : Addr} {n : Nat} {c : Byte} :
    someCounterFull s a n c = true ↔
      ∃ x, InWrap a n x ∧
        (maskRead c = true ∧ cellGet 0 s.wpR x = wpMax s.cfg ∨
          maskWrite c = true ∧ cellGet 0 s.wpW x = wpMax s.cfg) := by
  simp [someCounterFull, mem_rangeAddrs_iff_inWrap]

end Sys2Proof.Machine
end

