-- ==== Sys2Proof/Laws/Exec.lean ====
section
/-!
SUPPORT. What each operation comes to in a state that meets the invariant, said once: no datapath fault is left, and
the bytes read and written are those of Safety.lean's `peek` and `storeAfter`. Later proofs cite `exec_wired` and do
not unfold a meaning.
-/

namespace Sys2Proof.Machine

variable {s t : State}

/-- What an operation comes to when the wiring is in order. -/
def comes (s : State) : Instr → OpResult
  | .read8 a => .done (tagAccess a .read (watchHit a .read s)) [peek s a]
  | .fetch8 a => .done (tagAccess a .fetch (watchHit a .read s)) [peek s a]
  | .write8 a v =>
    .done { tagAccess a .write (watchHit a .write s) with store := storeAfter s a [v] s.store } []
  | .getmem8 a => .done s (peekBytes s a 1)
  | .getmem16 a => .done s (peekBytes s a 2)
  | .getmem32 a => .done s (peekBytes s a 4)
  | .setmem8 a v => .done { s with store := storeAfter s a [v] s.store } []
  | .setmem16 a w => .done { s with store := storeAfter s a (toLe 2 w.toNat) s.store } []
  | .readblock a n => guarded [checkLength n.toNat] (.done s (peekBytes s a n.toNat))
  | .writeblock a bytes =>
    guarded [checkLength bytes.length] (.done { s with store := storeAfter s a bytes s.store } [])
  | .writebank b bytes =>
    guarded [checkBank s.cfg b, checkBankLength s.cfg bytes.length]
      (.done (storePutRun s (flatOffset s.cfg b 0) bytes) [])
  | .setslot i b => guarded [checkSlot s.cfg i, checkBank s.cfg b] (.done (wireSlot i.toNat b s) [])
  | .setnotpop i => guarded [checkSlot s.cfg i] (.done { s with slotPop := s.slotPop.set i.toNat false } [])
  | .setwp a n c =>
    guarded [checkMask c, checkLength n.toNat]
      (guarded [require (!someCounterFull s a n.toNat c) .wpOverflow]
        (.done (countersMasked (fun k => k + 1) s a n.toNat c) []))
  | .removewp a n c =>
    guarded [checkMask c, checkLength n.toNat] (.done (countersMasked (fun k => k - 1) s a n.toNat c) [])
  | .clearhit => .done { s with hitValid := false, hitAddr := 0#16, hitAccess := .read } []
  | .gethit => .done s (bitByte s.hitValid :: (toLe 2 s.hitAddr.toNat ++ [accessByte s.hitAccess]))
  | .serialize => .done s (snapshotOf s)
  | .deserialize bytes => guarded (snapshotChecks s.cfg bytes) (.done (restore s bytes) [])
  | .getsersize => .done s (toLe 4 (serSize s.cfg))
  | .clearvis => .done { s with vis := [] } []
  | .getvis => .done s ((List.range (visCount s.cfg)).map (fun k => tagByte (cellGet .none s.vis k)))
  | .iowrite p v => if s.lock then .done s [] else .done (runRules p v s) []
  | .setdisplay f => guarded [checkSelector s.cfg, checkFlag f] (.done { s with dispShadow := f.getLsbD 0 } [])

/-- The CPU's bookkeeping leaves the address decoder as it was. -/
theorem Wired.booked (h : Wired s) (a : Addr) (cls : VisTag) (acc : Access) (hv : bucketOf s.cfg a < visCount s.cfg) :
    Wired (tagAccess a cls (watchHit a acc s)) where
  cfgValid := by simpa using h.cfgValid
  bankLength := by simpa using h.bankLength
  banksExist := by simpa using h.banksExist
  popLength := by simpa using h.popLength
  romFlags := by simpa using h.romFlags
  storeBound := by simpa using h.storeBound
  wpRBound := by simpa using h.wpRBound
  wpWBound := by simpa using h.wpWBound
  visBound := by
    intro p hp
    rw [tagAccess_vis, watchHit_vis, watchHit_cfg] at hp
    rw [tagAccess_cfg, watchHit_cfg]
    rcases mem_cellSet hp with hp | ⟨rfl, -⟩
    · exact h.visBound p hp
    · exact hv
  noSelector := by simpa using h.noSelector
  codeOfRun := by simpa using h.codeOfRun

theorem Wired.bucketOf_lt (h : Wired s) (a : Addr) : bucketOf s.cfg a < visCount s.cfg :=
  Machine.bucketOf_lt (validate_none h.cfgValid).2.2.2.2.2.1 a

/-- The addresses land where they landed when cfg, wiring and ROM flags are the same. -/
theorem storeAfter_congr (hc : t.cfg = s.cfg) (hb : t.slotBank = s.slotBank) (hp : t.slotPop = s.slotPop)
    (hr : t.romBank = s.romBank) (a : Addr) (vs : List Byte) (m : Memory) :
    storeAfter t a vs m = storeAfter s a vs m := by
  induction vs generalizing a m with
  | nil => rfl
  | cons v vs ih =>
    have hl : landsAt t a = landsAt s a := by simp only [landsAt, populatedAt, wiredBank, hc, hb, hp, hr]
    have hf : flatOf t a = flatOf s a := by simp only [flatOf, wiredBank, hc, hb]
    rw [storeAfter, storeAfter, hl, hf, ih]

/-- Bytes of a read, put together and taken apart again (spec/20_memory.md R62). -/
theorem toLe_peekBytes (a : Addr) (n : Nat) : toLe n (ofLe (peekBytes s a n)) = peekBytes s a n := by
  simpa using toLe_ofLe (peekBytes s a n)

/-- Performing an operation of a state that meets the invariant (30_encoding.md R89, 60_exceptions.md R241). -/
theorem exec_wired (h : Wired s) (i : Instr) : exec i s = perform (fun s => comes s i) s := by
  have key : ∀ op op' : State → OpResult, op s = op' s → perform op s = perform op' s := by
    intro op op' ho; simp [perform, ho]
  cases i with
  | read8 a =>
    show perform (cpuRead a .read) s = _
    apply key; simp [cpuRead, memRead8_eq h, withValue, comes]
  | fetch8 a =>
    show perform (cpuRead a .fetch) s = _
    apply key; simp [cpuRead, memRead8_eq h, withValue, comes]
  | write8 a v =>
    have hb := storeAfter_congr (t := tagAccess a .write (watchHit a .write s)) (s := s) (by simp) (by simp)
      (by simp) (by simp) a [v] s.store
    show execWrite8 a v s = _
    unfold execWrite8
    apply key
    simp [answerWrite_eq (h.booked a .write .write (h.bucketOf_lt a)), comes, hb]
  | getmem8 a =>
    show execGetmem8 a s = _
    unfold execGetmem8
    apply key
    exact answerRead_eq h a 1
  | getmem16 a =>
    show execGetmem16 a s = _
    unfold execGetmem16
    apply key
    simp only [memRead_eq h, withValue, toLe_peekBytes, comes]
  | getmem32 a =>
    show execGetmem32 a s = _
    unfold execGetmem32
    apply key
    simp only [memRead_eq h, withValue, toLe_peekBytes, comes]
  | setmem8 a v =>
    show execSetmem8 a v s = _
    unfold execSetmem8
    apply key
    exact answerWrite_eq h a [v]
  | setmem16 a w =>
    show execSetmem16 a w s = _
    unfold execSetmem16
    apply key
    exact answerWrite_eq h a _
  | readblock a n =>
    show execReadblock a n s = _
    unfold execReadblock
    apply key
    simp only [answerRead_eq h, comes]
  | writeblock a bytes =>
    show execWriteblock a bytes s = _
    unfold execWriteblock
    apply key
    simp only [answerWrite_eq h, comes]
  | _ => rfl

/-- Performing an operation in a live state: done with status 0x00, or its fatal error. -/
theorem exec_live (h : Wired s) (hf : s.fatal = false) (i : Instr) :
    (∃ u result, comes s i = .done u result ∧ exec i s = .next (respond u (statusOk :: result))) ∨
      ∃ code, comes s i = .fatal code ∧ exec i s = .next (raiseFatal code s) := by
  rw [exec_wired h]
  cases hc : comes s i with
  | done u r => exact .inl ⟨u, r, rfl, perform_done hf hc⟩
  | fatal code => exact .inr ⟨code, rfl, perform_fatal hf hc⟩
  | fault f =>
    exfalso
    have hg : ∀ (ks : List Check) (r : OpResult), guarded ks r = .fault f → r = .fault f := by
      intro ks r hk
      rcases guarded_cases ks r with ⟨code, -, hr⟩ | ⟨-, hr⟩ <;> rw [hr] at hk
      · cases hk
      · exact hk
    cases i <;> simp only [comes] at hc <;> try cases hc
    case setwp => have := hg _ _ (hg _ _ hc); cases this
    case iowrite => split at hc <;> cases hc
    all_goals have := hg _ _ hc; cases this

/-- The codes operations raise are the run-time codes (60_exceptions.md R242). -/
theorem comes_fatal {i : Instr} {code : FatalCode} (hc : comes s i = .fatal code) : fatalByte code ∈ runtimeCodes := by
  have hg : ∀ (ks : List Check) (r : OpResult), guarded ks r = .fatal code → some code ∈ ks ∨ r = .fatal code := by
    intro ks r hk
    rcases guarded_cases ks r with ⟨c, hm, hr⟩ | ⟨-, hr⟩ <;> rw [hr] at hk
    · cases hk; exact .inl hm
    · exact .inr hk
  have hr : ∀ (ok : Bool) (c : FatalCode), some code = require ok c → code = c := by
    intro ok c hk
    cases ok
    · simpa using hk
    · cases hk
  cases i <;> simp only [comes] at hc <;> try cases hc
  case iowrite => split at hc <;> cases hc
  case setwp =>
    rcases hg _ _ hc with hm | hc
    · simp only [List.mem_cons, List.not_mem_nil, or_false, checkMask, checkLength] at hm
      rcases hm with hm | hm <;> rw [hr _ _ hm] <;> decide
    · rcases hg _ _ hc with hm | hc
      · rw [hr _ _ (by simpa using hm)]; decide
      · cases hc
  all_goals
    rcases hg _ _ hc with hm | hc
    · simp only [List.mem_cons, List.not_mem_nil, or_false, checkMask, checkLength, checkSlot, checkBank,
        checkBankLength, checkFlag, checkSelector, snapshotChecks] at hm
      first
        | (rw [hr _ _ hm]; decide)
        | (rcases hm with hm | hm <;> rw [hr _ _ hm] <;> decide)
        | (rcases hm with hm | hm | hm | hm | hm <;> rw [hr _ _ hm] <;> decide)
    · cases hc

/-- A live state is wired (Safety.lean). -/
theorem Live.wired (h : Live s) : Wired s := by
  rcases h.1.2 with hw | hd
  · exact hw
  · have hf := hd.1
    rw [h.2] at hf
    cases hf

/-- What every completed operation leaves as it was: the configuration, the ROM flags, the fatal state and the ports
(10_state.md section 1). -/
theorem comes_done {i : Instr} {u : State} {result : List Byte} (hc : comes s i = .done u result) :
    u.cfg = s.cfg ∧ u.romBank = s.romBank ∧ u.fatal = s.fatal ∧ u.fatalCode = s.fatalCode ∧
      u.responses = s.responses ∧ u.requests = s.requests ∧ u.pendingResets = s.pendingResets := by
  have hg : ∀ (ks : List Check) (v : State) (q : List Byte), guarded ks (.done v q) = .done u result →
      v = u ∧ q = result := by
    intro ks v q hk
    rcases guarded_cases ks (.done v q) with ⟨code, -, hr⟩ | ⟨-, hr⟩ <;> rw [hr] at hk <;> cases hk
    exact ⟨rfl, rfl⟩
  cases i <;> simp only [comes] at hc
  case setwp =>
    rcases guarded_cases [checkMask _, checkLength _] _ with ⟨code, -, hr⟩ | ⟨-, hr⟩ <;> rw [hr] at hc
    · cases hc
    · obtain ⟨rfl, rfl⟩ := hg _ _ _ hc
      simp
  case iowrite => split at hc <;> cases hc <;> simp
  all_goals first | (obtain ⟨rfl, rfl⟩ := hg _ _ _ hc; simp) | (cases hc; simp)

end Sys2Proof.Machine
end

