-- ==== Sys2Proof/Laws/Mapping.lean ====
section
/-!
SUPPORT. The rule interpreter over a list of rules (spec/42_mapping.md R168 to R170): a slot that no matching rule
names keeps its wiring, and the registers keep their number.
-/

namespace Sys2Proof.Machine

variable {p : Port} {v : Byte}

/-- A matching rule that names a slot wires it (42_mapping.md R168). -/
theorem applyRule_wires {x : State} {r : BankRule} (hm : p &&& r.portMask = r.portMatch) (hs : r.slot ≠ 0xFF#8) :
    applyRule p v x r = wireSlot r.slot.toNat (ruleBank r v) x := by
  rw [applyRule, if_pos ⟨by simpa [ruleMatches] using hm, hs⟩]

/-- Any other rule leaves the wiring as it was (42_mapping.md R168). -/
theorem applyRule_skips {x : State} {r : BankRule} (h : ¬ (p &&& r.portMask = r.portMatch ∧ r.slot ≠ 0xFF#8)) :
    applyRule p v x r = x := by
  rw [applyRule, if_neg (by simpa [ruleMatches] using h)]

/-- A slot that no matching rule of the list names keeps its bank and its populated bit (42_mapping.md R169). -/
theorem applyRules_other (j : Nat) (rs : List BankRule) (x : State)
    (h : ∀ r ∈ rs, ¬ (p &&& r.portMask = r.portMatch ∧ r.slot ≠ 0xFF#8 ∧ r.slot.toNat = j)) :
    (rs.foldl (applyRule p v) x).slotBank[j]? = x.slotBank[j]? ∧
      (rs.foldl (applyRule p v) x).slotPop[j]? = x.slotPop[j]? := by
  induction rs generalizing x with
  | nil => exact ⟨rfl, rfl⟩
  | cons q rs ih =>
    have hrest := ih (applyRule p v x q) (fun r hr => h r (by simp [hr]))
    rw [List.foldl_cons, hrest.1, hrest.2]
    by_cases hq : p &&& q.portMask = q.portMatch ∧ q.slot ≠ 0xFF#8
    · have hne : q.slot.toNat ≠ j := fun he => h q (by simp) ⟨hq.1, hq.2, he⟩
      rw [applyRule_wires hq.1 hq.2]
      simp [hne]
    · rw [applyRule_skips hq]
      exact ⟨rfl, rfl⟩

/-- The interpreter neither adds a slot nor takes one away. -/
theorem applyRules_lengths (rs : List BankRule) (x : State) :
    (rs.foldl (applyRule p v) x).slotBank.length = x.slotBank.length ∧
      (rs.foldl (applyRule p v) x).slotPop.length = x.slotPop.length := by
  induction rs generalizing x with
  | nil => exact ⟨rfl, rfl⟩
  | cons q rs ih =>
    rw [List.foldl_cons, (ih _).1, (ih _).2]
    by_cases hq : p &&& q.portMask = q.portMatch ∧ q.slot ≠ 0xFF#8
    · rw [applyRule_wires hq.1 hq.2]
      simp
    · rw [applyRule_skips hq]
      exact ⟨rfl, rfl⟩

/-- The bank a valid rule wires is the one its fields give, and it exists (42_mapping.md R166, R167). -/
theorem ruleBank_toNat {c : Config} {r : BankRule} (hv : ruleValid c r = true) (hs : r.slot ≠ 0xFF#8)
    (hb : c.bankCount ≤ 256) :
    (ruleBank r v).toNat
        = r.bankBase.toNat + r.bankScale.toNat * ((v.toNat / 2 ^ r.srcLsb.toNat) % 2 ^ r.srcWidth.toNat) ∧
      (ruleBank r v).toNat < c.bankCount := by
  have hmax := (ruleValid_slot hv hs).2
  have hm := Nat.mod_lt (v.toNat / 2 ^ r.srcLsb.toNat) (show 2 ^ r.srcWidth.toNat > 0 by positivity)
  have hle : r.bankScale.toNat * (v.toNat / 2 ^ r.srcLsb.toNat % 2 ^ r.srcWidth.toNat)
      ≤ r.bankScale.toNat * (2 ^ r.srcWidth.toNat - 1) := Nat.mul_le_mul_left _ (by omega)
  have he : (ruleBank r v).toNat
      = r.bankBase.toNat + r.bankScale.toNat * ((v.toNat / 2 ^ r.srcLsb.toNat) % 2 ^ r.srcWidth.toNat) := by
    unfold ruleBank
    rw [Nat.and_two_pow_sub_one_eq_mod, BitVec.toNat_ofNat, Nat.shiftRight_eq_div_pow, Nat.mod_eq_of_lt (by omega)]
  exact ⟨he, by omega⟩

end Sys2Proof.Machine
end

