-- ==== Sys2Proof/Laws/PerInstr.lean ====
section
/-!
SUPPORT. Facts of every request as syntax: the length that its opcode and its length field give is its length
(spec/30_encoding.md R81, R83, R84).
-/

namespace Sys2Proof.Laws.Framing

open Sys2Proof.Machine

/-- The total length of a request that can be sent is known from its opcode and, with a payload, its length field,
whatever follows it. -/
def Statement (i : Instr) : Prop :=
  i.wf = true → ∀ rest, requestLength (encode i ++ rest) = some (encode i).length

variable (a p w : BitVec 16) (n : Len24) (v b c f k : Byte) (bytes : List Byte)

theorem read8 : Statement (.read8 a) := fun _ _ => rfl
theorem fetch8 : Statement (.fetch8 a) := fun _ _ => rfl
theorem write8 : Statement (.write8 a v) := fun _ _ => rfl
theorem getmem8 : Statement (.getmem8 a) := fun _ _ => rfl
theorem getmem16 : Statement (.getmem16 a) := fun _ _ => rfl
theorem getmem32 : Statement (.getmem32 a) := fun _ _ => rfl
theorem setmem8 : Statement (.setmem8 a v) := fun _ _ => rfl
theorem setmem16 : Statement (.setmem16 a w) := fun _ _ => rfl
theorem readblock : Statement (.readblock a n) := fun _ _ => rfl

theorem writeblock : Statement (.writeblock a bytes) := by
  intro h rest
  have hl : bytes.length < 256 ^ 3 := by simpa [Instr.wf] using h
  have he : ofLe (toLe 3 bytes.length) = bytes.length := ofLe_toLe_of_lt hl
  simp [encode, requestLength] at he ⊢
  omega

theorem writebank : Statement (.writebank b bytes) := by
  intro h rest
  have hl : bytes.length < 256 ^ 3 := by simpa [Instr.wf] using h
  have he : ofLe (toLe 3 bytes.length) = bytes.length := ofLe_toLe_of_lt hl
  simp [encode, requestLength] at he ⊢
  omega

theorem setslot : Statement (.setslot k b) := fun _ _ => rfl
theorem setnotpop : Statement (.setnotpop k) := fun _ _ => rfl
theorem setwp : Statement (.setwp a n c) := fun _ _ => rfl
theorem removewp : Statement (.removewp a n c) := fun _ _ => rfl
theorem clearhit : Statement .clearhit := fun _ _ => rfl
theorem gethit : Statement .gethit := fun _ _ => rfl
theorem serialize : Statement .serialize := fun _ _ => rfl

theorem deserialize : Statement (.deserialize bytes) := by
  intro h rest
  have hl : bytes.length < 256 ^ 4 := by simpa [Instr.wf] using h
  have he : ofLe (toLe 4 bytes.length) = bytes.length := ofLe_toLe_of_lt hl
  simp [encode, requestLength] at he ⊢
  omega

theorem getsersize : Statement .getsersize := fun _ _ => rfl
theorem clearvis : Statement .clearvis := fun _ _ => rfl
theorem getvis : Statement .getvis := fun _ _ => rfl
theorem iowrite : Statement (.iowrite p v) := fun _ _ => rfl
theorem setdisplay : Statement (.setdisplay f) := fun _ _ => rfl

end Sys2Proof.Laws.Framing
end

