-- ==== Sys2Proof/Laws/Run.lean ====
section
/-!
SUPPORT. Runs and the observation made of them (spec/70_reset_and_hazards.md R283): the fields of a state a request is
sent to, what serving a sequence of requests can do, and when the fatal state refutes the observation.
-/

namespace Sys2Proof.Machine

section sendRequest

variable (s : State) (bytes : List Byte)

@[simp] theorem sendRequest_cfg : (s.sendRequest bytes).cfg = s.cfg := rfl
@[simp] theorem sendRequest_store : (s.sendRequest bytes).store = s.store := rfl
@[simp] theorem sendRequest_slotBank : (s.sendRequest bytes).slotBank = s.slotBank := rfl
@[simp] theorem sendRequest_slotPop : (s.sendRequest bytes).slotPop = s.slotPop := rfl
@[simp] theorem sendRequest_romBank : (s.sendRequest bytes).romBank = s.romBank := rfl
@[simp] theorem sendRequest_wpR : (s.sendRequest bytes).wpR = s.wpR := rfl
@[simp] theorem sendRequest_wpW : (s.sendRequest bytes).wpW = s.wpW := rfl
@[simp] theorem sendRequest_vis : (s.sendRequest bytes).vis = s.vis := rfl
@[simp] theorem sendRequest_hitValid : (s.sendRequest bytes).hitValid = s.hitValid := rfl
@[simp] theorem sendRequest_hitAddr : (s.sendRequest bytes).hitAddr = s.hitAddr := rfl
@[simp] theorem sendRequest_hitAccess : (s.sendRequest bytes).hitAccess = s.hitAccess := rfl
@[simp] theorem sendRequest_lock : (s.sendRequest bytes).lock = s.lock := rfl
@[simp] theorem sendRequest_dispShadow : (s.sendRequest bytes).dispShadow = s.dispShadow := rfl
@[simp] theorem sendRequest_fatal : (s.sendRequest bytes).fatal = s.fatal := rfl
@[simp] theorem sendRequest_fatalCode : (s.sendRequest bytes).fatalCode = s.fatalCode := rfl
@[simp] theorem sendRequest_requests : (s.sendRequest bytes).requests = s.requests ++ bytes := rfl
@[simp] theorem sendRequest_pendingResets : (s.sendRequest bytes).pendingResets = s.pendingResets := rfl
@[simp] theorem sendRequest_responses : (s.sendRequest bytes).responses = s.responses := rfl

/-- To an idle port the bytes of the request are all there is. -/
theorem sendRequest_of_idle (h : s.requests = []) : s.sendRequest bytes = { s with requests := bytes } := by
  rw [State.sendRequest, h, List.nil_append]

end sendRequest

/-- One request is an operation with its operands or a reserved opcode, with nothing after it. -/
theorem isOneRequest_iff {bytes : List Byte} :
    isOneRequest bytes = true ↔ (∃ i, decode bytes = .request i []) ∨ ∃ op, decode bytes = .reserved op [] := by
  unfold isOneRequest
  cases decode bytes <;> simp [List.isEmpty_iff]

/-! ### Serving a sequence of requests -/

variable {r : List Byte} {rs qs : List (List Byte)} {s t u : State}

@[simp] theorem serveAll_nil : serveAll [] s = .next s := rfl

theorem serveAll_cons_of_next (h : step (s.sendRequest r) = .next u) : serveAll (r :: rs) s = serveAll rs u := by
  rw [serveAll, h]

/-- Everything serving can have done when it answers a next state: every request of the sequence got its step. -/
theorem serveAll_cons_next :
    serveAll (r :: rs) s = .next t ↔ ∃ u, step (s.sendRequest r) = .next u ∧ serveAll rs u = .next t := by
  rw [serveAll]
  cases step (s.sendRequest r) <;> simp

/-- A run can be taken apart at any request. -/
theorem serveAll_append (h : serveAll rs s = .next u) : serveAll (rs ++ qs) s = serveAll qs u := by
  induction rs generalizing s with
  | nil => cases h; rfl
  | cons r rs ih =>
    obtain ⟨v, hv, hu⟩ := serveAll_cons_next.1 h
    rw [List.cons_append, serveAll_cons_of_next hv, ih hu]

/-! ### The observation -/

@[simp] theorem unlessFatal_of_fatal (h : s.fatal = true) (o : Observed) :
    unlessFatal s o = .fault (.fatalReached s.fatalCode) := by
  rw [unlessFatal, if_pos h]

@[simp] theorem unlessFatal_of_live (h : s.fatal = false) (o : Observed) : unlessFatal s o = o := by
  rw [unlessFatal, h]
  rfl

/-- An observation that has a result started from a state with no fatal error. -/
theorem unlessFatal_next {o : Observed} {q : RunResult} :
    unlessFatal s o = .next q ↔ s.fatal = false ∧ o = .next q := by
  cases h : s.fatal <;> simp [h]

/-- A run that starts in the fatal state is refuted, whatever is sent. -/
theorem observeFrom_of_fatal (h : s.fatal = true) : observeFrom rs s = .fault (.fatalReached s.fatalCode) := by
  cases rs <;> rw [observeFrom, unlessFatal_of_fatal h]

theorem observeFrom_nil_of_live (h : s.fatal = false) :
    observeFrom [] s = .next { responses := s.responses, after := s } := by
  rw [observeFrom, unlessFatal_of_live h]

theorem observeFrom_cons_of_next (h : s.fatal = false) (hs : step (s.sendRequest r) = .next u) :
    observeFrom (r :: rs) s = observeFrom rs u := by
  rw [observeFrom, unlessFatal_of_live h, hs]

/-- Everything an observation with a result tells of the first request. -/
theorem observeFrom_cons_next {q : RunResult} :
    observeFrom (r :: rs) s = .next q ↔
      s.fatal = false ∧ ∃ u, step (s.sendRequest r) = .next u ∧ observeFrom rs u = .next q := by
  rw [observeFrom, unlessFatal_next]
  cases step (s.sendRequest r) <;> simp

end Sys2Proof.Machine
end

