-- ==== Sys2Proof/Laws/Wire.lean ====
section
/-!
SUPPORT. Fields on the wire (spec/30_encoding.md R83): the bytes of Safety.lean's `le16Bytes`, `le24Bytes` and
`le32Bytes` are those the encoder writes, and reading a field's bytes gives its value back.
-/

namespace Sys2Proof.Machine

theorem toLe_two (w : BitVec 16) : toLe 2 w.toNat = le16Bytes w := by
  simp only [toLe_succ, toLe_zero, le16Bytes, List.cons.injEq, and_true]
  refine ⟨BitVec.eq_of_toNat_eq ?_, BitVec.eq_of_toNat_eq ?_⟩ <;>
    simp [BitVec.extractLsb'_toNat, Nat.shiftRight_eq_div_pow]

theorem toLe_three (w : BitVec 24) : toLe 3 w.toNat = le24Bytes w := by
  simp only [toLe_succ, toLe_zero, le24Bytes, List.cons.injEq, and_true]
  refine ⟨BitVec.eq_of_toNat_eq ?_, BitVec.eq_of_toNat_eq ?_, BitVec.eq_of_toNat_eq ?_⟩ <;>
    simp [BitVec.extractLsb'_toNat, Nat.shiftRight_eq_div_pow, Nat.div_div_eq_div_mul]

theorem toLe_four (w : BitVec 32) : toLe 4 w.toNat = le32Bytes w := by
  simp only [toLe_succ, toLe_zero, le32Bytes, List.cons.injEq, and_true]
  refine ⟨BitVec.eq_of_toNat_eq ?_, BitVec.eq_of_toNat_eq ?_, BitVec.eq_of_toNat_eq ?_,
    BitVec.eq_of_toNat_eq ?_⟩ <;>
    simp [BitVec.extractLsb'_toNat, Nat.shiftRight_eq_div_pow, Nat.div_div_eq_div_mul]

theorem ofLe_le16Bytes (w : BitVec 16) : BitVec.ofNat 16 (ofLe (le16Bytes w)) = w := by
  rw [← toLe_two, ofLe_toLe_of_lt w.isLt, BitVec.ofNat_toNat, BitVec.setWidth_eq]

theorem ofLe_le24Bytes (w : BitVec 24) : BitVec.ofNat 24 (ofLe (le24Bytes w)) = w := by
  rw [← toLe_three, ofLe_toLe_of_lt w.isLt, BitVec.ofNat_toNat, BitVec.setWidth_eq]

theorem ofLe_le32Bytes (w : BitVec 32) : BitVec.ofNat 32 (ofLe (le32Bytes w)) = w := by
  rw [← toLe_four, ofLe_toLe_of_lt w.isLt, BitVec.ofNat_toNat, BitVec.setWidth_eq]

/-- A length that fits its field is read back whole. -/
theorem ofLe_lengthField (n k : Nat) (h : k < 256 ^ n) (rest : List Byte) :
    ofLe ((toLe n k ++ rest).take n) = k := by
  rw [List.take_left' (toLe_length n k), ofLe_toLe_of_lt h]

/-- A payload followed by other bytes is taken off them in full (30_encoding.md R84). -/
theorem readPayload_append (k : List Byte → Instr) (bytes rest : List Byte) :
    readPayload bytes.length k (bytes ++ rest) = .request (k bytes) rest := by
  simp [readPayload]

end Sys2Proof.Machine
end

