-- ==== Sys2Proof/Tests/Slice0.lean ====
section
/-!
SUPPORT. Tests. Expected values are those of spec/95_test_vectors.md (the row is named) or of the rule named, worked
out by hand. The configurations TV-A, TV-C, TV-D and TV-E are that file's section 0; TV-A's one ROM byte that is not zero is
given here by INIT_STORE, which leaves the store that its ROM image leaves. The last sections show that the hypotheses
of every statement can be met.
-/

namespace Sys2Proof.Tests

open Sys2Proof Sys2Proof.Machine

/-! ### Configurations and helpers -/

def tvA : Config := presetZx48k { resetOpenParams with initStore := [(0, 0xF3#8)] }

def tvC : Config := presetZx128k resetOpenParams

def tvD : Config := presetAllRam { resetOpenParams with visualShift := 16, wpCntW := 1 }

def sA : State := State.resetWith tvA

def sC : State := State.resetWith tvC

def sD : State := State.resetWith tvD

/-- One step of `s` with the bytes as the requests on the port. -/
def send (s : State) (bytes : List Byte) : Out := step { s with requests := bytes }

/-- A field of the state a step answers. -/
def got {α : Type} (f : State → α) : Out → Option α
  | .next t => some (f t)
  | .fault _ => none
  | .refused _ => none

/-- The responses a step leaves. -/
def answers (o : Out) : Option (List (List Byte)) := got (fun t => t.responses) o

/-! ### Well-formed terms -/

theorem test_wf_writeblock_payload_too_long (x : Byte) :
    (Instr.writeblock 0#16 (List.replicate (2 ^ 24) x)).wf = false := by
  rw [Instr.wf, List.length_replicate]
  rfl

theorem test_wf_writebank_payload_too_long (x : Byte) :
    (Instr.writebank 0#8 (List.replicate (2 ^ 24) x)).wf = false := by
  rw [Instr.wf, List.length_replicate]
  rfl

theorem test_wf_deserialize_payload_too_long (x : Byte) :
    (Instr.deserialize (List.replicate (2 ^ 32) x)).wf = false := by
  rw [Instr.wf, List.length_replicate]
  rfl

theorem test_wf_longest_payload (x : Byte) : (Instr.writeblock 0#16 (List.replicate (2 ^ 24 - 1) x)).wf = true := by
  rw [Instr.wf, List.length_replicate]
  rfl

/-! ### Decoding: bytes written out from 30_encoding.md R83 to R85, one for each row of the opcode table -/

theorem test_decode_read8 : decode [0x01#8, 0x34#8, 0x12#8] = .request (.read8 0x1234#16) [] := by decide
theorem test_decode_fetch8 : decode [0x02#8, 0x34#8, 0x12#8] = .request (.fetch8 0x1234#16) [] := by decide
theorem test_decode_write8 :
    decode [0x03#8, 0x34#8, 0x12#8, 0x99#8] = .request (.write8 0x1234#16 0x99#8) [] := by decide
theorem test_decode_getmem8 : decode [0x04#8, 0xFE#8, 0xFF#8] = .request (.getmem8 0xFFFE#16) [] := by decide
theorem test_decode_getmem16 : decode [0x05#8, 0xFF#8, 0x7F#8] = .request (.getmem16 0x7FFF#16) [] := by decide
theorem test_decode_getmem32 : decode [0x06#8, 0x01#8, 0x80#8] = .request (.getmem32 0x8001#16) [] := by decide
theorem test_decode_setmem8 :
    decode [0x07#8, 0x00#8, 0x80#8, 0x5A#8] = .request (.setmem8 0x8000#16 0x5A#8) [] := by decide
theorem test_decode_setmem16 :
    decode [0x08#8, 0xFF#8, 0x7F#8, 0x34#8, 0x12#8] = .request (.setmem16 0x7FFF#16 0x1234#16) [] := by decide
theorem test_decode_readblock :
    decode [0x09#8, 0x34#8, 0x12#8, 0x03#8, 0x02#8, 0x01#8] = .request (.readblock 0x1234#16 0x010203#24) [] := by
  decide
theorem test_decode_writeblock :
    decode [0x0A#8, 0x34#8, 0x12#8, 0x02#8, 0x00#8, 0x00#8, 0xAA#8, 0xBB#8, 0x11#8]
      = .request (.writeblock 0x1234#16 [0xAA#8, 0xBB#8]) [0x11#8] := by decide
theorem test_decode_writebank :
    decode [0x0B#8, 0x07#8, 0x01#8, 0x00#8, 0x00#8, 0xCC#8] = .request (.writebank 0x07#8 [0xCC#8]) [] := by decide
theorem test_decode_setslot : decode [0x0C#8, 0x03#8, 0x01#8] = .request (.setslot 0x03#8 0x01#8) [] := by decide
theorem test_decode_setnotpop : decode [0x0D#8, 0x02#8] = .request (.setnotpop 0x02#8) [] := by decide
theorem test_decode_setwp :
    decode [0x0E#8, 0x00#8, 0x40#8, 0x02#8, 0x00#8, 0x01#8, 0x03#8]
      = .request (.setwp 0x4000#16 0x010002#24 0x03#8) [] := by decide
theorem test_decode_removewp :
    decode [0x0F#8, 0x00#8, 0x40#8, 0x01#8, 0x00#8, 0x00#8, 0x02#8]
      = .request (.removewp 0x4000#16 1#24 0x02#8) [] := by decide
theorem test_decode_clearhit : decode [0x10#8] = .request .clearhit [] := by decide
theorem test_decode_gethit : decode [0x11#8] = .request .gethit [] := by decide
theorem test_decode_serialize : decode [0x12#8] = .request .serialize [] := by decide
theorem test_decode_deserialize :
    decode [0x13#8, 0x03#8, 0x00#8, 0x00#8, 0x00#8, 0x04#8, 0x00#8, 0x01#8]
      = .request (.deserialize [0x04#8, 0x00#8, 0x01#8]) [] := by decide
theorem test_decode_getsersize : decode [0x14#8] = .request .getsersize [] := by decide
theorem test_decode_clearvis : decode [0x15#8] = .request .clearvis [] := by decide
theorem test_decode_getvis : decode [0x16#8] = .request .getvis [] := by decide
theorem test_decode_iowrite :
    decode [0x17#8, 0xFD#8, 0x7F#8, 0x30#8] = .request (.iowrite 0x7FFD#16 0x30#8) [] := by decide
theorem test_decode_setdisplay : decode [0x18#8, 0x01#8] = .request (.setdisplay 0x01#8) [] := by decide

/-- The neighbours of the opcode range are reserved (30_encoding.md R87). -/
theorem test_decode_reserved :
    decode [0x00#8, 0x55#8] = .reserved 0x00#8 [0x55#8] ∧ decode [0x19#8] = .reserved 0x19#8 [] ∧
      decode [0xFF#8] = .reserved 0xFF#8 [] := by decide

theorem test_decode_truncated :
    decode [0x03#8, 0x00#8, 0x40#8] = .truncated ∧
      decode [0x0A#8, 0x00#8, 0x40#8, 0x02#8, 0x00#8, 0x00#8, 0xAA#8] = .truncated := by decide

/-- Words of spec/opcode_table.json: the opcode alone, every other bit 0. -/
theorem test_decodeTableWord :
    decodeTableWord 8 0x10 = some .clearhit ∧ decodeTableWord 24 0x123401 = some (.read8 0x1234#16) ∧
      decodeTableWord 48 0x0A = some (.writeblock 0#16 []) ∧ decodeTableWord 8 0 = none := by decide

/-! ### CPU accesses and debugger accessors (95 section 3) -/

/-- AC1 -/
theorem test_read8 :
    answers (send sA [0x01#8, 0x00#8, 0x00#8]) = some [[0x00#8, 0xF3#8]] ∧
      got (fun t => t.vis) (send sA [0x01#8, 0x00#8, 0x00#8]) = some [(0, .read)] := by decide

/-- AC22: an unpopulated address answers 0xFF and is watched all the same. -/
theorem test_read8_unpopulated_watched :
    got (fun t => (t.responses, t.hitValid, t.hitAddr, t.hitAccess))
      (send { sA with slotPop := [true, true, false, true], wpR := [(0x8000, 1)] } [0x01#8, 0x00#8, 0x80#8])
      = some ([[0x00#8, 0xFF#8]], true, 0x8000#16, .read) := by decide

/-- AC2, AC9: the FETCH tag, the read counter. -/
theorem test_fetch8 :
    got (fun t => (t.responses, t.vis, t.hitValid, t.hitAccess))
      (send { sA with wpR := [(0x0000, 1)] } [0x02#8, 0x00#8, 0x00#8])
      = some ([[0x00#8, 0xF3#8]], [(0, .fetch)], true, .read) := by decide

/-- AC8: only the write counter is set. -/
theorem test_fetch8_write_watch_only :
    got (fun t => t.hitValid) (send { sA with wpW := [(0x4000, 1)] } [0x02#8, 0x00#8, 0x40#8]) = some false := by
  decide

/-- W2 -/
theorem test_write8 :
    got (fun t => (t.responses, t.store, t.vis)) (send sA [0x03#8, 0x00#8, 0x40#8, 0x42#8])
      = some ([[0x00#8]], [(0, 0xF3#8), (0x4000, 0x42#8)], [(0x40, .write)]) := by decide

/-- AC10: the write to ROM is discarded, the hit is recorded. -/
theorem test_write8_rom_watched :
    got (fun t => (t.store, t.hitValid, t.hitAddr, t.hitAccess))
      (send { sA with wpW := [(0, 1)] } [0x03#8, 0x00#8, 0x00#8, 0x99#8])
      = some ([(0, 0xF3#8)], true, 0x0000#16, .write) := by decide

/-- AC11: no bookkeeping. -/
theorem test_getmem8 :
    got (fun t => (t.responses, t.hitValid, t.vis)) (send { sA with wpR := [(0, 1)] } [0x04#8, 0x00#8, 0x00#8])
      = some ([[0x00#8, 0xF3#8]], false, []) := by decide

/-- AC13: the wrap at 0xFFFF. -/
theorem test_getmem16_wraps : answers (send sA [0x05#8, 0xFF#8, 0xFF#8]) = some [[0x00#8, 0x00#8, 0xF3#8]] := by decide

/-- AC15: the sentinel for the unpopulated byte alone. -/
theorem test_getmem16_half_unpopulated :
    answers (send { sA with slotPop := [true, true, false, true], store := [(0x7FFF, 0x34#8), (0x8000, 0x12#8)] }
      [0x05#8, 0xFF#8, 0x7F#8]) = some [[0x00#8, 0x34#8, 0xFF#8]] := by decide

/-- AC14 -/
theorem test_getmem32_wraps :
    answers (send sA [0x06#8, 0xFE#8, 0xFF#8]) = some [[0x00#8, 0x00#8, 0x00#8, 0xF3#8, 0x00#8]] := by decide

/-- AC16 -/
theorem test_getmem32_unpopulated :
    answers (send { sA with slotPop := [true, false, true, true] } [0x06#8, 0x00#8, 0x40#8])
      = some [[0x00#8, 0xFF#8, 0xFF#8, 0xFF#8, 0xFF#8]] := by decide

/-- AC20 -/
theorem test_setmem8 :
    got (fun t => (t.store, t.vis)) (send sA [0x07#8, 0x00#8, 0x80#8, 0x5A#8])
      = some ([(0, 0xF3#8), (0x8000, 0x5A#8)], []) := by decide

/-- AC12 -/
theorem test_setmem16_straddles :
    got (fun t => t.store) (send sA [0x08#8, 0xFF#8, 0x7F#8, 0x34#8, 0x12#8])
      = some [(0, 0xF3#8), (0x7FFF, 0x34#8), (0x8000, 0x12#8)] := by decide

/-- AC18: the high byte wraps to ROM and is discarded. -/
theorem test_setmem16_wraps_to_rom :
    got (fun t => t.store) (send sA [0x08#8, 0xFF#8, 0xFF#8, 0xCD#8, 0xAB#8])
      = some [(0, 0xF3#8), (0xFFFF, 0xCD#8)] := by decide

/-- AC21, through the debugger's read: two slots wired to one bank share its bytes. -/
theorem test_getmem8_aliased :
    answers (send { sA with slotBank := [0#8, 1#8, 1#8, 3#8], store := [(0x4010, 0x3C#8)] } [0x04#8, 0x10#8, 0x80#8])
      = some [[0x00#8, 0x3C#8]] := by decide

/-! ### Block transfers (95 section 4) -/

/-- BL2 -/
theorem test_readblock_unpopulated :
    answers (send { sA with slotPop := [true, false, true, true] } [0x09#8, 0xFE#8, 0x3F#8, 0x04#8, 0x00#8, 0x00#8])
      = some [[0x00#8, 0x00#8, 0x00#8, 0xFF#8, 0xFF#8]] := by decide

/-- BL5 -/
theorem test_readblock_too_long :
    got (fun t => (t.responses, t.fatal, t.fatalCode)) (send sA [0x09#8, 0x00#8, 0x00#8, 0x01#8, 0x00#8, 0x01#8])
      = some ([[0x82#8]], true, 0x02#8) := by decide

/-- BL6 -/
theorem test_writeblock_over_rom :
    got (fun t => t.store) (send sA [0x0A#8, 0xFE#8, 0x3F#8, 0x03#8, 0x00#8, 0x00#8, 0xAA#8, 0xBB#8, 0xCC#8])
      = some [(0, 0xF3#8), (0x4000, 0xCC#8)] := by decide

/-- BL9 -/
theorem test_writeblock_empty :
    got (fun t => (t.responses, t.store)) (send sA [0x0A#8, 0x00#8, 0x40#8, 0x00#8, 0x00#8, 0x00#8])
      = some ([[0x00#8]], [(0, 0xF3#8)]) := by decide

/-- BL15: BAD_BANK comes before BANK_LENGTH. -/
theorem test_writebank_bad_bank :
    answers (send sA [0x0B#8, 0x04#8, 0x01#8, 0x00#8, 0x00#8, 0x77#8]) = some [[0x84#8]] := by decide

/-- TV-E: 128 slots, 128 banks. -/
def sE : State :=
  State.resetWith (preset resetOpenParams 128 128 [] ((List.range 128).map (fun i => (i, true))) [] none)

/-- BL10 in TV-E: bank 1 is replaced, its neighbours are not. -/
theorem test_writebank :
    got (fun t => (t.responses, cellGet 0#8 t.store 0x1FF, cellGet 0#8 t.store 0x200, cellGet 0#8 t.store 0x3FF,
        cellGet 0#8 t.store 0x400))
      (send sE ([0x0B#8, 0x01#8, 0x00#8, 0x02#8, 0x00#8] ++ List.replicate 0x200 0x5A#8))
      = some ([[0x00#8]], 0x00#8, 0x5A#8, 0x5A#8, 0x00#8) := by
  decide +kernel

/-! ### Wiring, rules, display (95 section 5) -/

/-- MP1 -/
theorem test_setslot :
    got (fun t => (t.slotBank, t.slotPop)) (send sA [0x0C#8, 0x03#8, 0x01#8])
      = some ([0#8, 1#8, 2#8, 1#8], [true, true, true, true]) := by decide

/-- MP4: BAD_SLOT first. -/
theorem test_setslot_bad_slot : answers (send sA [0x0C#8, 0x04#8, 0x04#8]) = some [[0x83#8]] := by decide

/-- MP5: the bank index is kept. -/
theorem test_setnotpop :
    got (fun t => (t.slotBank, t.slotPop)) (send sA [0x0D#8, 0x01#8])
      = some ([0#8, 1#8, 2#8, 3#8], [true, false, true, true]) := by decide

/-- MP6 -/
theorem test_setnotpop_bad_slot : answers (send sA [0x0D#8, 0x04#8]) = some [[0x83#8]] := by decide

/-- MP13: both rules match, and the lock bit is set. -/
theorem test_iowrite_locks :
    got (fun t => (t.slotBank, t.lock)) (send sC [0x17#8, 0xFD#8, 0x7F#8, 0x30#8])
      = some ([9#8, 5#8, 2#8, 0#8], true) := by decide

/-- MP14: ignored while locked. -/
theorem test_iowrite_locked :
    got (fun t => (t.responses, t.slotBank)) (send { sC with lock := true } [0x17#8, 0xFD#8, 0x7F#8, 0x07#8])
      = some ([[0x00#8]], [8#8, 5#8, 2#8, 0#8]) := by decide

/-- MP21 -/
theorem test_setdisplay_shadow : got displayBank (send sC [0x18#8, 0x01#8]) = some (some 7) := by decide

/-- MP10, MP23 -/
theorem test_setdisplay_fatal :
    answers (send sA [0x18#8, 0x00#8]) = some [[0x81#8]] ∧ answers (send sC [0x18#8, 0x02#8]) = some [[0x82#8]] := by
  decide

/-! ### Watchpoints, hit latch, visual memory (95 section 6) -/

/-- DB5: the range wraps. -/
theorem test_setwp_wraps :
    got (fun t => t.wpW) (send sA [0x0E#8, 0xFF#8, 0xFF#8, 0x02#8, 0x00#8, 0x00#8, 0x02#8])
      = some [(0, 1), (0xFFFF, 1)] := by decide

/-- DB12: one full counter in the range, and none changes. -/
theorem test_setwp_overflow :
    got (fun t => (t.responses, t.wpR))
      (send { sD with wpR := [(0x1001, 1)] } [0x0E#8, 0x00#8, 0x10#8, 0x02#8, 0x00#8, 0x00#8, 0x01#8])
      = some ([[0x88#8]], [(0x1001, 1)]) := by decide

/-- W8: one of two overlapping watchpoints is removed. -/
theorem test_removewp :
    got (fun t => t.wpR) (send { sA with wpR := [(0x4000, 2)] } [0x0F#8, 0x00#8, 0x40#8, 0x01#8, 0x00#8, 0x00#8, 0x01#8])
      = some [(0x4000, 1)] := by decide

/-- FT6: removing where nothing is watched is no error. -/
theorem test_removewp_clamps :
    got (fun t => (t.responses, t.wpR)) (send sA [0x0F#8, 0x00#8, 0x00#8, 0x01#8, 0x00#8, 0x00#8, 0x01#8])
      = some ([[0x00#8]], []) := by decide

/-- DB14 -/
theorem test_gethit :
    answers (send { sA with hitValid := true, hitAddr := 0x4000#16, hitAccess := .write } [0x11#8])
      = some [[0x00#8, 0x01#8, 0x00#8, 0x40#8, 0x01#8]] := by decide

/-- DB14 -/
theorem test_clearhit :
    got (fun t => (t.hitValid, t.hitAddr, t.hitAccess))
      (send { sA with hitValid := true, hitAddr := 0x4000#16, hitAccess := .write } [0x10#8])
      = some (false, 0x0000#16, .read) := by decide

/-- 43_debug.md R200 with one bucket (TV-D). -/
theorem test_getvis : answers (send { sD with vis := [(0, .fetch)] } [0x16#8]) = some [[0x00#8, 0x03#8]] := by decide

/-- DB20 -/
theorem test_clearvis : got (fun t => t.vis) (send { sA with vis := [(0x40, .write)] } [0x15#8]) = some [] := by decide

/-! ### Snapshot (95 section 7) -/

/-- SN1 -/
theorem test_getsersize :
    answers (send sA [0x14#8]) = some [[0x00#8, 0x09#8, 0x00#8, 0x01#8, 0x00#8]] := by decide

/-- SN13 -/
theorem test_getsersize_one_slot :
    answers (send sD [0x14#8]) = some [[0x00#8, 0x06#8, 0x00#8, 0x01#8, 0x00#8]] := by decide

/-- SN7, then SN9 and SN4 without the store bytes: the slot count is checked before the length field. -/
theorem test_deserialize_order :
    answers (send sA [0x13#8, 3#8, 0#8, 0#8, 0#8, 4#8, 0#8, 1#8]) = some [[0x87#8]] ∧
    answers (send sA [0x13#8, 9#8, 0#8, 0#8, 0#8, 8#8, 0#8, 1#8, 2#8, 3#8, 0#8, 0x80#8, 0#8, 0#8]) = some [[0x87#8]] ∧
    answers (send sA [0x13#8, 9#8, 0#8, 0#8, 0#8, 4#8, 0#8, 1#8, 2#8, 3#8, 0#8, 0x80#8, 0#8, 0#8]) = some [[0x86#8]] := by
  decide

/-- SN3, SN10, SN11, with the first bytes of the store only: what the restored state takes from the snapshot. -/
theorem test_deserialize_restored_state :
    let t := restore { sA with vis := [(0x40, .read)], slotPop := [true, true, false, true] }
      [4#8, 0#8, 0#8, 0#8, 1#8, 0#8, 0#8, 1#8, 0#8, 0xF3#8, 0x5A#8]
    t.slotBank = [0#8, 0#8, 0#8, 1#8] ∧ t.store = [(0, 0xF3#8), (1, 0x5A#8)] ∧ t.vis = [] ∧
      t.slotPop = [true, true, false, true] := by decide

/-- SN2: the first nine bytes of the snapshot. -/
theorem test_serialize_header :
    (snapshotOf { sA with slotPop := [true, false, true, true] }).take 9
      = [4#8, 0#8, 1#8, 2#8, 3#8, 0#8, 0#8, 1#8, 0#8] := by
  simp only [snapshotOf]
  decide

/-! ### Fatal errors and reset (95 sections 8 and 9) -/

/-- FT1, FT3 -/
theorem test_fatal_then_dead :
    got (fun t => (t.responses, t.fatal, t.fatalCode)) (send sA [0x19#8]) = some ([[0x81#8]], true, 0x01#8) ∧
      answers (send { sA with fatal := true, fatalCode := 0x01#8 } [0x0C#8, 0x09#8, 0x09#8]) = some [[0x81#8]] := by
  decide

/-- RS1 -/
theorem test_reset :
    sA.fatal = false ∧ sA.store = [(0, 0xF3#8)] ∧ sA.slotBank = [0#8, 1#8, 2#8, 3#8] ∧ sA.hitValid = false ∧
      sA.vis = [] ∧ sA.wpR = [] := by decide

/-- RS2, RS3, RS4, RS5, RS6 -/
theorem test_reset_counts :
    (State.resetWith { tvA with slotCount := 3 }).fatalCode = 0x10#8 ∧
      (State.resetWith { tvA with bankCount := 2 }).fatalCode = 0x11#8 ∧
      (State.resetWith { tvA with slotCount := 3, bankCount := 2 }).fatalCode = 0x10#8 ∧
      (State.resetWith { tvA with slotCount := 256, bankCount := 256 }).fatalCode = 0x10#8 ∧
      (State.resetWith { tvA with bankCount := 257 }).fatalCode = 0x11#8 := by decide

/-- RS11, RS12, RS14, RS15 -/
theorem test_reset_geometry :
    (State.resetWith { tvA with
      slots := [some ⟨0, 0x3FFF, 0, true⟩, some ⟨0x4000, 0x7FFF, 1, true⟩, some ⟨0x8000, 0xBFFF, 2, true⟩,
        some ⟨0xC000, 0xFFFF, 4, true⟩] }).fatalCode = 0x13#8 ∧
      (State.resetWith { tvA with
        slots := [some ⟨0, 0x3FFF, 0, true⟩, some ⟨0x4000, 0x5FFF, 1, true⟩, some ⟨0x8000, 0xBFFF, 2, true⟩,
          some ⟨0xC000, 0xFFFF, 3, true⟩] }).fatalCode = 0x13#8 ∧
      (State.resetWith { tvA with visualShift := 17 }).fatalCode = 0x13#8 ∧
      (State.resetWith { tvA with hasDisplaySelect := true, displayShadowBank := 4 }).fatalCode = 0x13#8 := by decide

/-- RS13: a gap. -/
theorem test_reset_gap :
    got (fun t => (t.responses, t.slotPop, t.slotBank))
      (send (State.resetWith { tvA with
        slots := [some ⟨0, 0x3FFF, 0, true⟩, some ⟨0x4000, 0x7FFF, 1, true⟩, none, some ⟨0xC000, 0xFFFF, 3, true⟩] })
        [0x01#8, 0x00#8, 0x80#8])
      = some ([[0x00#8, 0xFF#8]], [true, true, false, true], [0#8, 1#8, 0#8, 3#8]) := by decide

/-- 10_state.md R23, 92 D44: a slot given as unpopulated with a bank starts with bank 0 (slot 1), even where that bank
does not exist (slot 2). -/
theorem test_reset_unpopulated_bank :
    (fun t : State => (t.fatal, t.slotPop, t.slotBank)) (State.resetWith { tvA with
        slots := [some ⟨0, 0x3FFF, 0, true⟩, some ⟨0x4000, 0x7FFF, 3, false⟩, some ⟨0x8000, 0xBFFF, 4, false⟩,
          some ⟨0xC000, 0xFFFF, 3, true⟩] })
      = (false, [true, false, false, true], [0#8, 0#8, 0#8, 3#8]) := by decide

/-- RS16, RS17, RS18 -/
theorem test_reset_rules :
    (State.resetWith { tvA with rules := [{ ruleRam128 with srcLsb := 6#3, srcWidth := 3#4 }] }).fatalCode = 0x14#8 ∧
      (State.resetWith { tvA with rules := [{ ruleRam128 with portMatch := 0x0001#16, srcWidth := 2#4 }] }).fatalCode
        = 0x14#8 ∧
      (State.resetWith { tvC with rules := [ruleRam128, { ruleRom128 with srcWidth := 2#4 }] }).fatalCode = 0x14#8 := by
  decide

/-- RS7, RS10, with shorter images. -/
theorem test_reset_rom_image :
    (State.resetWith { tvA with romImages := [⟨0, [0xF3#8], 0⟩] }).fatalCode = 0x12#8 ∧
      (State.resetWith { tvA with romImages := [⟨4, [], 0⟩] }).fatalCode = 0x12#8 := by decide

/-- RS20: a reset event leaves the fatal state (70_reset_and_hazards.md R270). -/
theorem test_reset_event :
    got (fun t => (t.fatal, t.requests, t.pendingResets))
      (step { sA with fatal := true, fatalCode := 0x01#8, pendingResets := [⟨tvC, [0x11#8]⟩] })
      = some (false, [0x11#8], []) := by decide

/-! ### Runs (70_reset_and_hazards.md R283) -/

/-- A run of two requests that raise nothing: its result is the two responses and the state after them. -/
theorem test_run_observed :
    (match observe tvA [[0x01#8, 0x00#8, 0x00#8], [0x11#8]] with
      | .next q => some (q.responses, q.after.responses, q.after.fatal)
      | .fault _ => none
      | .refused _ => none)
      = some ([[0x00#8, 0xF3#8], [0x00#8, 0x00#8, 0x00#8, 0x00#8, 0x00#8]],
          [[0x00#8, 0xF3#8], [0x00#8, 0x00#8, 0x00#8, 0x00#8, 0x00#8]], false) := by decide

/-- FT1, FT3 as one run: the reserved opcode is answered 0x81, and so is the request after it, and the run's observation
is refuted with code 0x01; and so is that of a run from a failed reset. -/
theorem test_run_refuted :
    answers (serveAll [[0x19#8], [0x0C#8, 0x09#8, 0x09#8]] sA) = some [[0x81#8], [0x81#8]] ∧
      (match observe tvA [[0x19#8], [0x0C#8, 0x09#8, 0x09#8]] with
        | .next _ => none
        | .fault f => some f
        | .refused _ => none) = some (.fatalReached 0x01#8) ∧
      (match observe { tvA with slotCount := 3 } [[0x11#8]] with
        | .next _ => none
        | .fault f => some f
        | .refused _ => none) = some (.fatalReached 0x10#8) := by decide

/-! ### Presets (70_reset_and_hazards.md R276) and the text form (30_encoding.md R91, R92) -/

/-- W13 and TV-B: the wiring of the extended-bank machine, with the rules of 42_mapping.md R174. -/
theorem test_preset_extended :
    (presetExtended resetOpenParams 18 16 17 [ruleRam8k 6#8 0#8 5#4, ruleRam8k 7#8 1#8 15#4]).map
        (fun c => (State.resetWith c).slotBank)
      = some [16#8, 17#8, 10#8, 11#8, 4#8, 5#8, 0#8, 1#8] := by decide

/-- The bounds of the row of R276: 16 and 224 banks make the preset and it resets, 15 and 225 make none. -/
theorem test_preset_extended_bounds :
    [15, 16, 224, 225].map (fun n =>
        (presetExtended resetOpenParams n 2 3 []).map (fun c => (State.resetWith c).fatal))
      = [none, some false, some false, none] := by decide +kernel

/-- The ZX16K row of R276 has fewer banks than slots, which R271 refuses with CFG_BANK_COUNT (log 22). -/
theorem test_preset_zx16k_refused : (State.resetWith (presetZx16k resetOpenParams)).fatalCode = 0x11#8 := by decide

theorem test_assemble_write8 :
    assembleLine tvA [] "write8 0x4000, 0x42 ; store".toList = .request (.write8 0x4000#16 0x42#8) := by
  decide +kernel

theorem test_assemble_pseudo :
    assembleLine tvA [] "unmap 2".toList = .request (.setnotpop 2#8) ∧
      assembleLine tvA [] "map 2, 1".toList = .request (.setslot 2#8 1#8) := by
  decide +kernel

/-! ### Witnesses: a live state that is not the reset state, and the hypotheses of the statements met together -/

/-- TV-C with RAM 3 at slot 3's place taken out, watched addresses, a tag, and bytes in the store. -/
def demo : State :=
  { sC with slotPop := [true, true, true, false], wpR := [(0x4000, 1), (0x5000, 255)], wpW := [(0x4000, 2)],
            vis := [(0x40, .read)], store := [(0x8010, 0x11#8), (0x14003, 0x55#8), (0x20000, 0xF3#8)] }

theorem demo_tidy : Tidy demo where
  storeWf := by decide
  wpRWf := by decide
  wpWWf := by decide
  wpRAddrs := by decide
  wpWAddrs := by decide
  visWf := by decide
  hitUnset := by decide
  noCode := by decide

theorem demo_wired : Wired demo where
  cfgValid := by decide
  bankLength := by decide
  banksExist := by decide
  popLength := by decide
  romFlags := by decide
  storeBound := by decide
  wpRBound := by decide
  wpWBound := by decide
  visBound := by decide
  noSelector := by decide
  codeOfRun := by decide

/-- Meets the one hypothesis of the statements over every live state: CpuReadsAnswerAndBook, Write8LandsAndBooks,
GetMemoryAnswersLittleEndian, SetMemoryWritesBytewise, HitLatchClearedAndRead, VisualMemoryClearedAndRead,
SerializeLayout, SnapshotRoundTrip, SerializedSizeIsConstant, MemoryAccessesNeverFatal, TranslationTilesTheStore. -/
theorem witness_live : Live demo := ⟨⟨demo_tidy, .inl demo_wired⟩, rfl⟩

/-- A live state in which the latch is set and the rules are locked. -/
def demoHit : State := { demo with hitValid := true, hitAddr := 0x4001#16, hitAccess := .write, lock := true }

theorem witness_live_hit_locked : Live demoHit :=
  ⟨⟨{ demo_tidy with hitUnset := by decide }, .inl { demo_wired with }⟩, rfl⟩

/-- A live state without the display selector (TV-A). -/
theorem witness_live_no_selector : Live sA where
  left := {
    left := ⟨by decide, by decide, by decide, by decide, by decide, by decide, by decide, by decide⟩
    right := .inl ⟨by decide, by decide, by decide, by decide, by decide, by decide, by decide, by decide, by decide,
      by decide, by decide⟩ }
  right := by decide

/-- A block that met a fatal error at run time, and one whose reset failed: both meet the invariant. -/
def demoDead : State := { demo with fatal := true, fatalCode := 0x05#8 }

theorem witness_dead : Inv demoDead :=
  ⟨{ demo_tidy with noCode := by decide }, .inl { demo_wired with codeOfRun := by decide }⟩

theorem witness_dead_at_reset : Inv (State.resetWith { tvA with slotCount := 3 }) where
  left := ⟨by decide, by decide, by decide, by decide, by decide, by decide, by decide, by decide⟩
  right := .inr ⟨by decide, by decide⟩

/-- StepRunsDecodedRequest -/
theorem witness_StepRunsDecodedRequest :
    decode { demo with requests := [0x11#8, 0x10#8] }.requests = .request .gethit [0x10#8] := by decide

/-- DecodeOfEncode -/
theorem witness_DecodeOfEncode : (Instr.writebank 0x03#8 [0xAA#8]).wf = true := by decide

/-- DecodedRequestsAreEncodings -/
theorem witness_DecodedRequestsAreEncodings : decode [0x0D#8, 0x02#8, 0x11#8] = .request (.setnotpop 0x02#8) [0x11#8] := by
  decide

/-- ReservedOpcodesRaiseIllegalOp: the reserved opcodes next to the table, a block without the selector, and the first
and last opcode of the table. -/
theorem witness_ReservedOpcodesRaiseIllegalOp :
    { demo with requests := [0x00#8, 0x11#8] }.requests = 0x00#8 :: [0x11#8] ∧
      0x19 ≤ (0x19#8 : Byte).toNat ∧ sA.cfg.hasDisplaySelect = false ∧
      0x01 ≤ (0x01#8 : Byte).toNat ∧ (0x18#8 : Byte).toNat ≤ 0x18 := by decide

/-- The live state of the first clause. -/
theorem witness_ReservedOpcodesRaiseIllegalOp_live : Live { demo with requests := [0x00#8, 0x11#8] } :=
  ⟨⟨{ demo_tidy with }, .inl { demo_wired with }⟩, rfl⟩

/-- TruncatedRequestsRefused: one byte of four, and three of four. -/
theorem witness_TruncatedRequestsRefused :
    (Instr.write8 0x4000#16 0x42#8).wf = true ∧ 3 < (encode (.write8 0x4000#16 0x42#8)).length ∧
      { demo with requests := [0x03#8, 0x00#8, 0x40#8] }.requests = (encode (.write8 0x4000#16 0x42#8)).take 3 ∧
      { demo with requests := [0x03#8] }.requests = (encode (.write8 0x4000#16 0x42#8)).take 1 ∧
      demo.pendingResets = [] := by decide

/-- IdleBlockDoesNothing -/
theorem witness_IdleBlockDoesNothing : demo.requests = [] ∧ demo.pendingResets = [] := by decide

/-- ResetEventRebuildsBlock: nothing on the port, and an unfinished request. -/
theorem witness_ResetEventRebuildsBlock :
    decode { demo with pendingResets := [⟨tvA, []⟩] }.requests = .noRequest ∧
      decode { demo with requests := [0x01#8, 0x00#8], pendingResets := [⟨tvA, []⟩] }.requests = .truncated ∧
      { demo with pendingResets := [⟨tvA, []⟩] }.pendingResets = ⟨tvA, []⟩ :: [] := by decide

/-- CpuReadsAnswerAndBook, Write8LandsAndBooks: a watched address while the latch is unset, an unwatched one, and a set
latch; a byte that lands, one of a ROM bank, one of an unpopulated slot. -/
theorem witness_CpuAccess_cases :
    (demo.hitValid = false ∧ 0 < cellGet 0 demo.wpR (0x4000#16 : Addr).toNat) ∧
      ¬ (0 < cellGet 0 demo.wpW (0x4001#16 : Addr).toNat) ∧ demoHit.hitValid = true ∧
      landsAt demo 0x4003#16 = true ∧ landsAt demo 0x0000#16 = false ∧ landsAt demo 0xC000#16 = false := by decide

/-- UnpopulatedBytesReadAllOnes: all bytes in the unpopulated slot, and only the last. -/
theorem witness_UnpopulatedBytesReadAllOnes :
    populatedAt demo 0xC000#16 = false ∧ populatedAt demo (0xC000#16 + 1#16) = false ∧
      populatedAt demo (0xC000#16 + 2#16) = false ∧ populatedAt demo (0xC000#16 + 3#16) = false ∧
      populatedAt demo 0xBFFF#16 = true := by decide

/-- ReadBlockAnswersEachAddress, WriteBlockKeepsLastByte, and the removals of MemoryAccessesNeverFatal: the greatest
legal size, and the next one. -/
theorem witness_block_sizes :
    (0x10000#24 : Len24).toNat ≤ 0x10000 ∧ 0x10000 < (0x10001#24 : Len24).toNat ∧ (0x03#8 : Byte).toNat < 4 := by decide

theorem witness_WriteBlockKeepsLastByte :
    ([0x11#8, 0x22#8] : List Byte).length ≤ 0x10000 ∧
      (landsAt demo (0x3FFF#16 + BitVec.ofNat 16 0) = false ∧ landsAt demo (0x3FFF#16 + BitVec.ofNat 16 1) = true) ∧
      (∀ j, 1 < j → j < 2 → landsAt demo (0x3FFF#16 + BitVec.ofNat 16 j) = true →
        flatOf demo (0x3FFF#16 + BitVec.ofNat 16 j) ≠ flatOf demo (0x3FFF#16 + BitVec.ofNat 16 1)) ∧
      (∀ i < 2, landsAt demo (0x3FFF#16 + BitVec.ofNat 16 i) = true →
        flatOf demo (0x3FFF#16 + BitVec.ofNat 16 i) ≠ 0x8010) := by
  refine ⟨by decide, by decide, fun j h1 h2 => by omega, by decide⟩

theorem witness_WriteBlockKeepsLastByte_too_long (x : Byte) : 0x10000 < (List.replicate 0x10001 x).length := by
  rw [List.length_replicate]
  decide

/-- WriteBankReplacesBank: the last bank with a payload of its size, a bank that does not exist, a payload one short. -/
theorem witness_WriteBankReplacesBank (x : Byte) :
    (0x09#8 : Byte).toNat < demo.cfg.bankCount ∧ (List.replicate 0x4000 x).length = bankSize demo.cfg ∧
      demo.cfg.bankCount ≤ (0x0A#8 : Byte).toNat ∧ (List.replicate 0x3FFF x).length ≠ bankSize demo.cfg ∧
      (List.replicate 0x4000 x).length < 2 ^ 24 := by
  rw [List.length_replicate, List.length_replicate]
  decide

/-- SetSlotWiresAndPopulates, SetNotPopHidesSlot: the last slot and bank, and the first that do not exist; an address
of the slot and one that is not. -/
theorem witness_SetSlotWiresAndPopulates :
    (0x03#8 : Byte).toNat < demo.cfg.slotCount ∧ (0x09#8 : Byte).toNat < demo.cfg.bankCount ∧
      demo.cfg.slotCount ≤ (0x04#8 : Byte).toNat ∧ demo.cfg.bankCount ≤ (0x0A#8 : Byte).toNat ∧
      (0xFFFF#16 : Addr).toNat / bankSize demo.cfg = (0x03#8 : Byte).toNat ∧
      (0xBFFF#16 : Addr).toNat / bankSize demo.cfg ≠ (0x03#8 : Byte).toNat := by decide

/-- IoWriteAppliesMatchingRules: both rules match port 0x7FFD; rule 0 is the last that names slot 3, rule 1 the last
that names slot 0, and none names slot 1. -/
theorem witness_IoWriteAppliesMatchingRules :
    demo.lock = false ∧ demo.cfg.rules = [] ++ ruleRam128 :: [ruleRom128] ∧
      demo.cfg.rules = [ruleRam128] ++ ruleRom128 :: [] ∧
      (0x7FFD#16 &&& ruleRam128.portMask = ruleRam128.portMatch ∧ ruleRam128.slot ≠ 0xFF#8 ∧
        ruleRam128.slot.toNat = 3 ∧ ruleRom128.slot.toNat ≠ 3) ∧
      (0x7FFD#16 &&& ruleRom128.portMask = ruleRom128.portMatch ∧ ruleRom128.slot.toNat = 0) ∧
      (∀ r ∈ demo.cfg.rules, r.slot.toNat ≠ 1) := by decide

/-- The locked block of IoWriteAppliesMatchingRules, and IoWriteUnmatchedDoesNothing: a port that no rule matches. -/
theorem witness_IoWriteUnmatchedDoesNothing :
    demoHit.lock = true ∧ ∀ r ∈ demo.cfg.rules, 0x00FE#16 &&& r.portMask ≠ r.portMatch := by decide

/-- SetDisplaySelectsBank -/
theorem witness_SetDisplaySelectsBank :
    demo.cfg.hasDisplaySelect = true ∧ sA.cfg.hasDisplaySelect = false ∧ ¬ ((0x02#8 : Byte) = 0#8 ∨ (0x02#8 : Byte) = 1#8) := by decide

/-- SetWatchpointCounts, RemoveWatchpointClamps: a legal request that meets no full counter, one that wraps, one that
meets a full counter, and the two kinds of illegal one. -/
theorem witness_SetWatchpointCounts :
    ((0x03#8 : Byte).toNat < 4 ∧ (0x10000#24 : Len24).toNat ≤ 0x10000) ∧
      (∀ x, InWrap 0x4000#16 1 x → cellGet 0 demo.wpR x ≠ 2 ^ demo.cfg.wpCntW - 1) ∧
      InWrap 0xFFFF#16 2 0 ∧
      (InWrap 0x4FFF#16 2 0x5000 ∧ (0x01#8 : Byte).getLsbD 0 = true ∧
        cellGet 0 demo.wpR 0x5000 = 2 ^ demo.cfg.wpCntW - 1) ∧
      ¬ (0x04#8 : Byte).toNat < 4 ∧ ¬ (0x10001#24 : Len24).toNat ≤ 0x10000 := by
  refine ⟨by decide, ?_, ⟨1, by decide, by decide⟩, ⟨⟨1, by decide, by decide⟩, by decide⟩, by decide, by decide⟩
  rintro x ⟨i, hi, rfl⟩
  obtain rfl : i = 0 := by omega
  decide

/-- AddThenRemoveRestoresTable: the add succeeds from a live state; the removal that follows does too. -/
theorem witness_AddThenRemoveRestoresTable :
    got (fun t => t.fatal) (exec (.setwp 0x4000#16 2#24 0x03#8) demo) = some false ∧
      got (fun t => t.fatal) (exec (.removewp 0x4000#16 2#24 0x03#8)
        { demo with wpR := [(0x4000, 2), (0x4001, 1), (0x5000, 255)] }) = some false := by decide

/-- TV-C's snapshot with an empty store and every slot wired to the last bank. -/
def demoSnapshot : List Byte :=
  [0x04#8, 0x09#8, 0x09#8, 0x09#8, 0x09#8, 0x00#8, 0x80#8, 0x02#8, 0x00#8] ++ List.replicate 0x28000 0#8

/-- DeserializeChecksThenRestores: a snapshot that passes every check. -/
theorem witness_DeserializeChecksThenRestores :
    demoSnapshot.length = 1 + demo.cfg.slotCount + 4 + demo.cfg.bankCount * bankSize demo.cfg ∧
      demoSnapshot.length < 2 ^ 32 ∧ (demoSnapshot.getD 0 0#8).toNat = demo.cfg.slotCount ∧
      (∀ i < demo.cfg.slotCount, (demoSnapshot.getD (1 + i) 0#8).toNat < demo.cfg.bankCount) ∧
      (demoSnapshot.getD 5 0#8).toNat + 256 * (demoSnapshot.getD 6 0#8).toNat
        + 65536 * (demoSnapshot.getD 7 0#8).toNat + 16777216 * (demoSnapshot.getD 8 0#8).toNat
        = demo.cfg.bankCount * bankSize demo.cfg := by
  have hlow : ∀ i < 9, demoSnapshot.getD i 0#8
      = [0x04#8, 0x09#8, 0x09#8, 0x09#8, 0x09#8, 0x00#8, 0x80#8, 0x02#8, 0x00#8].getD i 0#8 := by
    intro i hi
    unfold demoSnapshot
    rw [List.getD_append _ _ _ _ (by simpa using hi)]
  have hlen : demoSnapshot.length = 0x28009 := by
    unfold demoSnapshot
    rw [List.length_append, List.length_replicate]
    decide
  refine ⟨hlen, by rw [hlen]; decide, ?_, fun i hi => ?_, ?_⟩
  · rw [hlow 0 (by decide)]
    decide
  · have hi : i < 4 := hi
    rw [hlow (1 + i) (by omega)]
    revert i
    decide
  · rw [hlow 5 (by decide), hlow 6 (by decide), hlow 7 (by decide), hlow 8 (by decide)]
    decide

/-- The bytes of a snapshot that is too short, one with a wrong length field, and one whose length field is right but
that ends before its store. -/
def badSnapshots : List (List Byte) :=
  [[0x04#8, 0x00#8], [0x04#8, 0#8, 1#8, 2#8, 9#8, 0x00#8, 0x00#8, 0x01#8, 0x00#8],
   [0x04#8, 0#8, 1#8, 2#8, 9#8, 0x00#8, 0x80#8, 0x02#8, 0x00#8]]

/-- DeserializeChecksThenRestores: each check is the first to fail for one of them. -/
theorem witness_DeserializeChecksThenRestores_failures :
    badSnapshots.map (fun x => got (fun t => t.fatalCode) (exec (.deserialize x) demo))
      = [some 0x07#8, some 0x06#8, some 0x07#8] := by decide

/-- DeadBlockPerformsNothing, FatalUntilReset: a dead block with a reserved opcode on the port, and one whose reset
event is served. -/
theorem witness_DeadBlockPerformsNothing :
    { demoDead with requests := [0x19#8] }.fatal = true ∧ { demoDead with requests := [0x19#8] }.requests = 0x19#8 :: [] ∧
      got (fun t => (t.fatal, t.fatalCode)) (step { demoDead with requests := [0x19#8] }) = some (true, 0x05#8) ∧
      got (fun t => t.fatal) (step { demoDead with pendingResets := [⟨tvA, []⟩] }) = some false := by decide

/-- FatalErrorsArePrecise: an operation of a live block that raises a fatal error. -/
theorem witness_FatalErrorsArePrecise : got (fun t => t.fatal) (exec (.setslot 0x04#8 0x00#8) demo) = some true := by
  decide

/-- EveryOperationIsAnswered, StepKeepsInvariant, NoStepLeavesTheStore, HitLatchWriters, LockClearedOnlyByReset,
StateWrittenOnlyAsListed, VisualMemoryNeverMatters: steps of live and of dead states that meet the invariant
(`witness_live_hit_locked`, `witness_dead`, `witness_dead_at_reset`) answer a next state. -/
theorem witness_steps_answered :
    got (fun t => t.lock) (exec .clearvis demoHit) = some true ∧ got (fun t => t.fatal) (exec .gethit demoDead) = some true ∧
      got (fun t => t.hitValid) (step { demoHit with requests := [0x01#8, 0x00#8, 0x40#8] }) = some true ∧
      got (fun t => t.responses) (exec .clearhit (State.resetWith { tvA with slotCount := 3 })) = some [[0x90#8]] := by
  decide

/-- TranslationTilesTheStore: two addresses in two slots, each with its flat offset. -/
theorem witness_TranslationTilesTheStore :
    translate demo 0x0001#16 = .ok ⟨0, 8#8, 0x20001⟩ ∧ translate demo 0x5B00#16 = .ok ⟨1, 5#8, 0x15B00⟩ := by decide

/-- AliasedSlotsShareBytes: slot 2 wired to the bank of slot 1. -/
theorem witness_AliasedSlotsShareBytes :
    landsAt { demo with slotBank := [8#8, 5#8, 5#8, 0#8] } 0x4003#16 = true ∧
      populatedAt { demo with slotBank := [8#8, 5#8, 5#8, 0#8] } 0x8003#16 = true ∧
      wiredBank { demo with slotBank := [8#8, 5#8, 5#8, 0#8] } 0x8003#16
        = wiredBank { demo with slotBank := [8#8, 5#8, 5#8, 0#8] } 0x4003#16 ∧
      (0x8003#16 : Addr).toNat % bankSize demo.cfg = (0x4003#16 : Addr).toNat % bankSize demo.cfg ∧
      got (fun t => t.fatal)
        (exec (.write8 0x4003#16 0x77#8) { demo with slotBank := [8#8, 5#8, 5#8, 0#8] }) = some false := by decide

theorem witness_AliasedSlotsShareBytes_live : Live { demo with slotBank := [8#8, 5#8, 5#8, 0#8] } :=
  ⟨⟨{ demo_tidy with }, .inl { demo_wired with bankLength := by decide, banksExist := by decide }⟩, rfl⟩

/-- RomBytesProtected: an operation that answers, and a byte of a ROM bank. -/
theorem witness_RomBytesProtected :
    got (fun t => t.fatal) (exec (.write8 0x0000#16 0x99#8) demo) = some false ∧ demo.romBank[8]? = some true ∧
      0x3FFF < bankSize demo.cfg ∧ demo.romBank[7]? = some false := by decide

/-- SuccessfulResetState, RomImagesLoadedInOrder: a configuration that resets, with slots the definition leaves out
and slots it defines, populated and not, and a bank that no image names. -/
theorem witness_SuccessfulResetState :
    construct { tvA with slots := [some ⟨0, 0x3FFF, 0, true⟩, some ⟨0x4000, 0x7FFF, 3, false⟩, none] }
        = .ok [(0, 0xF3#8)] ∧
      tvA.romImages = [] ∧ (3 : Nat) < tvA.bankCount := by decide

/-- A small definition of 128 slots with two images for bank 0. -/
def tvRoms : Config :=
  preset { resetOpenParams with romImages := [⟨0, List.replicate 0x200 0x11#8, 0⟩, ⟨0, List.replicate 0x201 0x22#8, 1⟩] }
    128 128 [true] ((List.range 128).map (fun i => (i, true))) [] none

/-- RomImagesLoadedInOrder: the second image is the last of bank 0. -/
theorem witness_RomImagesLoadedInOrder :
    validate tvRoms = none ∧
      tvRoms.romImages = [⟨0, List.replicate 0x200 0x11#8, 0⟩] ++ ⟨0, List.replicate 0x201 0x22#8, 1⟩ :: [] ∧
      (0x1FF : Nat) < bankSize tvRoms := by
  refine ⟨by decide, rfl, by decide⟩

/-- It resets, and bank 0 holds the slice of the second image. -/
theorem witness_RomImagesLoadedInOrder_resets :
    (match construct tvRoms with
      | .ok m => cellGet 0#8 m 0 == 0x22#8
      | .error _ => false) = true := by
  decide +kernel

/-- RomLoadIsWriteBank -/
theorem witness_RomLoadIsWriteBank :
    tvRoms.romImages = [⟨0, List.replicate 0x200 0x11#8, 0⟩] ++ [⟨0, List.replicate 0x201 0x22#8, 1⟩] := rfl

/-- FailedResetReportsFirstCheck: each check is the first to fail in some configuration (`test_reset_counts`,
`test_reset_geometry`, `test_reset_rules`, `test_reset_rom_image`), and TV-C passes them all. -/
theorem witness_FailedResetReportsFirstCheck :
    (State.resetWith tvC).fatal = false ∧ (State.resetWith { tvA with slotCount := 256 }).fatal = true := by decide

/-- FatalStateRefutesObservation: a reset that fails; a run from a live state whose second request of three is the
first to raise a fatal error; a run whose observation has a result (`test_run_observed`). `demo` meets the invariant. -/
theorem witness_FatalStateRefutesObservation :
    (State.resetWith { tvA with slotCount := 3 }).fatal = true ∧ demo.pendingResets = [] ∧
      got (fun t => (t.fatal, t.fatalCode)) (serveAll [[0x11#8], [0x0D#8, 0x04#8]] demo) = some (true, 0x03#8) ∧
      got (fun t => t.fatal) (serveAll ([[0x11#8]] ++ [[0x10#8]]) demo) = some false := by decide

/-- RunServesEveryRequest: two requests and a reserved opcode, on an idle port; a live state and a dead one. -/
theorem witness_RunServesEveryRequest :
    demo.requests = [] ∧ demo.pendingResets = [] ∧ demoDead.requests = [] ∧ demoDead.pendingResets = [] ∧
      (∀ r ∈ [[0x11#8], [0x01#8, 0x00#8, 0x40#8], [0x19#8]], isOneRequest r = true) ∧
      isOneRequest [0x11#8, 0x11#8] = false := by decide

end Sys2Proof.Tests
end

/-!
PROOFS. The state's invariant and the writers of its items (spec/10_state.md). `Effect` says once what an operation
can do to the state items, with the checks it passed (`exec_next`); the statements of this part are read off it.
-/

namespace Sys2Proof.Machine

variable {s t u : State} {i : Instr} {c : Config}

/-! ### Operand checks (30_encoding.md R82, R88) -/

@[simp] theorem checkLength_eq_none {n : Nat} : checkLength n = none ↔ n ≤ 0x10000 := by
  simp [checkLength, require_eq_none]

@[simp] theorem checkSlot_eq_none {k : Byte} : checkSlot c k = none ↔ k.toNat < c.slotCount := by
  simp [checkSlot, require_eq_none]

@[simp] theorem checkBank_eq_none {b : Byte} : checkBank c b = none ↔ b.toNat < c.bankCount := by
  simp [checkBank, require_eq_none]

@[simp] theorem checkBankLength_eq_none {n : Nat} : checkBankLength c n = none ↔ n = bankSize c := by
  simp [checkBankLength, require_eq_none]

@[simp] theorem checkSelector_eq_none : checkSelector c = none ↔ c.hasDisplaySelect = true := by
  simp [checkSelector, require_eq_none]

/-- A guarded operation completes exactly when every check passes and the operation behind them completes. -/
theorem guarded_eq_done {checks : List Check} {r : OpResult} {result : List Byte} :
    guarded checks r = .done u result ↔ (∀ k ∈ checks, k = none) ∧ r = .done u result := by
  rcases guarded_cases checks r with ⟨code, hm, hg⟩ | ⟨hn, hg⟩ <;> rw [hg]
  · exact ⟨nofun, fun h => nomatch h.1 _ hm⟩
  · exact ⟨fun h => ⟨hn, h⟩, And.right⟩

/-! ### What an operation can do to the state items -/

/-- Every effect an operation can have on the state items, with the facts its checks give. -/
inductive Effect (s : State) : Instr → State → Prop
  /-- nothing is written: a read, an IOWRITE under the lock, or an operation that is not performed -/
  | none (i : Instr) : Effect s i s
  | read8 (a : Addr) : Effect s (.read8 a) (tagAccess a .read (watchHit a .read s))
  | fetch8 (a : Addr) : Effect s (.fetch8 a) (tagAccess a .fetch (watchHit a .read s))
  | write8 (a : Addr) (v : Byte) :
    Effect s (.write8 a v) { tagAccess a .write (watchHit a .write s) with store := storeAfter s a [v] s.store }
  | setmem8 (a : Addr) (v : Byte) : Effect s (.setmem8 a v) { s with store := storeAfter s a [v] s.store }
  | setmem16 (a : Addr) (w : Half) :
    Effect s (.setmem16 a w) { s with store := storeAfter s a (toLe 2 w.toNat) s.store }
  | writeblock (a : Addr) (bytes : List Byte) :
    Effect s (.writeblock a bytes) { s with store := storeAfter s a bytes s.store }
  | writebank (b : Byte) (bytes : List Byte) (hb : b.toNat < s.cfg.bankCount) (hl : bytes.length = bankSize s.cfg) :
    Effect s (.writebank b bytes) (storePutRun s (flatOffset s.cfg b 0) bytes)
  | setslot (k b : Byte) (hk : k.toNat < s.cfg.slotCount) (hb : b.toNat < s.cfg.bankCount) :
    Effect s (.setslot k b) (wireSlot k.toNat b s)
  | setnotpop (k : Byte) (hk : k.toNat < s.cfg.slotCount) :
    Effect s (.setnotpop k) { s with slotPop := s.slotPop.set k.toNat false }
  | setwp (a : Addr) (n : Len24) (c : Byte) (hn : n.toNat ≤ 0x10000) (hf : someCounterFull s a n.toNat c = false) :
    Effect s (.setwp a n c) (countersMasked (fun k => k + 1) s a n.toNat c)
  | removewp (a : Addr) (n : Len24) (c : Byte) (hn : n.toNat ≤ 0x10000) :
    Effect s (.removewp a n c) (countersMasked (fun k => k - 1) s a n.toNat c)
  | clearhit : Effect s .clearhit { s with hitValid := false, hitAddr := 0#16, hitAccess := .read }
  | deserialize (bytes : List Byte) (hb : ∀ b ∈ snapshotBanks s.cfg bytes, b.toNat < s.cfg.bankCount)
    (hl : bytes.length = serSize s.cfg) : Effect s (.deserialize bytes) (restore s bytes)
  | clearvis : Effect s .clearvis { s with vis := [] }
  | iowrite (p : Port) (v : Byte) (hl : s.lock = false) : Effect s (.iowrite p v) (runRules p v s)
  | setdisplay (f : Byte) (hd : s.cfg.hasDisplaySelect = true) :
    Effect s (.setdisplay f) { s with dispShadow := f.getLsbD 0 }

/-- A snapshot that passes the checks names banks that exist and has the length of a snapshot (44_snapshot.md R224). -/
theorem snapshotChecks_pass {bytes : List Byte} (h : ∀ k ∈ snapshotChecks c bytes, k = none) :
    (∀ b ∈ snapshotBanks c bytes, b.toNat < c.bankCount) ∧ bytes.length = serSize c := by
  simp only [snapshotChecks, List.forall_mem_cons, require_eq_none, decide_eq_true_eq, List.all_eq_true] at h
  obtain ⟨-, -, hbanks, -, hlength, -⟩ := h
  exact ⟨hbanks, hlength⟩

/-- An operation that completes has one of the effects listed. -/
theorem effect_of_done {result : List Byte} (h : comes s i = .done u result) : Effect s i u := by
  cases i <;> simp only [comes, guarded_eq_done, List.forall_mem_cons, checkLength_eq_none, checkSlot_eq_none,
    checkBank_eq_none, checkBankLength_eq_none, checkSelector_eq_none, require_eq_none] at h
  case read8 a => cases h; exact .read8 a
  case fetch8 a => cases h; exact .fetch8 a
  case write8 a v => cases h; exact .write8 a v
  case setmem8 a v => cases h; exact .setmem8 a v
  case setmem16 a w => cases h; exact .setmem16 a w
  case clearhit => cases h; exact .clearhit
  case clearvis => cases h; exact .clearvis
  case readblock a n => obtain ⟨-, ⟨⟩⟩ := h; exact .none _
  case writeblock a bytes => obtain ⟨-, ⟨⟩⟩ := h; exact .writeblock a bytes
  case writebank b bytes => obtain ⟨⟨hb, hl, -⟩, ⟨⟩⟩ := h; exact .writebank b bytes hb hl
  case setslot k b => obtain ⟨⟨hk, hb, -⟩, ⟨⟩⟩ := h; exact .setslot k b hk hb
  case setnotpop k => obtain ⟨⟨hk, -⟩, ⟨⟩⟩ := h; exact .setnotpop k hk
  case setwp a n c => obtain ⟨⟨-, hn, -⟩, ⟨hf, -⟩, ⟨⟩⟩ := h; exact .setwp a n c hn (by simpa using hf)
  case removewp a n c => obtain ⟨⟨-, hn, -⟩, ⟨⟩⟩ := h; exact .removewp a n c hn
  case deserialize bytes =>
    obtain ⟨hchecks, ⟨⟩⟩ := h
    obtain ⟨hb, hl⟩ := snapshotChecks_pass hchecks
    exact .deserialize bytes hb hl
  case setdisplay f => obtain ⟨⟨hd, -⟩, ⟨⟩⟩ := h; exact .setdisplay f hd
  case iowrite p v =>
    split at h <;> cases h
    · exact .none _
    · next hl => exact .iowrite p v (by simpa using hl)
  all_goals cases h; exact .none _

/-- No operation is performed in the fatal state (60_exceptions.md R243). -/
theorem exec_dead (h : s.fatal = true) (i : Instr) : exec i s = .next (answerDead s) := by
  cases i <;> exact if_pos h

/-- A state that meets the invariant and has met no fatal error is wired. -/
theorem Inv.wired (h : Inv s) (hf : s.fatal = false) : Wired s := Live.wired ⟨h, hf⟩

/-- Everything an operation can do in a state that meets the invariant: it is not performed (60_exceptions.md R243),
it raises a fatal error with a run-time code (R241), or it completes with one of its effects. -/
theorem exec_next (hi : Inv s) (h : exec i s = .next t) :
    (s.fatal = true ∧ t = answerDead s) ∨
      (s.fatal = false ∧ ∃ code, fatalByte code ∈ runtimeCodes ∧ t = raiseFatal code s) ∨
      (s.fatal = false ∧ ∃ u result, Effect s i u ∧ t = respond u (statusOk :: result)) := by
  cases hf : s.fatal with
  | true =>
    rw [exec_dead hf] at h
    cases h
    exact .inl ⟨rfl, rfl⟩
  | false =>
    rcases exec_live (hi.wired hf) hf i with ⟨u, result, hc, he⟩ | ⟨code, hc, he⟩ <;> cases he.symm.trans h
    · exact .inr (.inr ⟨rfl, u, result, effect_of_done hc, rfl⟩)
    · exact .inr (.inl ⟨rfl, code, comes_fatal hc, rfl⟩)

/-- Beside the fatal state and the responses, an operation leaves the state of one of its effects. -/
theorem exec_next_effect (hi : Inv s) (h : exec i s = .next t) :
    ∃ u, Effect s i u ∧ t = { u with fatal := t.fatal, fatalCode := t.fatalCode, responses := t.responses } := by
  rcases exec_next hi h with ⟨-, rfl⟩ | ⟨-, code, -, rfl⟩ | ⟨-, u, result, hu, rfl⟩
  · exact ⟨s, .none i, rfl⟩
  · exact ⟨s, .none i, rfl⟩
  · exact ⟨u, hu, rfl⟩

/-- Everything a step can do when it answers a next state: an operation, a reserved opcode (30_encoding.md R87), a
reset event (70_reset_and_hazards.md R270), or nothing (60_exceptions.md R256). -/
theorem step_next (h : step s = .next t) :
    (∃ i rest, exec i { s with requests := rest } = .next t) ∨
      (∃ rest, performReserved { s with requests := rest } = .next t) ∨
      (∃ e later, s.pendingResets = e :: later ∧ t = serveReset e later) ∨ t = s := by
  have hidle (hn : noRequestStep s = .next t) :
      (∃ e later, s.pendingResets = e :: later ∧ t = serveReset e later) ∨ t = s := by
    unfold noRequestStep at hn
    split at hn
    · next e later hp => cases hn; exact .inl ⟨e, later, hp, rfl⟩
    · split at hn <;> cases hn
      exact .inr rfl
  unfold step takeRequest at h
  cases hd : decode s.requests with
  | request i rest => rw [hd] at h; exact .inl ⟨i, rest, h⟩
  | reserved op rest => rw [hd] at h; exact .inr (.inl ⟨rest, h⟩)
  | truncated => rw [hd] at h; exact .inr (.inr (hidle h))
  | noRequest => rw [hd] at h; exact .inr (.inr (hidle h))

/-! ### Reset meets the invariant (70_reset_and_hazards.md R272) -/

/-- The wiring after a reset names banks that exist (10_state.md R23). -/
theorem bootSlotBank_exist (hv : validate c = none) : ∀ b ∈ bootSlotBank c, b.toNat < c.bankCount := by
  obtain ⟨-, -, -, hgeometry, -⟩ := validate_none hv
  intro b hb
  obtain ⟨k, hk, rfl⟩ := List.mem_map.mp hb
  calc (BitVec.ofNat 8 (initSlotBank c k)).toNat = initSlotBank c k % 256 := BitVec.toNat_ofNat _ _
    _ ≤ initSlotBank c k := Nat.mod_le _ _
    _ < c.bankCount := initSlotBank_lt (hgeometry k (List.mem_range.mp hk))

theorem resetWith_of_error {code : FatalCode} (h : construct c = .error code) :
    State.resetWith c = State.afterFailedReset c code := by
  simp [State.resetWith, h]

theorem resetWith_of_ok {m : Memory} (h : construct c = .ok m) : State.resetWith c = State.afterReset c m := by
  simp [State.resetWith, h]

/-- A failed reset leaves a dead state that meets the invariant. -/
theorem afterFailedReset_inv {code : FatalCode} (h : construct c = .error code) :
    Inv (State.afterFailedReset c code) := by
  have htidy : Tidy (State.afterFailedReset c code) :=
    { storeWf := cellsWf_nil _
      wpRWf := cellsWf_nil _
      wpWWf := cellsWf_nil _
      wpRAddrs := nofun
      wpWAddrs := nofun
      visWf := cellsWf_nil _
      hitUnset := fun _ => ⟨rfl, rfl⟩
      noCode := nofun }
  exact ⟨htidy, .inr ⟨rfl, construct_error h⟩⟩

/-- A successful reset leaves a live state. -/
theorem afterReset_live {m : Memory} (h : construct c = .ok m) : Live (State.afterReset c m) := by
  obtain ⟨hv, hwf, hbound⟩ := construct_ok h
  have htidy : Tidy (State.afterReset c m) :=
    { storeWf := hwf
      wpRWf := cellsWf_nil _
      wpWWf := cellsWf_nil _
      wpRAddrs := nofun
      wpWAddrs := nofun
      visWf := cellsWf_nil _
      hitUnset := fun _ => ⟨rfl, rfl⟩
      noCode := fun _ => rfl }
  have hwired : Wired (State.afterReset c m) :=
    { cfgValid := hv
      bankLength := by simp [State.afterReset, bootSlotBank]
      banksExist := bootSlotBank_exist hv
      popLength := by simp [State.afterReset, bootSlotPop]
      romFlags := rfl
      storeBound := hbound
      wpRBound := nofun
      wpWBound := nofun
      visBound := nofun
      noSelector := fun _ => rfl
      codeOfRun := nofun }
  exact ⟨⟨htidy, .inl hwired⟩, rfl⟩

/-- Settles O36: reset leaves the failed or the live state of `construct`'s two outcomes, and both meet the
invariant. -/
theorem resetMeetsInvariant : Obligations.ResetMeetsInvariant := by
  intro c
  cases h : construct c with
  | error code =>
    rw [resetWith_of_error h]
    exact ⟨afterFailedReset_inv h, fun hl => (nomatch hl.2), nofun⟩
  | ok m =>
    rw [resetWith_of_ok h]
    exact ⟨(afterReset_live h).1, fun _ => ⟨m, rfl⟩, fun _ => afterReset_live h⟩

/-! ### Each update of the state keeps the invariant -/

/-- A run of cells within a bound keeps the bound. -/
theorem cellPutRun_bound {α : Type} [DecidableEq α] {d : α} {m : List (Nat × α)} {lo bound : Nat} {vs : List α}
    (hm : ∀ p ∈ m, p.1 < bound) (hv : lo + vs.length ≤ bound) : ∀ p ∈ cellPutRun d m lo vs, p.1 < bound := by
  intro p hp
  rcases mem_cellPutRun hp with ⟨hp, -⟩ | ⟨-, hlt, -⟩
  · exact hm p hp
  · omega

/-- One bank lies within the store (20_memory.md R56). -/
theorem flatOffset_add_bankSize_le {b : Byte} (hb : b.toNat < c.bankCount) :
    flatOffset c b 0 + bankSize c ≤ storeSize c := by
  have h := Nat.mul_le_mul_right (bankSize c) (show b.toNat + 1 ≤ c.bankCount from hb)
  rw [Nat.succ_mul] at h
  exact h

theorem cellGet_le {m : List (Nat × Nat)} {bound : Nat} (hm : ∀ p ∈ m, p.2 ≤ bound) (x : Nat) :
    cellGet 0 m x ≤ bound := by
  by_cases h : cellGet 0 m x = 0
  · omega
  · exact hm _ (cellGet_mem h)

/-- A pass over a range keeps a bound that the new values of the range meet. -/
theorem countersRange_le {f : Nat → Nat} {m : List (Nat × Nat)} {a : Addr} {n bound : Nat} (hwf : cellsWf 0 m)
    (haddrs : ∀ p ∈ m, p.1 < 0x10000) (hn : n ≤ 0x10000) (hm : ∀ p ∈ m, p.2 ≤ bound)
    (hf : ∀ x ∈ rangeAddrs a n, f (cellGet 0 m x) ≤ bound) : ∀ p ∈ countersRange f m a n, p.2 ≤ bound := by
  intro p hp
  rw [← cellGet_of_mem (countersRange_wf f hwf a n) hp,
    cellGet_countersRange f m a n p.1 hn (countersRange_addrs f haddrs a n hn p hp)]
  split
  · next hx => exact hf p.1 hx
  · exact cellGet_le hm p.1

theorem Tidy.watchHit (h : Tidy s) (a : Addr) (acc : Access) : Tidy (watchHit a acc s) := by
  by_cases hr : 0 < wpCount s acc a ∧ s.hitValid = false
  · rw [watchHit_recorded hr]
    exact { h with hitUnset := nofun }
  · rw [watchHit_skipped hr]
    exact h

theorem Tidy.tagAccess (h : Tidy s) (a : Addr) (cls : VisTag) : Tidy (tagAccess a cls s) :=
  { h with visWf := cellSet_wf h.visWf _ _ }

theorem Tidy.countersMasked (h : Tidy s) (f : Nat → Nat) (a : Addr) {n : Nat} (hn : n ≤ 0x10000) (c : Byte) :
    Tidy (countersMasked f s a n c) where
  storeWf := h.storeWf
  wpRWf := by rw [countersMasked_wpR]; split <;> [exact countersRange_wf f h.wpRWf a n; exact h.wpRWf]
  wpWWf := by rw [countersMasked_wpW]; split <;> [exact countersRange_wf f h.wpWWf a n; exact h.wpWWf]
  wpRAddrs := by
    rw [countersMasked_wpR]; split <;> [exact countersRange_addrs f h.wpRAddrs a n hn; exact h.wpRAddrs]
  wpWAddrs := by
    rw [countersMasked_wpW]; split <;> [exact countersRange_addrs f h.wpWAddrs a n hn; exact h.wpWAddrs]
  visWf := h.visWf
  hitUnset := h.hitUnset
  noCode := h.noCode

/-- Counters stay within their width when the new values of the selected counters do (10_state.md R28). -/
theorem Wired.countersMasked (h : Wired s) (ht : Tidy s) {f : Nat → Nat} {a : Addr} {n : Nat} (hn : n ≤ 0x10000)
    {c : Byte}
    (hR : maskRead c = true → ∀ x ∈ rangeAddrs a n, f (cellGet 0 s.wpR x) ≤ wpMax s.cfg)
    (hW : maskWrite c = true → ∀ x ∈ rangeAddrs a n, f (cellGet 0 s.wpW x) ≤ wpMax s.cfg) :
    Wired (countersMasked f s a n c) :=
  { h with
    wpRBound := by
      rw [countersMasked_wpR]
      split
      · next hc => exact countersRange_le ht.wpRWf ht.wpRAddrs hn h.wpRBound (hR hc)
      · exact h.wpRBound
    wpWBound := by
      rw [countersMasked_wpW]
      split
      · next hc => exact countersRange_le ht.wpWWf ht.wpWAddrs hn h.wpWBound (hW hc)
      · exact h.wpWBound }

theorem Wired.wireSlot (h : Wired s) (k : Nat) {b : Byte} (hb : b.toNat < s.cfg.bankCount) :
    Wired (wireSlot k b s) :=
  { h with
    bankLength := by simpa using h.bankLength
    popLength := by simpa using h.popLength
    banksExist := by
      intro b' hb'
      rcases List.mem_or_eq_of_mem_set hb' with hm | rfl
      · exact h.banksExist b' hm
      · exact hb }

/-- A rule rewires a slot at most, and a valid rule names a bank that exists (42_mapping.md R167). -/
theorem Wired.applyRule (h : Wired s) (p : Port) (v : Byte) {r : BankRule} (hr : ruleValid s.cfg r = true) :
    Wired (applyRule p v s r) := by
  by_cases hm : p &&& r.portMask = r.portMatch ∧ r.slot ≠ 0xFF#8
  · rw [applyRule_wires hm.1 hm.2]
    exact h.wireSlot _ (ruleBank_toNat hr hm.2 h.bankCount_le).2
  · rw [applyRule_skips hm]
    exact h

theorem Wired.applyRules (h : Wired s) (p : Port) (v : Byte) {rs : List BankRule}
    (hrs : ∀ r ∈ rs, ruleValid s.cfg r = true) : Wired (rs.foldl (Machine.applyRule p v) s) := by
  induction rs generalizing s with
  | nil => exact h
  | cons r rs ih =>
    obtain ⟨hr, hrs⟩ := List.forall_mem_cons.mp hrs
    exact ih (h.applyRule p v hr) (by simpa using hrs)

theorem Wired.runRules (h : Wired s) (p : Port) (v : Byte) : Wired (runRules p v s) := by
  obtain ⟨-, -, -, -, -, -, -, hrules⟩ := validate_none h.cfgValid
  exact { h.applyRules p v hrules with }

theorem Tidy.runRules (h : Tidy s) (p : Port) (v : Byte) : Tidy (runRules p v s) where
  storeWf := by simpa using h.storeWf
  wpRWf := by simpa using h.wpRWf
  wpWWf := by simpa using h.wpWWf
  wpRAddrs := by simpa using h.wpRAddrs
  wpWAddrs := by simpa using h.wpWAddrs
  visWf := by simpa using h.visWf
  hitUnset := by simpa using h.hitUnset
  noCode := by simpa using h.noCode

/-- A snapshot of the right length has a bank for every slot and a byte for every store offset (44_snapshot.md R221). -/
theorem snapshot_lengths {bytes : List Byte} (hl : bytes.length = serSize c) :
    (snapshotBanks c bytes).length = c.slotCount ∧ (snapshotStore c bytes).length = storeSize c := by
  simp only [snapshotBanks, snapshotStore, List.length_take, List.length_drop, hl, serSize]
  omega

theorem Wired.restore (h : Wired s) {bytes : List Byte}
    (hb : ∀ b ∈ snapshotBanks s.cfg bytes, b.toNat < s.cfg.bankCount) (hl : bytes.length = serSize s.cfg) :
    Wired (restore s bytes) :=
  { h with
    bankLength := (snapshot_lengths hl).1
    banksExist := hb
    storeBound := cellPutRun_bound h.storeBound ((Nat.zero_add _).trans (snapshot_lengths hl).2).le
    visBound := nofun }

/-! ### Every effect keeps the invariant -/

/-- Every effect keeps the tables in canonical form and an unset latch zero (10_state.md R33). -/
theorem Effect.tidy (h : Effect s i u) (ht : Tidy s) : Tidy u := by
  cases h with
  | none => exact ht
  | read8 a => exact (ht.watchHit a .read).tagAccess a .read
  | fetch8 a => exact (ht.watchHit a .read).tagAccess a .fetch
  | write8 a v =>
    exact { (ht.watchHit a .write).tagAccess a .write with storeWf := storeAfter_wf ht.storeWf s a [v] }
  | setmem8 | setmem16 | writeblock => exact { ht with storeWf := storeAfter_wf ht.storeWf s _ _ }
  | writebank => exact { ht with storeWf := cellPutRun_wf ht.storeWf _ _ }
  | setslot | setnotpop | setdisplay => exact { ht with }
  | setwp a n c hn | removewp a n c hn => exact ht.countersMasked _ a hn c
  | clearhit => exact { ht with hitUnset := fun _ => ⟨rfl, rfl⟩ }
  | deserialize => exact { ht with storeWf := cellPutRun_wf ht.storeWf _ _, visWf := cellsWf_nil _ }
  | clearvis => exact { ht with visWf := cellsWf_nil _ }
  | iowrite p v => exact ht.runRules p v

/-- Every effect keeps the wiring, the counters and the store within their bounds (10_state.md R20, R23, R28, R30). -/
theorem Effect.wired (h : Effect s i u) (ht : Tidy s) (hw : Wired s) : Wired u := by
  cases h with
  | none => exact hw
  | read8 a => exact hw.booked a .read .read (hw.bucketOf_lt a)
  | fetch8 a => exact hw.booked a .fetch .read (hw.bucketOf_lt a)
  | write8 a v =>
    exact { hw.booked a .write .write (hw.bucketOf_lt a) with
      storeBound := by simpa using storeAfter_bound hw hw.storeBound a [v] }
  | setmem8 | setmem16 | writeblock => exact { hw with storeBound := storeAfter_bound hw hw.storeBound _ _ }
  | writebank b bytes hb hl =>
    exact { hw with storeBound := cellPutRun_bound hw.storeBound (hl ▸ flatOffset_add_bankSize_le hb) }
  | setslot k b _ hb => exact hw.wireSlot k.toNat hb
  | setnotpop => exact { hw with popLength := by simpa using hw.popLength }
  | setwp a n c hn hf =>
    have hroom := someCounterFull_false.mp hf
    refine hw.countersMasked ht hn (fun hc x hx => ?_) (fun hc x hx => ?_)
    · exact Nat.lt_of_le_of_ne (cellGet_le hw.wpRBound x) ((hroom x hx).1 hc)
    · exact Nat.lt_of_le_of_ne (cellGet_le hw.wpWBound x) ((hroom x hx).2 hc)
  | removewp a n c hn =>
    refine hw.countersMasked ht hn (fun _ x _ => ?_) (fun _ x _ => ?_)
    · exact (Nat.sub_le _ 1).trans (cellGet_le hw.wpRBound x)
    · exact (Nat.sub_le _ 1).trans (cellGet_le hw.wpWBound x)
  | clearhit => exact { hw with }
  | deserialize bytes hb hl => exact hw.restore hb hl
  | clearvis => exact { hw with visBound := nofun }
  | iowrite p v => exact hw.runRules p v
  | setdisplay f hd => exact { hw with noSelector := fun hn => by simp [hd] at hn }

/-! ### Every step keeps the invariant -/

/-- The invariant says nothing of the ports. -/
theorem Inv.withPorts (h : Inv s) (requests : List Byte) (pending : List ResetEvent) (responses : List (List Byte)) :
    Inv { s with requests := requests, pendingResets := pending, responses := responses } := by
  obtain ⟨ht, hw | hd⟩ := h
  · exact ⟨{ ht with }, .inl { hw with }⟩
  · exact ⟨{ ht with }, .inr hd⟩

theorem Inv.respond (h : Inv s) (bytes : List Byte) : Inv (respond s bytes) := h.withPorts _ _ _

/-- A fatal error of an operation leaves a wired state with a run-time code (60_exceptions.md R241, R242). -/
theorem Inv.raiseFatal (h : Inv s) (hf : s.fatal = false) {code : FatalCode} (hc : fatalByte code ∈ runtimeCodes) :
    Inv (raiseFatal code s) :=
  ⟨{ h.1 with noCode := nofun }, .inl { h.wired hf with codeOfRun := fun _ => hc }⟩

theorem exec_keeps_inv (hi : Inv s) (h : exec i s = .next t) : Inv t := by
  rcases exec_next hi h with ⟨-, rfl⟩ | ⟨hf, code, hc, rfl⟩ | ⟨hf, u, result, hu, rfl⟩
  · exact hi.respond _
  · exact hi.raiseFatal hf hc
  · exact Inv.respond ⟨hu.tidy hi.1, .inl (hu.wired hi.1 (hi.wired hf))⟩ _

/-- A reserved opcode raises ILLEGAL_OP or is answered in the fatal state (30_encoding.md R87). -/
theorem performReserved_keeps_inv (hi : Inv s) (h : performReserved s = .next t) : Inv t := by
  rcases perform_next h with ⟨-, rfl⟩ | ⟨-, u, result, ho, -⟩ | ⟨hf, code, ho, rfl⟩
  · exact hi.respond _
  · cases ho
  · cases ho
    exact hi.raiseFatal hf (by decide)

/-- Settles O37, by the cases of what a step can do. -/
theorem stepKeepsInvariant : Obligations.StepKeepsInvariant := by
  intro s t hi h
  rcases step_next h with ⟨i, rest, he⟩ | ⟨rest, hr⟩ | ⟨e, later, -, rfl⟩ | rfl
  · exact exec_keeps_inv (hi.withPorts rest _ _) he
  · exact performReserved_keeps_inv (hi.withPorts rest _ _) hr
  · exact (resetMeetsInvariant e.config).1.withPorts _ _ _
  · exact hi

/-! ### The writers of the state items (10_state.md, "written by") -/

/-- Settles O43: IOWRITE runs its rules only while the lock is clear, and nothing else writes the lock. -/
theorem lockClearedOnlyByReset : Obligations.LockClearedOnlyByReset := by
  intro s t i hi h
  obtain ⟨u, hu, ht⟩ := exec_next_effect hi h
  rw [ht]
  cases hu with
  | iowrite p v hl => exact ⟨fun hs => by simp [hl] at hs, fun hn => absurd rfl (hn p v)⟩
  | _ => simp

/-- No effect touches the configuration, the ROM flags or the ports' inputs (10_state.md R26). -/
theorem Effect.fixed_items (h : Effect s i u) :
    u.cfg = s.cfg ∧ u.romBank = s.romBank ∧ u.requests = s.requests ∧ u.pendingResets = s.pendingResets := by
  cases h <;> simp

/-- Settles O45: of each item, the effects that write it are those of the operations listed for it. -/
theorem stateWrittenOnlyAsListed : Obligations.StateWrittenOnlyAsListed := by
  intro s t i hi h
  obtain ⟨u, hu, ht⟩ := exec_next_effect hi h
  obtain ⟨hcfg, hrom, hreq, hres⟩ := hu.fixed_items
  rw [ht]
  refine ⟨hcfg, hrom, hreq, hres, fun hsetwp hremovewp => ?counters, fun hsetslot hiowrite hdeserialize => ?banks,
    fun hsetslot hsetnotpop hiowrite => ?populated, fun hsetdisplay => ?display,
    fun hread8 hfetch8 hwrite8 hclearvis hdeserialize => ?tags,
    fun hwrite8 hsetmem8 hsetmem16 hwriteblock hwritebank hdeserialize => ?store⟩
  case counters =>
    cases hu with
    | setwp a n c => exact absurd rfl (hsetwp a n c)
    | removewp a n c => exact absurd rfl (hremovewp a n c)
    | _ => simp
  case banks =>
    cases hu with
    | setslot k b => exact absurd rfl (hsetslot k b)
    | iowrite p v => exact absurd rfl (hiowrite p v)
    | deserialize x => exact absurd rfl (hdeserialize x)
    | _ => simp
  case populated =>
    cases hu with
    | setslot k b => exact absurd rfl (hsetslot k b)
    | setnotpop k => exact absurd rfl (hsetnotpop k)
    | iowrite p v => exact absurd rfl (hiowrite p v)
    | _ => simp
  case display =>
    cases hu with
    | setdisplay f => exact absurd rfl (hsetdisplay f)
    | _ => simp
  case tags =>
    cases hu with
    | read8 a => exact absurd rfl (hread8 a)
    | fetch8 a => exact absurd rfl (hfetch8 a)
    | write8 a v => exact absurd rfl (hwrite8 a v)
    | clearvis => exact absurd rfl hclearvis
    | deserialize x => exact absurd rfl (hdeserialize x)
    | _ => simp
  case store =>
    cases hu with
    | write8 a v => exact absurd rfl (hwrite8 a v)
    | setmem8 a v => exact absurd rfl (hsetmem8 a v)
    | setmem16 a w => exact absurd rfl (hsetmem16 a w)
    | writeblock a x => exact absurd rfl (hwriteblock a x)
    | writebank b x => exact absurd rfl (hwritebank b x)
    | deserialize x => exact absurd rfl (hdeserialize x)
    | _ => simp

end Sys2Proof.Machine

/-!
PROOFS. The address decoder tiles the store, and no step reaches outside it (spec/20_memory.md R51 to R56).
`step_answers_or_refuses` says once how a step of a state that meets the invariant can end.
-/

namespace Sys2Proof.Machine

variable {s : State}

/-! ### A step answers, or refuses an unfinished request (30_encoding.md R80, R84) -/

/-- A first byte is the start of a request: every format's reader ends in a request or in a truncated one. -/
theorem decode_cons_ne_noRequest (op : Byte) (bs : List Byte) : decode (op :: bs) ≠ .noRequest := by
  simp only [decode, readA, readAV, readAW, readAN, readANC, readANP, readBNP, readLP, readSB, readS, readPayload]
  repeat' split
  all_goals nofun

@[simp] theorem decode_eq_noRequest_iff {bytes : List Byte} : decode bytes = .noRequest ↔ bytes = [] := by
  cases bytes with
  | nil => exact ⟨fun _ => rfl, fun _ => rfl⟩
  | cons op bs => exact ⟨fun h => absurd h (decode_cons_ne_noRequest op bs), nofun⟩

/-- Every operation of a state that meets the invariant answers a next state: dead (60_exceptions.md R243), or live
with no access outside the store (20_memory.md R56). -/
theorem exec_answers (hi : Inv s) (i : Instr) : ∃ t, exec i s = .next t := by
  cases hf : s.fatal with
  | true => exact ⟨_, exec_dead hf i⟩
  | false =>
    rcases exec_live (hi.wired hf) hf i with ⟨u, result, -, he⟩ | ⟨code, -, he⟩
    · exact ⟨_, he⟩
    · exact ⟨_, he⟩

/-- A reserved opcode is answered in every state (30_encoding.md R87). -/
theorem performReserved_answers (s : State) : ∃ t, performReserved s = .next t := by
  cases hf : s.fatal with
  | true => exact ⟨_, perform_dead hf⟩
  | false => exact ⟨_, perform_fatal hf rfl⟩

/-- With no complete request on the port the step answers a next state, unless bytes stand there and no reset event is
pending to drop them. -/
theorem noRequestStep_answers_or_refuses (s : State) :
    (∃ t, noRequestStep s = .next t) ∨
      (noRequestStep s = .refused .truncatedRequest ∧ s.requests ≠ [] ∧ s.pendingResets = []) := by
  unfold noRequestStep
  cases hp : s.pendingResets with
  | cons e later => exact .inl ⟨_, rfl⟩
  | nil =>
    cases hr : s.requests with
    | nil => exact .inl ⟨_, rfl⟩
    | cons b bs => exact .inr ⟨rfl, nofun, rfl⟩

/-- Everything a step can end in, in a state that meets the invariant: a next state, or the refusal of an unfinished
request with no reset event pending. -/
theorem step_answers_or_refuses (hi : Inv s) :
    (∃ t, step s = .next t) ∨
      (step s = .refused .truncatedRequest ∧ decode s.requests = .truncated ∧ s.pendingResets = []) := by
  unfold step takeRequest
  cases hd : decode s.requests with
  | request i rest => exact .inl (exec_answers (hi.withPorts rest _ _) i)
  | reserved op rest => exact .inl (performReserved_answers _)
  | truncated =>
    rcases noRequestStep_answers_or_refuses s with hn | ⟨hn, -, hp⟩
    · exact .inl hn
    · exact .inr ⟨hn, rfl, hp⟩
  | noRequest =>
    rcases noRequestStep_answers_or_refuses s with hn | ⟨-, hr, -⟩
    · exact .inl hn
    · exact absurd (decode_eq_noRequest_iff.mp hd) hr

/-- Settles O38, by the two ways a step can end. -/
theorem noStepLeavesTheStore : Obligations.NoStepLeavesTheStore := by
  intro s hi
  rcases step_answers_or_refuses hi with ⟨t, ht⟩ | ⟨href, hd, hp⟩
  · simp [ht]
  · simp [href, hd, hp, eq_comm]

/-! ### The address decoder (20_memory.md R53 to R56) -/

theorem Wired.slotBank_slotOf (h : Wired s) (a : Addr) : s.slotBank[slotOf s.cfg a]? = some (wiredBank s a) := by
  have hl := h.slotOf_lt_banks a
  rw [wiredBank, List.getD_eq_getElem _ _ hl, List.getElem?_eq_getElem hl]

/-- The flat offset in the words of 20_memory.md R54: the bank's first byte plus the remainder by BANK_SIZE. -/
theorem Wired.flatOf_eq (h : Wired s) (a : Addr) :
    flatOf s a = (wiredBank s a).toNat * bankSize s.cfg + a.toNat % bankSize s.cfg := by
  rw [flatOf, flatOffset, bankOffset_eq_mod h.legal]

/-- Two addresses show one byte of the store exactly when they have one bank and one offset in it. -/
theorem Wired.flatOf_inj (h : Wired s) (a a' : Addr) :
    flatOf s a = flatOf s a' ↔
      wiredBank s a = wiredBank s a' ∧ a.toNat % bankSize s.cfg = a'.toNat % bankSize s.cfg := by
  rw [← bankOffset_eq_mod h.legal, ← bankOffset_eq_mod h.legal]
  exact flatOffset_inj (bankOffset_lt h.legal a) (bankOffset_lt h.legal a')

/-- Settles O39: what the decoder answers is known by `translate_eq`, and each clause is a fact about the wiring. -/
theorem translationTilesTheStore : Obligations.TranslationTilesTheStore := by
  intro s hlive
  have h := hlive.wired
  refine ⟨fun a => ⟨_, _, translate_eq h a, slotOf_eq_div h.legal a, slotOf_lt h.legal a, h.slotBank_slotOf a, rfl,
    h.wiredBank_lt a, h.flatOf_eq a, h.flatOf_lt a⟩, fun a a' x x' hx hx' => ?_, slotCount_mul_bankSize h.legal⟩
  cases (translate_eq h a).symm.trans hx
  cases (translate_eq h a').symm.trans hx'
  exact h.flatOf_inj a a'

end Sys2Proof.Machine

/-!
PROOFS. The wire form of requests (spec/30_encoding.md R81 to R90). Each format's reader is inverted once: it answers a
request exactly on the format's bytes (`readA_eq_request` and its kin). So the decoder answers a request exactly on an
encoding, and an encoding cut short, did it decode to anything, would decode to it with the bytes cut off put back.
-/

namespace Sys2Proof.Machine

variable {s u : State} {i : Instr} {op : Byte} {bytes rest : List Byte}

/-! ### Fields (30_encoding.md R82) -/

/-- A field as wide as its bytes holds their value whole: written again, it gives the same bytes. -/
theorem toLe_ofNat_ofLe (bs : List Byte) : toLe bs.length (BitVec.ofNat (8 * bs.length) (ofLe bs)).toNat = bs := by
  have hlt : ofLe bs < 2 ^ (8 * bs.length) := by
    rw [pow_mul]
    exact ofLe_lt bs
  rw [BitVec.toNat_ofNat, Nat.mod_eq_of_lt hlt, toLe_ofLe]

theorem toLe_two_field (b0 b1 : Byte) : toLe 2 (BitVec.ofNat 16 (ofLe [b0, b1])).toNat = [b0, b1] :=
  toLe_ofNat_ofLe [b0, b1]

theorem toLe_three_field (b0 b1 b2 : Byte) : toLe 3 (BitVec.ofNat 24 (ofLe [b0, b1, b2])).toNat = [b0, b1, b2] :=
  toLe_ofNat_ofLe [b0, b1, b2]

/-- A length that was read from its field fits it, and is written as the bytes it was read from. -/
theorem length_of_field (bs : List Byte) {n : Nat} (h : n = ofLe bs) : n < 256 ^ bs.length ∧ toLe bs.length n = bs := by
  subst h
  exact ⟨ofLe_lt bs, toLe_ofLe bs⟩

theorem ofNat_ofLe_toLe_two (w : BitVec 16) : BitVec.ofNat 16 (ofLe (toLe 2 w.toNat)) = w := by
  rw [toLe_two, ofLe_le16Bytes]

theorem ofNat_ofLe_toLe_three (w : BitVec 24) : BitVec.ofNat 24 (ofLe (toLe 3 w.toNat)) = w := by
  rw [toLe_three, ofLe_le24Bytes]

/-! ### Formats (30_encoding.md R83): the bytes on which a reader answers a request -/

theorem readS_eq_request {k : Byte → Instr} :
    readS k bytes = .request i rest ↔ ∃ b, bytes = [b] ++ rest ∧ k b = i := by
  constructor
  · intro h
    unfold readS at h
    split at h <;> cases h
    exact ⟨_, rfl, rfl⟩
  · rintro ⟨b, rfl, rfl⟩
    rfl

theorem readSB_eq_request {k : Byte → Byte → Instr} :
    readSB k bytes = .request i rest ↔ ∃ j b, bytes = [j, b] ++ rest ∧ k j b = i := by
  constructor
  · intro h
    unfold readSB at h
    split at h <;> cases h
    exact ⟨_, _, rfl, rfl⟩
  · rintro ⟨j, b, rfl, rfl⟩
    rfl

theorem readA_eq_request {k : Addr → Instr} :
    readA k bytes = .request i rest ↔ ∃ a, bytes = toLe 2 a.toNat ++ rest ∧ k a = i := by
  constructor
  · intro h
    unfold readA at h
    split at h <;> cases h
    exact ⟨_, by rw [toLe_two_field]; rfl, rfl⟩
  · rintro ⟨a, rfl, rfl⟩
    exact congrArg (fun w => Decoded.request (k w) rest) (ofNat_ofLe_toLe_two a)

theorem readAV_eq_request {k : BitVec 16 → Byte → Instr} :
    readAV k bytes = .request i rest ↔ ∃ a v, bytes = toLe 2 a.toNat ++ [v] ++ rest ∧ k a v = i := by
  constructor
  · intro h
    unfold readAV at h
    split at h <;> cases h
    exact ⟨_, _, by rw [toLe_two_field]; rfl, rfl⟩
  · rintro ⟨a, v, rfl, rfl⟩
    exact congrArg (fun w => Decoded.request (k w v) rest) (ofNat_ofLe_toLe_two a)

theorem readAW_eq_request {k : Addr → Half → Instr} :
    readAW k bytes = .request i rest ↔ ∃ a w, bytes = toLe 2 a.toNat ++ toLe 2 w.toNat ++ rest ∧ k a w = i := by
  constructor
  · intro h
    unfold readAW at h
    split at h <;> cases h
    exact ⟨_, _, by rw [toLe_two_field, toLe_two_field]; rfl, rfl⟩
  · rintro ⟨a, w, rfl, rfl⟩
    exact congrArg₂ (fun x y => Decoded.request (k x y) rest) (ofNat_ofLe_toLe_two a) (ofNat_ofLe_toLe_two w)

theorem readAN_eq_request {k : Addr → Len24 → Instr} :
    readAN k bytes = .request i rest ↔ ∃ a n, bytes = toLe 2 a.toNat ++ toLe 3 n.toNat ++ rest ∧ k a n = i := by
  constructor
  · intro h
    unfold readAN at h
    split at h <;> cases h
    exact ⟨_, _, by rw [toLe_two_field, toLe_three_field]; rfl, rfl⟩
  · rintro ⟨a, n, rfl, rfl⟩
    exact congrArg₂ (fun x y => Decoded.request (k x y) rest) (ofNat_ofLe_toLe_two a) (ofNat_ofLe_toLe_three n)

theorem readANC_eq_request {k : Addr → Len24 → Byte → Instr} :
    readANC k bytes = .request i rest ↔
      ∃ a n c, bytes = toLe 2 a.toNat ++ toLe 3 n.toNat ++ [c] ++ rest ∧ k a n c = i := by
  constructor
  · intro h
    unfold readANC at h
    split at h <;> cases h
    exact ⟨_, _, _, by rw [toLe_two_field, toLe_three_field]; rfl, rfl⟩
  · rintro ⟨a, n, c, rfl, rfl⟩
    exact congrArg₂ (fun x y => Decoded.request (k x y c) rest) (ofNat_ofLe_toLe_two a) (ofNat_ofLe_toLe_three n)

/-- A payload is as long as its length field says (30_encoding.md R84). -/
theorem readPayload_eq_request {n : Nat} {k : List Byte → Instr} :
    readPayload n k bytes = .request i rest ↔ ∃ pay, pay.length = n ∧ bytes = pay ++ rest ∧ k pay = i := by
  constructor
  · intro h
    unfold readPayload at h
    split at h <;> cases h
    exact ⟨_, List.length_take_of_le (by omega), (List.take_append_drop n bytes).symm, rfl⟩
  · rintro ⟨pay, rfl, rfl, rfl⟩
    exact readPayload_append k pay rest

theorem readANP_eq_request {k : Addr → List Byte → Instr} :
    readANP k bytes = .request i rest ↔
      ∃ a pay, pay.length < 2 ^ 24 ∧ bytes = toLe 2 a.toNat ++ toLe 3 pay.length ++ pay ++ rest ∧ k a pay = i := by
  constructor
  · intro h
    unfold readANP at h
    split at h
    · next a0 a1 n0 n1 n2 _ =>
      obtain ⟨pay, hl, rfl, rfl⟩ := readPayload_eq_request.mp h
      obtain ⟨hlt, hfield⟩ : pay.length < 256 ^ 3 ∧ toLe 3 pay.length = [n0, n1, n2] := length_of_field _ hl
      exact ⟨_, pay, hlt, by rw [toLe_two_field, hfield]; rfl, rfl⟩
    · cases h
  · rintro ⟨a, pay, hl, rfl, rfl⟩
    have hlen : ofLe (toLe 3 pay.length) = pay.length := ofLe_toLe_of_lt hl
    refine readPayload_eq_request.mpr ⟨pay, hlen.symm, rfl, ?_⟩
    exact congrArg (k · pay) (ofNat_ofLe_toLe_two a)

theorem readBNP_eq_request {k : Byte → List Byte → Instr} :
    readBNP k bytes = .request i rest ↔
      ∃ b pay, pay.length < 2 ^ 24 ∧ bytes = b :: (toLe 3 pay.length ++ pay) ++ rest ∧ k b pay = i := by
  constructor
  · intro h
    unfold readBNP at h
    split at h
    · next b n0 n1 n2 _ =>
      obtain ⟨pay, hl, rfl, rfl⟩ := readPayload_eq_request.mp h
      obtain ⟨hlt, hfield⟩ : pay.length < 256 ^ 3 ∧ toLe 3 pay.length = [n0, n1, n2] := length_of_field _ hl
      exact ⟨b, pay, hlt, by rw [hfield]; rfl, rfl⟩
    · cases h
  · rintro ⟨b, pay, hl, rfl, rfl⟩
    have hlen : ofLe (toLe 3 pay.length) = pay.length := ofLe_toLe_of_lt hl
    exact readPayload_eq_request.mpr ⟨pay, hlen.symm, rfl, rfl⟩

theorem readLP_eq_request {k : List Byte → Instr} :
    readLP k bytes = .request i rest ↔
      ∃ pay, pay.length < 2 ^ 32 ∧ bytes = toLe 4 pay.length ++ pay ++ rest ∧ k pay = i := by
  constructor
  · intro h
    unfold readLP at h
    split at h
    · next l0 l1 l2 l3 _ =>
      obtain ⟨pay, hl, rfl, rfl⟩ := readPayload_eq_request.mp h
      obtain ⟨hlt, hfield⟩ : pay.length < 256 ^ 4 ∧ toLe 4 pay.length = [l0, l1, l2, l3] := length_of_field _ hl
      exact ⟨pay, hlt, by rw [hfield]; rfl, rfl⟩
    · cases h
  · rintro ⟨pay, hl, rfl, rfl⟩
    have hlen : ofLe (toLe 4 pay.length) = pay.length := ofLe_toLe_of_lt hl
    exact readPayload_eq_request.mpr ⟨pay, hlen.symm, rfl, rfl⟩

/-! ### The decoder answers a request exactly on an encoding (30_encoding.md R81, R85, R86) -/

/-- Settles O3: the opcode alone selects the reader of the operation's format, which answers on the format's bytes. -/
theorem decodeOfEncode : Obligations.DecodeOfEncode := by
  intro i rest hwf
  cases i with
  | read8 a | fetch8 a | getmem8 a | getmem16 a | getmem32 a => exact readA_eq_request.mpr ⟨a, rfl, rfl⟩
  | write8 a v | setmem8 a v | iowrite a v => exact readAV_eq_request.mpr ⟨a, v, rfl, rfl⟩
  | setmem16 a w => exact readAW_eq_request.mpr ⟨a, w, rfl, rfl⟩
  | readblock a n => exact readAN_eq_request.mpr ⟨a, n, rfl, rfl⟩
  | setwp a n c | removewp a n c => exact readANC_eq_request.mpr ⟨a, n, c, rfl, rfl⟩
  | writeblock a pay => exact readANP_eq_request.mpr ⟨a, pay, of_decide_eq_true hwf, rfl, rfl⟩
  | writebank b pay => exact readBNP_eq_request.mpr ⟨b, pay, of_decide_eq_true hwf, rfl, rfl⟩
  | deserialize pay => exact readLP_eq_request.mpr ⟨pay, of_decide_eq_true hwf, rfl, rfl⟩
  | setslot j b => exact readSB_eq_request.mpr ⟨j, b, rfl, rfl⟩
  | setnotpop b | setdisplay b => exact readS_eq_request.mpr ⟨b, rfl, rfl⟩
  | clearhit | gethit | serialize | getsersize | clearvis | getvis => rfl

theorem cons_eq_of_toNat_eq {n : Nat} {bs : List Byte} (hop : op.toNat = n) : op :: bs = BitVec.ofNat 8 n :: bs := by
  rw [← hop, BitVec.ofNat_toNat, BitVec.setWidth_eq]

/-- Settles O4: the reader that the opcode selects answers on the bytes of its format alone. -/
theorem decodedRequestsAreEncodings : Obligations.DecodedRequestsAreEncodings := by
  intro bytes rest i h
  cases bytes with
  | nil => cases h
  | cons op bs =>
    simp only [decode] at h
    -- The cases carry the opcodes' numbers; case 25 is every other first byte.
    split at h
    case h_1 _ hop | h_2 _ hop | h_4 _ hop | h_5 _ hop | h_6 _ hop =>
      obtain ⟨a, rfl, rfl⟩ := readA_eq_request.mp h
      exact ⟨cons_eq_of_toNat_eq hop, rfl⟩
    case h_3 _ hop | h_7 _ hop | h_23 _ hop =>
      obtain ⟨a, v, rfl, rfl⟩ := readAV_eq_request.mp h
      exact ⟨cons_eq_of_toNat_eq hop, rfl⟩
    case h_8 _ hop =>
      obtain ⟨a, w, rfl, rfl⟩ := readAW_eq_request.mp h
      exact ⟨cons_eq_of_toNat_eq hop, rfl⟩
    case h_9 _ hop =>
      obtain ⟨a, n, rfl, rfl⟩ := readAN_eq_request.mp h
      exact ⟨cons_eq_of_toNat_eq hop, rfl⟩
    case h_10 _ hop =>
      obtain ⟨a, pay, hl, rfl, rfl⟩ := readANP_eq_request.mp h
      exact ⟨cons_eq_of_toNat_eq hop, decide_eq_true hl⟩
    case h_11 _ hop =>
      obtain ⟨b, pay, hl, rfl, rfl⟩ := readBNP_eq_request.mp h
      exact ⟨cons_eq_of_toNat_eq hop, decide_eq_true hl⟩
    case h_12 _ hop =>
      obtain ⟨j, b, rfl, rfl⟩ := readSB_eq_request.mp h
      exact ⟨cons_eq_of_toNat_eq hop, rfl⟩
    case h_13 _ hop | h_24 _ hop =>
      obtain ⟨b, rfl, rfl⟩ := readS_eq_request.mp h
      exact ⟨cons_eq_of_toNat_eq hop, rfl⟩
    case h_14 _ hop | h_15 _ hop =>
      obtain ⟨a, n, c, rfl, rfl⟩ := readANC_eq_request.mp h
      exact ⟨cons_eq_of_toNat_eq hop, rfl⟩
    case h_16 _ hop | h_17 _ hop | h_18 _ hop | h_20 _ hop | h_21 _ hop | h_22 _ hop =>
      cases h
      exact ⟨cons_eq_of_toNat_eq hop, rfl⟩
    case h_19 _ hop =>
      obtain ⟨pay, hl, rfl, rfl⟩ := readLP_eq_request.mp h
      exact ⟨cons_eq_of_toNat_eq hop, decide_eq_true hl⟩
    case h_25 => cases h

/-- Settles O2: each sequence is the encoding of its request. -/
theorem specRequestBytesDecode : Obligations.SpecRequestBytesDecode :=
  ⟨decodeOfEncode (.read8 0x0000#16) [] rfl, decodeOfEncode (.write8 0x0000#16 0x99#8) [] rfl,
    decodeOfEncode (.setmem16 0x7FFF#16 0x1234#16) [] rfl, decodeOfEncode (.readblock 0xFFFF#16 2#24) [] rfl,
    decodeOfEncode (.writeblock 0x3FFE#16 [0xAA#8, 0xBB#8, 0xCC#8]) [] rfl, decodeOfEncode (.setslot 3#8 1#8) [] rfl,
    decodeOfEncode (.iowrite 0x7FFD#16 0x03#8) [] rfl, decodeOfEncode (.setdisplay 1#8) [] rfl,
    decodeOfEncode (.setwp 0x4000#16 2#24 1#8) [] rfl, decodeOfEncode .gethit [] rfl,
    decodeOfEncode (.deserialize [0x04#8, 0x00#8, 0x01#8]) [] rfl⟩

/-! ### Reserved opcodes (30_encoding.md R87) -/

/-- An opcode outside 0x01 to 0x18 is a request of its own. -/
theorem decode_of_reserved (h : op.toNat = 0 ∨ 0x19 ≤ op.toNat) : decode (op :: rest) = .reserved op rest := by
  simp only [decode]
  split
  case h_25 => rfl
  all_goals omega

/-- No format's reader answers that its opcode is reserved. -/
theorem decode_ne_reserved {r : Byte} {bs : List Byte} (hlo : 0x01 ≤ op.toNat) (hhi : op.toNat ≤ 0x18) :
    decode (op :: bs) ≠ .reserved r rest := by
  simp only [decode, readA, readAV, readAW, readAN, readANC, readANP, readBNP, readLP, readSB, readS, readPayload]
  repeat' split
  case h_25 =>
    simp only [imp_false] at *
    omega
  all_goals nofun

/-- The decoder answers a reserved opcode exactly on a first byte outside 0x01 to 0x18, and takes that byte alone. -/
theorem decode_eq_reserved_iff :
    decode bytes = .reserved op rest ↔ bytes = op :: rest ∧ (op.toNat = 0 ∨ 0x19 ≤ op.toNat) := by
  constructor
  · intro h
    cases bytes with
    | nil => cases h
    | cons b bs =>
      have hb : b.toNat = 0 ∨ 0x19 ≤ b.toNat := by
        by_contra hb
        exact decode_ne_reserved (by omega) (by omega) h
      cases (decode_of_reserved hb).symm.trans h
      exact ⟨rfl, hb⟩
  · rintro ⟨rfl, h⟩
    exact decode_of_reserved h

/-! ### Bytes that end inside a request (30_encoding.md R84) -/

/-- Bytes that decode to a request decode to it whatever follows them. -/
theorem decode_append_of_request {more : List Byte} (h : decode bytes = .request i rest) :
    decode (bytes ++ more) = .request i (rest ++ more) := by
  obtain ⟨rfl, hwf⟩ := decodedRequestsAreEncodings _ _ _ h
  rw [List.append_assoc]
  exact decodeOfEncode i _ hwf

/-- Bytes that decode to a reserved opcode decode to it whatever follows them. -/
theorem decode_append_of_reserved {more : List Byte} (h : decode bytes = .reserved op rest) :
    decode (bytes ++ more) = .reserved op (rest ++ more) := by
  obtain ⟨rfl, hop⟩ := decode_eq_reserved_iff.mp h
  exact decode_of_reserved hop

/-- A request that is cut short is seen to be: were it decoded to anything, then so would the whole request be, with
the bytes cut off left over. -/
theorem decode_take_encode {k : Nat} (hwf : i.wf = true) (hpos : 0 < k) (hk : k < (encode i).length) :
    decode ((encode i).take k) = .truncated := by
  have hwhole : decode ((encode i).take k ++ (encode i).drop k) = .request i [] := by
    simpa using decodeOfEncode i [] hwf
  cases h : decode ((encode i).take k) with
  | truncated => rfl
  | request j rest =>
    have hleft := (decode_append_of_request h).symm.trans hwhole
    simp only [Decoded.request.injEq, List.append_eq_nil_iff, List.drop_eq_nil_iff] at hleft
    omega
  | reserved op rest => cases (decode_append_of_reserved h).symm.trans hwhole
  | noRequest =>
    rw [decode_eq_noRequest_iff, List.take_eq_nil_iff, ← List.length_eq_zero_iff] at h
    omega

/-! ### What a step does with the front of the port (30_encoding.md R80, 20_memory.md R66) -/

theorem step_of_request (h : decode s.requests = .request i rest) : step s = exec i { s with requests := rest } := by
  simp only [step, takeRequest, h]

theorem step_of_reserved (h : decode s.requests = .reserved op rest) :
    step s = performReserved { s with requests := rest } := by
  simp only [step, takeRequest, h]

theorem step_of_truncated (h : decode s.requests = .truncated) (hp : s.pendingResets = []) :
    step s = .refused .truncatedRequest := by
  have hstep : step s = noRequestStep s := by simp only [step, takeRequest, h]
  cases hr : s.requests with
  | nil => simp [hr, decode] at h
  | cons b bs => simp only [hstep, noRequestStep, hp, hr]

theorem performReserved_of_live (hf : s.fatal = false) : performReserved s = .next (diedWith s 0x01#8) :=
  perform_fatal (op := fun _ => .fatal .illegalOp) hf rfl

/-- The selector is checked before the operand (42_mapping.md R175, 60_exceptions.md R245). -/
theorem exec_setdisplay_of_no_selector (hf : s.fatal = false) (hd : s.cfg.hasDisplaySelect = false) (f : Byte) :
    exec (.setdisplay f) s = .next (diedWith s 0x01#8) := by
  have hsel : checkSelector s.cfg = some .illegalOp := by rw [checkSelector, hd, require_false]
  show execSetdisplay f s = .next (raiseFatal .illegalOp s)
  unfold execSetdisplay
  exact perform_fatal hf (by rw [hsel, guarded_fail])

/-- Settles O1. -/
theorem stepRunsDecodedRequest : Obligations.StepRunsDecodedRequest := fun _ _ _ h => step_of_request h

/-- Settles O5: the step of a reserved opcode and SETDISPLAY's first check each raise ILLEGAL_OP. -/
theorem reservedOpcodesRaiseIllegalOp : Obligations.ReservedOpcodesRaiseIllegalOp := by
  refine ⟨fun s op rest hlive hreq hop => ?_,
    fun s f hlive hsel => exec_setdisplay_of_no_selector hlive.2 hsel f,
    fun op r bytes rest hlo hhi => decode_ne_reserved hlo hhi⟩
  have hdecode : decode s.requests = .reserved op rest :=
    decode_eq_reserved_iff.mpr ⟨hreq, hop.imp_left (congrArg BitVec.toNat)⟩
  rw [step_of_reserved hdecode]
  exact performReserved_of_live hlive.2

/-- Settles O6: the front of the port decodes to nothing but a truncated request. -/
theorem truncatedRequestsRefused : Obligations.TruncatedRequestsRefused := by
  intro s i k hwf hpos hk hreq hp
  exact step_of_truncated (hreq ▸ decode_take_encode hwf hpos hk) hp

/-! ### Every operation is answered (30_encoding.md R89, R90) -/

/-- A fatal state has one of the codes of 60_exceptions.md R242. -/
theorem Inv.fatalCode_mem (h : Inv s) (hf : s.fatal = true) : s.fatalCode ∈ runtimeCodes ++ resetCodes := by
  rcases h.2 with hw | hd
  · exact List.mem_append_left _ (hw.codeOfRun hf)
  · exact List.mem_append_right _ hd.2

/-- No effect touches the fatal bit or the response port. -/
theorem Effect.fatal_responses (h : Effect s i u) : u.fatal = s.fatal ∧ u.responses = s.responses := by
  cases h <;> simp

/-- Settles O34, by the three things an operation can do; the code is one of those numbered because the state left meets
the invariant. -/
theorem everyOperationIsAnswered : Obligations.EveryOperationIsAnswered := by
  intro s i hi
  obtain ⟨t, ht⟩ := exec_answers hi i
  have hcode (hf : t.fatal = true) : t.fatalCode.toNat ∈ (runtimeCodes ++ resetCodes).map BitVec.toNat :=
    List.mem_map_of_mem ((exec_keeps_inv hi ht).fatalCode_mem hf)
  rcases exec_next hi ht with ⟨hf, rfl⟩ | ⟨-, code, -, rfl⟩ | ⟨hf, u, result, hu, rfl⟩
  · exact ⟨_, _, ht, rfl, .inr ⟨hf, rfl, hcode hf⟩⟩
  · exact ⟨_, _, ht, rfl, .inr ⟨rfl, rfl, hcode rfl⟩⟩
  · obtain ⟨hfatal, hresponses⟩ := hu.fatal_responses
    exact ⟨_, _, ht, congrArg (· ++ _) hresponses, .inl ⟨hfatal.trans hf, hf, rfl⟩⟩

end Sys2Proof.Machine

/-!
PROOFS. The accesses of the CPU and of the debugger (spec/40_access.md). `Live.exec_done` runs an operation by `comes`;
what an access reads is `peekBytes`, what it writes is said byte by byte by `cellGet_storeAfter_singleton`, and what the
CPU's bookkeeping leaves is `booked_eq` with the lemmas on the tag and on the latch.
-/

namespace Sys2Proof.Machine

variable {s u : State} {i : Instr} {bytes result : List Byte}

theorem Live.tidy (h : Live s) : Tidy s := h.1.1

/-- A live state performs an operation that completes, and answers status 0x00 (30_encoding.md R89, R90). -/
theorem Live.exec_done (h : Live s) (hc : comes s i = .done u result) :
    exec i s = .next (respond u (0x00#8 :: result)) := by
  rw [exec_wired h.wired]
  exact perform_done h.2 hc

/-- The bytes the encoder writes for a request that can be sent are a request for it. -/
theorem sentAs_of_encode (hwf : i.wf = true) (h : encode i = bytes) : SentAs bytes i :=
  fun rest => h ▸ decodeOfEncode i rest hwf

/-! ### The CPU's bookkeeping (40_access.md R110) -/

/-- The bookkeeping writes the latch and the tags alone. -/
theorem booked_eq (a : Addr) (cls : VisTag) (acc : Access) (s : State) :
    tagAccess a cls (watchHit a acc s) =
      { s with
        hitValid := (watchHit a acc s).hitValid
        hitAddr := (watchHit a acc s).hitAddr
        hitAccess := (watchHit a acc s).hitAccess
        vis := (tagAccess a cls (watchHit a acc s)).vis } := by
  unfold watchHit
  split <;> rfl

/-- The address's bucket holds the tag of the access, and every other bucket the tag it had. -/
theorem cellGet_booked_vis (h : Tidy s) (a : Addr) (cls : VisTag) (acc : Access) (k : Nat) :
    cellGet .none (tagAccess a cls (watchHit a acc s)).vis k
      = if k = a.toNat / 2 ^ s.cfg.visualShift then cls else cellGet .none s.vis k := by
  rw [tagAccess_vis, watchHit_vis, watchHit_cfg, cellGet_cellSet h.visWf, bucketOf, Nat.shiftRight_eq_div_pow]
  simp only [eq_comm]

/-- The latch after an access: set by a watched one while it was unset, and otherwise as it was. -/
theorem watchHit_latch (a : Addr) (acc : Access) (s : State) :
    (s.hitValid = false ∧ 0 < wpCount s acc a →
      (watchHit a acc s).hitValid = true ∧ (watchHit a acc s).hitAddr = a ∧ (watchHit a acc s).hitAccess = acc) ∧
    (¬ (s.hitValid = false ∧ 0 < wpCount s acc a) →
      (watchHit a acc s).hitValid = s.hitValid ∧ (watchHit a acc s).hitAddr = s.hitAddr ∧
        (watchHit a acc s).hitAccess = s.hitAccess) := by
  refine ⟨fun h => ?_, fun h => ?_⟩
  · rw [watchHit_recorded h.symm]
    exact ⟨rfl, rfl, rfl⟩
  · rw [watchHit_skipped (mt And.symm h)]
    exact ⟨rfl, rfl, rfl⟩

/-- Settles O9: READ8 and FETCH8 come to the bookkeeping of a read, each with its own tag. -/
theorem cpuReadsAnswerAndBook : Obligations.CpuReadsAnswerAndBook := by
  intro s a hlive
  have hlatch := watchHit_latch a .read s
  refine ⟨sentAs_of_encode rfl (by rw [encode, toLe_two]), sentAs_of_encode rfl (by rw [encode, toLe_two]),
    ⟨_, hlive.exec_done rfl, ?_⟩, ⟨_, hlive.exec_done rfl, ?_⟩⟩
  all_goals
    exact ⟨cellGet_booked_vis hlive.tidy a _ .read, hlatch.1, hlatch.2, congrArg (respond · _) (booked_eq a _ .read s)⟩

/-! ### Writes (20_memory.md R59, R60) -/

/-- A write of one byte: it lands at the address's flat offset or is discarded, and every other byte is unchanged. -/
theorem cellGet_storeAfter_singleton {m : Memory} (hm : Memory.wf m) (s : State) (a : Addr) (v : Byte) (off : Nat) :
    cellGet 0#8 (storeAfter s a [v] m) off
      = if landsAt s a = true ∧ off = flatOf s a then v else cellGet 0#8 m off := by
  rw [storeAfter, storeAfter]
  cases landsAt s a with
  | false => simp
  | true => simp [cellGet_cellSet hm, eq_comm]

/-- A write of two bytes is a write of the first and then, at the next address, of the second. -/
theorem storeAfter_pair (s : State) (a : Addr) (v w : Byte) (m : Memory) :
    storeAfter s a [v, w] m = storeAfter s (a + 1#16) [w] (storeAfter s a [v] m) := rfl

/-- Settles O10: WRITE8 comes to the bookkeeping of a write and the write of one byte. -/
theorem write8LandsAndBooks : Obligations.Write8LandsAndBooks := by
  intro s a v hlive
  have hlatch := watchHit_latch a .write s
  exact ⟨sentAs_of_encode rfl (by rw [encode, toLe_two]; rfl), _, hlive.exec_done rfl,
    cellGet_booked_vis hlive.tidy a .write .write, hlatch.1, hlatch.2,
    cellGet_storeAfter_singleton hlive.tidy.storeWf s a v,
    congrArg (fun u => respond { u with store := storeAfter s a [v] s.store } _) (booked_eq a .write .write s)⟩

/-- Settles O13: the debugger's writes come to the write of one byte and of two. -/
theorem setMemoryWritesBytewise : Obligations.SetMemoryWritesBytewise := by
  intro s a hlive
  have hwf := hlive.tidy.storeWf
  refine ⟨fun v => ?byte, fun w => ?word⟩
  case byte =>
    exact ⟨sentAs_of_encode rfl (by rw [encode, toLe_two]; rfl), _, hlive.exec_done rfl,
      cellGet_storeAfter_singleton hwf s a v, rfl⟩
  case word =>
    refine ⟨sentAs_of_encode rfl (by rw [encode, toLe_two, toLe_two]; rfl), _, hlive.exec_done rfl, fun off => ?_, rfl⟩
    show cellGet 0#8 (storeAfter s a (toLe 2 w.toNat) s.store) off = _
    rw [toLe_two, le16Bytes, storeAfter_pair, cellGet_storeAfter_singleton (storeAfter_wf hwf s a _),
      cellGet_storeAfter_singleton hwf]
    rfl

/-! ### Reads (20_memory.md R58, R60) -/

theorem peekBytes_two (s : State) (a : Addr) : peekBytes s a 2 = [peek s a, peek s (a + 1#16)] := by
  rw [peekBytes_succ, peekBytes_succ, peekBytes_zero]

theorem peekBytes_four (s : State) (a : Addr) :
    peekBytes s a 4 = [peek s a, peek s (a + 1#16), peek s (a + 2#16), peek s (a + 3#16)] := by
  rw [peekBytes_succ, peekBytes_succ, peekBytes_two, BitVec.add_assoc, BitVec.add_assoc]
  rfl

theorem peek_of_unpopulated {a : Addr} (h : populatedAt s a = false) : peek s a = 0xFF#8 := by
  simp [peek, h]

/-- Each byte of a multi-byte read is what its own address shows. -/
theorem peekBytes_getD (s : State) (a : Addr) {n k : Nat} (hk : k < n) :
    (peekBytes s a n).getD k 0#8 = peek s (a + BitVec.ofNat 16 k) := by
  simp [peekBytes, hk]

/-- Settles O11: the bytes answered are `peekBytes`, written out. -/
theorem getMemoryAnswersLittleEndian : Obligations.GetMemoryAnswersLittleEndian := by
  intro s a hlive
  refine ⟨sentAs_of_encode rfl (by rw [encode, toLe_two]), sentAs_of_encode rfl (by rw [encode, toLe_two]),
    sentAs_of_encode rfl (by rw [encode, toLe_two]), hlive.exec_done ?_, hlive.exec_done ?_, hlive.exec_done ?_⟩
  · rw [comes, peekBytes_succ, peekBytes_zero]
  · rw [comes, peekBytes_two]
  · rw [comes, peekBytes_four]

/-- Settles O12: the bytes answered are `peekBytes`, each of them 0xFF exactly where its slot is unpopulated. -/
theorem unpopulatedBytesReadAllOnes : Obligations.UnpopulatedBytesReadAllOnes := by
  intro s a hlive
  refine ⟨fun h0 h1 => hlive.exec_done ?_, fun h0 h1 h2 h3 => hlive.exec_done ?_,
    ⟨_, _, hlive.exec_done rfl, rfl, peekBytes_length s a 2, fun k hk => peekBytes_getD s a hk⟩,
    ⟨_, _, hlive.exec_done rfl, rfl, peekBytes_length s a 4, fun k hk => peekBytes_getD s a hk⟩⟩
  · rw [comes, peekBytes_two, peek_of_unpopulated h0, peek_of_unpopulated h1]
    rfl
  · rw [comes, peekBytes_four, peek_of_unpopulated h0, peek_of_unpopulated h1, peek_of_unpopulated h2,
      peek_of_unpopulated h3]
    rfl

/-! ### Aliased slots (40_access.md R120) -/

/-- Settles O40: the frame of WRITE8 leaves the wiring, so the two addresses still have one flat offset. -/
theorem aliasedSlotsShareBytes : Obligations.AliasedSlotsShareBytes := by
  intro s t a a' v hlive hlands hpop hbank hoff ht
  obtain ⟨-, t', ht', -, -, -, hstore, hframe⟩ := write8LandsAndBooks s a v hlive
  cases ht'.symm.trans ht
  have hpop' : populatedAt t a' = true := by rw [hframe]; exact hpop
  have hflat : flatOf t a' = flatOf s a := by
    rw [hframe]
    exact (hlive.wired.flatOf_inj a' a).mpr ⟨hbank, hoff⟩
  have hpeek : peek t a' = v := by
    rw [peek, if_pos hpop', hflat, hstore, if_pos ⟨hlands, rfl⟩]
  have hlive' : Live t := ⟨exec_keeps_inv hlive.1 ht, by rw [hframe]; exact hlive.2⟩
  obtain ⟨-, -, ⟨r, hr, -, -, -, hrframe⟩, ⟨f, hf, -, -, -, hfframe⟩⟩ := cpuReadsAnswerAndBook t a' hlive'
  rw [hpeek] at hrframe hfframe
  exact ⟨⟨r, hr, congrArg State.responses hrframe⟩, ⟨f, hf, congrArg State.responses hfframe⟩⟩

end Sys2Proof.Machine

/-!
PROOFS. Block transfers and bank loading (spec/41_block.md). What READBLOCK reads is `peekBytes` and what WRITEBLOCK
writes is `storeAfter`, as for the accesses of spec/40_access.md; `cellGet_putBank` says what WRITEBANK leaves byte by
byte. That no write through the wiring reaches a ROM bank is `Wired.flatOf_ne_of_rom`.
-/

namespace Sys2Proof.Machine

variable {s u : State} {i : Instr} {c : Config}

/-- A live state that performs an operation whose pseudocode raises a fatal error is left dead, with nothing else
changed (60_exceptions.md R241). -/
theorem Live.exec_fatal (h : Live s) (code : FatalCode) (hc : comes s i = .fatal code) :
    exec i s = .next (diedWith s (fatalByte code)) := by
  rw [exec_wired h.wired]
  exact perform_fatal h.2 hc

/-- The first check of the list fails, and its code is what the operation raises (60_exceptions.md R245). -/
theorem guarded_require_of_not {ok : Bool} {code : FatalCode} (h : ¬ ok = true) (checks : List Check) (r : OpResult) :
    guarded (require ok code :: checks) r = .fatal code := by
  rw [require, if_neg h, guarded_fail]

/-- The check of a block's length is the only one READBLOCK and WRITEBLOCK make (30_encoding.md R82). -/
theorem guarded_checkLength {n : Nat} (h : n ≤ 0x10000) (r : OpResult) : guarded [checkLength n] r = r := by
  rw [checkLength_eq_none.mpr h, guarded_pass, guarded_nil]

theorem guarded_checkLength_of_lt {n : Nat} (h : 0x10000 < n) (r : OpResult) :
    guarded [checkLength n] r = .fatal .badOperand :=
  guarded_require_of_not (by simpa using h) [] r

/-- The encoder's length field of a payload that fits it. -/
theorem toLe_three_of_lt {n : Nat} (h : n < 2 ^ 24) : toLe 3 n = le24Bytes (BitVec.ofNat 24 n) := by
  rw [← toLe_three, BitVec.toNat_ofNat, Nat.mod_eq_of_lt h]

/-! ### Writes through the wiring and ROM (20_memory.md R59, 41_block.md R147) -/

/-- The quotient of a flat offset by BANK_SIZE is its bank (10_state.md R20). -/
theorem flat_div_bankSize {b off : Nat} (ho : off < bankSize c) : (b * bankSize c + off) / bankSize c = b := by
  rw [Nat.mul_comm, Nat.mul_add_div (Nat.zero_lt_of_lt ho), Nat.div_eq_of_lt ho, Nat.add_zero]

/-- An address where a write lands is no byte of a ROM bank. -/
theorem Wired.flatOf_ne_of_rom (h : Wired s) {a : Addr} {b off : Nat} (hlands : landsAt s a = true)
    (hrom : s.romBank[b]? = some true) (hoff : off < bankSize s.cfg) : flatOf s a ≠ b * bankSize s.cfg + off := by
  intro he
  have hbank : (wiredBank s a).toNat = b := by
    calc (wiredBank s a).toNat = flatOf s a / bankSize s.cfg := by
          rw [h.flatOf_eq, flat_div_bankSize (Nat.mod_lt _ (bankSize_pos h.legal))]
      _ = b := by rw [he, flat_div_bankSize hoff]
  simp [landsAt, hbank, hrom] at hlands

/-- Only the two operations that load whole banks have an effect on a ROM byte. -/
theorem Effect.storeByte_of_rom (h : Effect s i u) (hlive : Live s) (hwritebank : ∀ b bytes, i ≠ .writebank b bytes)
    (hdeserialize : ∀ bytes, i ≠ .deserialize bytes) {b off : Nat} (hrom : s.romBank[b]? = some true)
    (hoff : off < bankSize s.cfg) :
    storeByte u (b * bankSize s.cfg + off) = storeByte s (b * bankSize s.cfg + off) := by
  cases h with
  | write8 | setmem8 | setmem16 | writeblock =>
    exact storeAfter_frame hlive.tidy.storeWf s _ _ _ fun _ _ hl => hlive.wired.flatOf_ne_of_rom hl hrom hoff
  | writebank b bytes => exact absurd rfl (hwritebank b bytes)
  | deserialize bytes => exact absurd rfl (hdeserialize bytes)
  | _ => simp [storeByte]

/-- Settles O41: an operation has no effect but a write through the wiring, which does not land in ROM. -/
theorem romBytesProtected : Obligations.RomBytesProtected := by
  intro s t i hlive h
  obtain ⟨u, hu, ht⟩ := exec_next_effect hlive.1 h
  obtain ⟨-, hflags, -, -⟩ := hu.fixed_items
  rw [ht]
  exact ⟨hflags, fun hwritebank hdeserialize b off hrom hoff =>
    hu.storeByte_of_rom hlive hwritebank hdeserialize hrom hoff⟩

/-! ### Block transfers (41_block.md R140 to R145) -/

/-- Settles O14: the bytes answered are `peekBytes`. -/
theorem readBlockAnswersEachAddress : Obligations.ReadBlockAnswersEachAddress := by
  intro s a n hlive
  refine ⟨sentAs_of_encode rfl (by rw [encode, toLe_two, toLe_three]; rfl), fun hn => ?_, fun hn => ?_⟩
  · exact ⟨peekBytes s a n.toNat, hlive.exec_done (guarded_checkLength hn _), peekBytes_length s a n.toNat,
      fun k hk => peekBytes_getD s a hk⟩
  · exact hlive.exec_fatal .badOperand (guarded_checkLength_of_lt hn _)

/-- Settles O15: the bytes are written by `storeAfter`, of which the last landing byte and the frame are known. -/
theorem writeBlockKeepsLastByte : Obligations.WriteBlockKeepsLastByte := by
  intro s a bytes hlive
  have hwf := hlive.tidy.storeWf
  refine ⟨fun hl => sentAs_of_encode (decide_eq_true hl) (by rw [encode, toLe_two, toLe_three_of_lt hl]; rfl),
    fun hn => ⟨_, hlive.exec_done (guarded_checkLength hn _), fun k hk hlands hlater => ?_, fun off hoff => ?_, rfl⟩,
    fun hn => hlive.exec_fatal .badOperand (guarded_checkLength_of_lt hn _)⟩
  · rw [List.getD_eq_getElem _ _ hk]
    exact storeAfter_last hwf s a bytes k hk hlands hlater
  · exact storeAfter_frame hwf s a bytes off hoff

/-! ### Bank loading (41_block.md R146 to R148) -/

/-- The run of a whole bank holds the flat offsets of that bank and no others. -/
theorem flatOffset_mem_bank_iff {b b' : Byte} {off : Nat} (ho : off < bankSize c) :
    (flatOffset c b 0 ≤ flatOffset c b' off ∧ flatOffset c b' off < flatOffset c b 0 + bankSize c) ↔ b' = b := by
  constructor
  · rintro ⟨hle, hlt⟩
    have hrest : flatOffset c b' off - flatOffset c b 0 < bankSize c := by omega
    have he : flatOffset c b' off = flatOffset c b (flatOffset c b' off - flatOffset c b 0) := by
      unfold flatOffset at hle ⊢
      omega
    exact ((flatOffset_inj ho hrest).mp he).1
  · rintro rfl
    unfold flatOffset
    omega

/-- A read after a whole bank was replaced: the new bytes in that bank, and what was there before in every other. -/
theorem cellGet_putBank {b b' : Byte} {bytes : List Byte} {off : Nat} (hl : bytes.length = bankSize c)
    (ho : off < bankSize c) (m : Memory) :
    cellGet 0#8 (cellPutRun 0#8 m (flatOffset c b 0) bytes) (flatOffset c b' off)
      = if b' = b then bytes.getD off 0#8 else cellGet 0#8 m (flatOffset c b' off) := by
  rw [cellGet_cellPutRun, hl]
  simp only [flatOffset_mem_bank_iff ho]
  split
  · next hb =>
    subst hb
    simp [flatOffset]
  · rfl

/-- Settles O16: WRITEBANK puts the run of one whole bank after its two checks, neither of which looks at ROM. -/
theorem writeBankReplacesBank : Obligations.WriteBankReplacesBank := by
  intro s b bytes hlive
  refine ⟨fun hl => sentAs_of_encode (decide_eq_true hl) (by rw [encode, toLe_three_of_lt hl]; rfl),
    fun hb hl => ⟨_, hlive.exec_done (guarded_of_passed ?passed _), fun b' off ho => ?_, rfl⟩,
    fun hb => hlive.exec_fatal .badBank (guarded_require_of_not (by simpa using hb) _ _),
    fun hb hl => hlive.exec_fatal .bankLength ?length⟩
  case passed => simpa using ⟨hb, hl⟩
  case length =>
    rw [comes, checkBank_eq_none.mpr hb, guarded_pass]
    exact guarded_require_of_not (by simpa using hl) _ _
  · exact cellGet_putBank hl ho s.store

end Sys2Proof.Machine

/-!
PROOFS. Slot wiring, bank-switch rules and the display selector (spec/42_mapping.md). What an address shows is known
from its own slot's two registers, so SETSLOT and SETNOTPOP are read off what they leave there (`Wired.wiredBank_set`,
`Wired.populatedAt_set`). What IOWRITE does to a slot is the last matching rule that names it (`applyRules_last`).
-/

namespace Sys2Proof.Machine

variable {s u : State}

/-! ### One slot's registers, and what its addresses show (20_memory.md R54, R58) -/

/-- The registers after the one of an index that exists is set. -/
theorem getElem?_set_of_lt {α : Type} {l : List α} {i : Nat} (hi : i < l.length) (x : α) (j : Nat) :
    (l.set i x)[j]? = if j = i then some x else l[j]? := by
  rw [List.getElem?_set, if_pos hi]
  simp only [eq_comm]

/-- Where one slot's bank is set, the addresses of that slot have the new bank and the others the one they had. -/
theorem Wired.wiredBank_set (h : Wired s) {i : Nat} {b : Byte} (hi : i < s.cfg.slotCount) (hcfg : u.cfg = s.cfg)
    (hset : u.slotBank = s.slotBank.set i b) (a : Addr) :
    wiredBank u a = if a.toNat / bankSize s.cfg = i then b else wiredBank s a := by
  rw [wiredBank, wiredBank, hcfg, hset, slotOf_eq_div h.legal, List.getD_eq_getElem?_getD,
    getElem?_set_of_lt (h.bankLength ▸ hi)]
  split <;> simp

/-- Where one slot's populated bit is set, it is the addresses of that slot that have the new bit. -/
theorem Wired.populatedAt_set (h : Wired s) {i : Nat} {x : Bool} (hi : i < s.cfg.slotCount) (hcfg : u.cfg = s.cfg)
    (hset : u.slotPop = s.slotPop.set i x) (a : Addr) :
    populatedAt u a = if a.toNat / bankSize s.cfg = i then x else populatedAt s a := by
  rw [populatedAt, populatedAt, hcfg, hset, slotOf_eq_div h.legal, List.getD_eq_getElem?_getD,
    getElem?_set_of_lt (h.popLength ▸ hi)]
  split <;> simp

/-- An address shows the same byte of a store while its bank and its populated bit are the same. -/
theorem peek_congr {a : Addr} (hcfg : u.cfg = s.cfg) (hstore : u.store = s.store)
    (hbank : wiredBank u a = wiredBank s a) (hpop : populatedAt u a = populatedAt s a) : peek u a = peek s a := by
  rw [peek, peek, storeByte, storeByte, flatOf, flatOf, hcfg, hstore, hbank, hpop]

/-- The addresses of a slot just wired show its bank, and the others what they showed (42_mapping.md R161). -/
theorem peek_wireSlot (h : Wired s) {i : Nat} (hi : i < s.cfg.slotCount) (b : Byte) (a : Addr) :
    peek (wireSlot i b s) a =
      if a.toNat / bankSize s.cfg = i then storeByte s (b.toNat * bankSize s.cfg + a.toNat % bankSize s.cfg)
      else peek s a := by
  have hbank := h.wiredBank_set hi (wireSlot_cfg i b s) (wireSlot_slotBank i b s) a
  have hpop := h.populatedAt_set hi (wireSlot_cfg i b s) (wireSlot_slotPop i b s) a
  split
  · next hslot =>
    rw [if_pos hslot] at hbank hpop
    rw [peek, if_pos hpop, flatOf, hbank, wireSlot_cfg, flatOffset, bankOffset_eq_mod h.legal]
    rfl
  · next hslot =>
    rw [if_neg hslot] at hbank hpop
    exact peek_congr rfl rfl hbank hpop

/-- Settles O17: the two checks pass and the slot is wired, or the first that fails is raised. -/
theorem setSlotWiresAndPopulates : Obligations.SetSlotWiresAndPopulates := by
  intro s i b hlive
  have hw := hlive.wired
  refine ⟨sentAs_of_encode rfl rfl, fun hi hb => ?wired,
    fun hi => hlive.exec_fatal .badSlot (guarded_require_of_not (by simpa using hi) _ _),
    fun hi hb => hlive.exec_fatal .badBank ?bank⟩
  case wired =>
    refine ⟨_, hlive.exec_done (guarded_of_passed (by simpa using ⟨hi, hb⟩) _),
      getElem?_set_of_lt (hw.bankLength ▸ hi) b, getElem?_set_of_lt (hw.popLength ▸ hi) true,
      fun a hslot => ?_, fun a hslot => ?_, rfl⟩
    · exact (peek_wireSlot hw hi b a).trans (if_pos hslot)
    · exact (peek_wireSlot hw hi b a).trans (if_neg hslot)
  case bank =>
    rw [comes, checkSlot_eq_none.mpr hi, guarded_pass]
    exact guarded_require_of_not (by simpa using hb) _ _

/-- Settles O18: the one thing written is the slot's populated bit. -/
theorem setNotPopHidesSlot : Obligations.SetNotPopHidesSlot := by
  intro s i hlive
  have hw := hlive.wired
  refine ⟨sentAs_of_encode rfl rfl, fun hi => ?hidden,
    fun hi => hlive.exec_fatal .badSlot (guarded_require_of_not (by simpa using hi) _ _)⟩
  have hpop := hw.populatedAt_set (u := respond { s with slotPop := s.slotPop.set i.toNat false } [0x00#8]) hi rfl rfl
  refine ⟨_, hlive.exec_done (guarded_of_passed (by simpa using hi) _),
    getElem?_set_of_lt (hw.popLength ▸ hi) false, fun a hslot => ?inside, fun a hslot => ?outside, rfl⟩
  case inside =>
    have hpop := (hpop a).trans (if_pos hslot)
    exact ⟨peek_of_unpopulated hpop, by rw [landsAt, hpop, Bool.false_and]⟩
  case outside =>
    have hpop := (hpop a).trans (if_neg hslot)
    exact ⟨peek_congr rfl rfl rfl hpop, by rw [landsAt, landsAt, hpop]; rfl⟩

/-! ### The bank-switch rules (42_mapping.md R166 to R171) -/

section rules

variable {p : Port} {v : Byte}

/-- The loop over the rules writes the bank indexes and the populated bits alone (42_mapping.md R168). -/
theorem applyRules_eq (rs : List BankRule) (x : State) :
    rs.foldl (applyRule p v) x =
      { x with
        slotBank := (rs.foldl (applyRule p v) x).slotBank
        slotPop := (rs.foldl (applyRule p v) x).slotPop } := by
  induction rs generalizing x with
  | nil => rfl
  | cons q rs ih =>
    rw [List.foldl_cons]
    by_cases hq : p &&& q.portMask = q.portMatch ∧ q.slot ≠ 0xFF#8
    · rw [applyRule_wires hq.1 hq.2]
      exact ih _
    · rw [applyRule_skips hq]
      exact ih x

/-- The last matching rule that names a slot decides its bank, and the slot is populated (42_mapping.md R169). -/
theorem applyRules_last {pre post : List BankRule} {r : BankRule} {x : State}
    (hm : p &&& r.portMask = r.portMatch) (hs : r.slot ≠ 0xFF#8)
    (hbank : r.slot.toNat < x.slotBank.length) (hpop : r.slot.toNat < x.slotPop.length)
    (hpost : ∀ q ∈ post, ¬ (p &&& q.portMask = q.portMatch ∧ q.slot ≠ 0xFF#8 ∧ q.slot.toNat = r.slot.toNat)) :
    ((pre ++ r :: post).foldl (applyRule p v) x).slotBank[r.slot.toNat]? = some (ruleBank r v) ∧
      ((pre ++ r :: post).foldl (applyRule p v) x).slotPop[r.slot.toNat]? = some true := by
  obtain ⟨hbanks, hpops⟩ := applyRules_lengths (p := p) (v := v) pre x
  rw [List.foldl_append, List.foldl_cons, applyRule_wires hm hs]
  obtain ⟨hb, hp⟩ := applyRules_other (v := v) r.slot.toNat post _ hpost
  rw [hb, hp]
  exact ⟨List.getElem?_set_self (hbanks ▸ hbank), List.getElem?_set_self (hpops ▸ hpop)⟩

/-- The lock after the rules ran (42_mapping.md R168, R170). -/
theorem runRules_lock_eq_true {x : State} :
    (runRules p v x).lock = true ↔ ∃ r ∈ x.cfg.rules, p &&& r.portMask = r.portMatch ∧ r.lockBit ≠ 15#4 ∧
      v.getLsbD r.lockBit.toNat = true := by
  simp [ruleMatches, ruleLocks]

end rules

/-- Settles O19: a locked IOWRITE comes to nothing, any other to the loop over the rules. -/
theorem ioWriteAppliesMatchingRules : Obligations.IoWriteAppliesMatchingRules := by
  intro s p v hlive applies
  have hw := hlive.wired
  obtain ⟨-, -, -, -, -, -, -, hvalid⟩ := validate_none hw.cfgValid
  refine ⟨sentAs_of_encode rfl (by rw [encode, toLe_two]; rfl), fun hl => hlive.exec_done (by rw [comes, if_pos hl]),
    fun hl => ⟨_, hlive.exec_done (by rw [comes, hl, if_neg Bool.false_ne_true]), ?last, ?other,
      ?lock, ?frame⟩⟩
  case last =>
    rintro pre post r j hrules ⟨hm, hs, rfl⟩ hpost
    have hr : ruleValid s.cfg r = true := hvalid r (by simp [hrules])
    obtain ⟨hslot, -⟩ := ruleValid_slot hr hs
    obtain ⟨hbank, hpop⟩ := applyRules_last (v := v) (pre := pre) hm hs (hw.bankLength ▸ hslot)
      (hw.popLength ▸ hslot) hpost
    rw [respond_slotPop, respond_slotBank, runRules_slotPop, runRules_slotBank, hrules]
    exact ⟨hpop, _, hbank, (ruleBank_toNat hr hs hw.bankCount_le).1⟩
  case other => exact fun j hnone => applyRules_other j _ s hnone
  case lock => exact runRules_lock_eq_true
  case frame =>
    exact congrArg (fun x => respond { x with lock := (runRules p v s).lock } [0x00#8]) (applyRules_eq s.cfg.rules s)

/-- Settles O20: with no matching rule, no slot is named and no lock bit is set; the frame is that of O19. -/
theorem ioWriteUnmatchedDoesNothing : Obligations.IoWriteUnmatchedDoesNothing := by
  intro s p v hlive
  obtain ⟨-, hlocked, hunlocked⟩ := ioWriteAppliesMatchingRules s p v hlive
  by_cases hl : s.lock = true
  · exact ⟨fun _ => hlocked hl, _, hlocked hl, rfl⟩
  · have hl : s.lock = false := Bool.eq_false_of_not_eq_true hl
    obtain ⟨t, ht, -, hother, hlock, hframe⟩ := hunlocked hl
    refine ⟨fun hnone => ?_, t, ht, hframe⟩
    have hsame (j : Nat) := hother j fun r hr happlies => hnone r hr happlies.1
    have hbank : t.slotBank = s.slotBank := List.ext_getElem? fun j => (hsame j).1
    have hpop : t.slotPop = s.slotPop := List.ext_getElem? fun j => (hsame j).2
    have hclear : t.lock = s.lock := by
      rw [hl, ← Bool.not_eq_true, hlock]
      exact fun ⟨r, hr, hm, _⟩ => hnone r hr hm
    rw [ht, hframe, hbank, hpop, hclear]

/-! ### The display selector (42_mapping.md R175) -/

theorem checkFlag_eq_none {f : Byte} : checkFlag f = none ↔ f = 0#8 ∨ f = 1#8 := by
  rw [checkFlag, require_eq_none, decide_eq_true_iff]
  bv_omega

/-- The selector's bit of a legal flag byte says which of the two it is. -/
theorem getLsbD_zero_of_flag {f : Byte} (hf : f = 0#8 ∨ f = 1#8) : f.getLsbD 0 = decide (f = 1#8) := by
  rcases hf with rfl | rfl <;> rfl

/-- Settles O21: the selector is checked first, then the flag byte; what is written is DISP_SHADOW. -/
theorem setDisplaySelectsBank : Obligations.SetDisplaySelectsBank := by
  intro s f hlive
  refine ⟨sentAs_of_encode rfl rfl, fun hsel hf => ?selected, fun hsel hf => hlive.exec_fatal .badOperand ?flag,
    fun hsel => exec_setdisplay_of_no_selector hlive.2 hsel f⟩
  case selected =>
    have hc : comes s (.setdisplay f) = .done { s with dispShadow := decide (f = 1#8) } [] := by
      rw [← getLsbD_zero_of_flag hf]
      exact guarded_of_passed (by simpa [checkFlag_eq_none] using ⟨hsel, hf⟩) _
    exact ⟨_, hlive.exec_done hc, by simp [displayBank, hsel], rfl⟩
  case flag =>
    rw [comes, checkSelector_eq_none.mpr hsel, guarded_pass]
    exact guarded_require_of_not (mt (fun h => checkFlag_eq_none.mp (require_eq_none.mpr h)) hf) _ _

end Sys2Proof.Machine

/-!
PROOFS. Watchpoints, hit latch and visual memory (spec/43_debug.md). `SameButVis` relates what an operation comes to in
two states that differ in visual memory alone; each part of an operation's meaning respects it, in every state. The
counter tables are read through `cellGet_countersMasked_wpR` and its kin for the write counters.
-/

namespace Sys2Proof.Machine

variable {s t u : State} {i : Instr}

/-! ### Visual memory is never read but by GETVIS (43_debug.md R199) -/

/-- Two results that differ in the visual memory of the state they leave, if at all. -/
inductive SameButVis : OpResult → OpResult → Prop
  | done {t u : State} {result : List Byte} (h : u = { t with vis := u.vis }) :
    SameButVis (.done t result) (.done u result)
  | fatal (code : FatalCode) : SameButVis (.fatal code) (.fatal code)
  | fault (f : Fault) : SameButVis (.fault f) (.fault f)

theorem SameButVis.guarded {r r' : OpResult} (h : SameButVis r r') (checks : List Check) :
    SameButVis (guarded checks r) (guarded checks r') := by
  unfold Machine.guarded
  split
  · exact .fatal _
  · exact h

theorem SameButVis.withValue {α : Type} {k k' : α → OpResult} (h : ∀ v, SameButVis (k v) (k' v))
    (x : Except Fault α) : SameButVis (withValue x k) (withValue x k') := by
  cases x with
  | ok v => exact h v
  | error f => exact .fault f

/-- Performing two such operations: the answers are the same, and the states left differ in visual memory alone. -/
theorem SameButVis.perform {op : State → OpResult} {vis : List (Nat × VisTag)}
    (hop : SameButVis (op s) (op { s with vis := vis })) (h : perform op s = .next t) :
    ∃ u, perform op { s with vis := vis } = .next u ∧ u = { t with vis := u.vis } := by
  rcases perform_next h with ⟨hf, rfl⟩ | ⟨hf, v, result, ho, rfl⟩ | ⟨hf, code, ho, rfl⟩
  · exact ⟨_, perform_dead hf, rfl⟩
  · generalize ho' : op { s with vis := vis } = r' at hop
    rw [ho] at hop
    cases hop with
    | done hv => exact ⟨_, perform_done hf ho', congrArg (respond · _) hv⟩
  · generalize ho' : op { s with vis := vis } = r' at hop
    rw [ho] at hop
    cases hop
    exact ⟨_, perform_fatal hf ho', rfl⟩

section withVis

variable (s) (vis : List (Nat × VisTag)) (a : Addr)

theorem memRead8_withVis : memRead8 { s with vis := vis } a = memRead8 s a := rfl

theorem memRead_withVis (n : Nat) : memRead { s with vis := vis } a n = memRead s a n := by
  induction n generalizing a with
  | zero => rfl
  | succ n ih => simp only [memRead, memRead8_withVis, ih]

theorem memWrite8_withVis (v : Byte) (m : Memory) : memWrite8 { s with vis := vis } a v m = memWrite8 s a v m := rfl

theorem memWrite_withVis (bytes : List Byte) (m : Memory) :
    memWrite { s with vis := vis } a bytes m = memWrite s a bytes m := by
  induction bytes generalizing a m with
  | nil => rfl
  | cons v vs ih => simp only [memWrite, memWrite8_withVis, ih]

/-- A multi-byte read whose answer is made of the bytes read. -/
theorem sameButVis_memRead (n : Nat) (answer : List Byte → List Byte) :
    SameButVis (withValue (memRead s a n) (fun bytes => .done s (answer bytes)))
      (withValue (memRead { s with vis := vis } a n) (fun bytes => .done { s with vis := vis } (answer bytes))) := by
  rw [memRead_withVis s vis]
  exact .withValue (fun _ => .done rfl) _

theorem sameButVis_answerWrite (bytes : List Byte) :
    SameButVis (answerWrite s a bytes) (answerWrite { s with vis := vis } a bytes) := by
  unfold answerWrite
  rw [memWrite_withVis s vis]
  exact .withValue (fun _ => .done rfl) _

/-- The bookkeeping of an access writes the address's tag into whatever visual memory there is. -/
theorem booked_withVis (cls : VisTag) (acc : Access) :
    tagAccess a cls (watchHit a acc { s with vis := vis }) =
      { tagAccess a cls (watchHit a acc s) with vis := cellSet .none vis (bucketOf s.cfg a) cls } := by
  by_cases hr : 0 < wpCount s acc a ∧ s.hitValid = false
  · rw [watchHit_recorded hr, watchHit_recorded (s := { s with vis := vis }) hr]
    rfl
  · rw [watchHit_skipped hr, watchHit_skipped (s := { s with vis := vis }) hr]
    rfl

theorem sameButVis_cpuRead (cls : VisTag) : SameButVis (cpuRead a cls s) (cpuRead a cls { s with vis := vis }) := by
  unfold cpuRead
  rw [memRead8_withVis s vis, booked_withVis s vis]
  exact .withValue (fun _ => .done rfl) _

theorem applyRule_withVis (p : Port) (v : Byte) (r : BankRule) :
    applyRule p v { s with vis := vis } r = { applyRule p v s r with vis := vis } := by
  unfold applyRule
  split <;> rfl

theorem runRules_withVis (p : Port) (v : Byte) :
    runRules p v { s with vis := vis } = { runRules p v s with vis := vis } := by
  have hfold : s.cfg.rules.foldl (applyRule p v) { s with vis := vis } =
      { s.cfg.rules.foldl (applyRule p v) s with vis := vis } :=
    List.foldl_hom (fun x : State => { x with vis := vis }) fun x r => applyRule_withVis x vis p v r
  unfold runRules
  rw [hfold]

end withVis

/-- Settles O44: each operation's meaning is made of parts that respect `SameButVis`. -/
theorem visualMemoryNeverMatters : Obligations.VisualMemoryNeverMatters := by
  intro s t vis i hgetvis h
  cases i <;> simp only [exec] at h ⊢
  case read8 a | fetch8 a => exact (sameButVis_cpuRead s vis a _).perform h
  case write8 a v =>
    refine SameButVis.perform ?_ h
    rw [booked_withVis s vis]
    exact sameButVis_answerWrite _ _ a [v]
  case getmem8 a => exact (sameButVis_memRead s vis a 1 id).perform h
  case getmem16 a => exact (sameButVis_memRead s vis a 2 fun bytes => toLe 2 (ofLe bytes)).perform h
  case getmem32 a => exact (sameButVis_memRead s vis a 4 fun bytes => toLe 4 (ofLe bytes)).perform h
  case setmem8 a v => exact (sameButVis_answerWrite s vis a [v]).perform h
  case setmem16 a w => exact (sameButVis_answerWrite s vis a (toLe 2 w.toNat)).perform h
  case readblock a n => exact ((sameButVis_memRead s vis a n.toNat id).guarded _).perform h
  case writeblock a bytes => exact ((sameButVis_answerWrite s vis a bytes).guarded _).perform h
  case iowrite p v =>
    refine SameButVis.perform ?_ h
    rw [runRules_withVis s vis]
    split
    · exact .done rfl
    · exact .done rfl
  case setwp a n c => exact SameButVis.perform (.guarded (.guarded (.done rfl) _) _) h
  case writebank | setslot | setnotpop | removewp | deserialize | setdisplay =>
    exact SameButVis.perform (.guarded (.done rfl) _) h
  case clearhit | gethit | serialize | getsersize | clearvis => exact SameButVis.perform (.done rfl) h
  case getvis => exact absurd rfl hgetvis

/-! ### Watchpoint counters (43_debug.md R190 to R193) -/

theorem checkMask_eq_none {c : Byte} : checkMask c = none ↔ c.toNat < 4 := by
  rw [checkMask, require_eq_none, decide_eq_true_iff]
  omega

/-- Legal operands pass the two checks of SETWP and REMOVEWP (30_encoding.md R82). -/
theorem guarded_watchOperands {n : Nat} {c : Byte} (h : c.toNat < 4 ∧ n ≤ 0x10000) (r : OpResult) :
    guarded [checkMask c, checkLength n] r = r := by
  rw [checkMask_eq_none.mpr h.1, guarded_pass, guarded_checkLength h.2]

theorem guarded_watchOperands_of_not {n : Nat} {c : Byte} (h : ¬ (c.toNat < 4 ∧ n ≤ 0x10000)) (r : OpResult) :
    guarded [checkMask c, checkLength n] r = .fatal .badOperand := by
  by_cases hc : c.toNat < 4
  · rw [checkMask_eq_none.mpr hc, guarded_pass, guarded_checkLength_of_lt (by omega)]
  · exact guarded_require_of_not (mt (fun h => checkMask_eq_none.mp (require_eq_none.mpr h)) hc) _ _

/-- What one pass over a range leaves of both counter tables (43_debug.md R190, R192). -/
theorem cellGet_countersMasked (h : Tidy s) (f : Nat → Nat) (a : Addr) {n : Nat} (c : Byte) (hn : n ≤ 0x10000)
    (x : Nat) :
    (c.getLsbD 0 = true ∧ InWrap a n x → cellGet 0 (countersMasked f s a n c).wpR x = f (cellGet 0 s.wpR x)) ∧
    (¬ (c.getLsbD 0 = true ∧ InWrap a n x) → cellGet 0 (countersMasked f s a n c).wpR x = cellGet 0 s.wpR x) ∧
    (c.getLsbD 1 = true ∧ InWrap a n x → cellGet 0 (countersMasked f s a n c).wpW x = f (cellGet 0 s.wpW x)) ∧
    (¬ (c.getLsbD 1 = true ∧ InWrap a n x) → cellGet 0 (countersMasked f s a n c).wpW x = cellGet 0 s.wpW x) := by
  obtain ⟨hrIn, hrOut⟩ := cellGet_countersMasked_wpR f h.wpRAddrs a n c x hn
  obtain ⟨hwIn, hwOut⟩ := cellGet_countersMasked_wpW f h.wpWAddrs a n c x hn
  exact ⟨hrIn, hrOut, hwIn, hwOut⟩

/-- Settles O22: after the operand checks and the check for a full counter, one pass over the range counts up. -/
theorem setWatchpointCounts : Obligations.SetWatchpointCounts := by
  intro s a n c hlive legal full
  refine ⟨sentAs_of_encode rfl (by rw [encode, toLe_two, toLe_three]; rfl), fun hlegal hfull => ?counted,
    fun hlegal hfull => hlive.exec_fatal .wpOverflow ?overflow,
    fun hlegal => hlive.exec_fatal .badOperand (guarded_watchOperands_of_not hlegal _)⟩
  case counted =>
    have hroom : someCounterFull s a n.toNat c = false :=
      Bool.eq_false_of_not_eq_true (mt someCounterFull_true.mp hfull)
    have hcomes : comes s (.setwp a n c) = .done (countersMasked (fun k => k + 1) s a n.toNat c) [] := by
      rw [comes, guarded_watchOperands hlegal, hroom]
      rfl
    exact ⟨_, hlive.exec_done hcomes, cellGet_countersMasked hlive.tidy (fun k => k + 1) a c hlegal.2, rfl⟩
  case overflow =>
    rw [comes, guarded_watchOperands hlegal, someCounterFull_true.mpr hfull]
    rfl

/-- Settles O23: after the operand checks, one pass over the range counts down, and `0 - 1 = 0`. -/
theorem removeWatchpointClamps : Obligations.RemoveWatchpointClamps := by
  intro s a n c hlive legal
  exact ⟨sentAs_of_encode rfl (by rw [encode, toLe_two, toLe_three]; rfl),
    fun hlegal => ⟨_, hlive.exec_done (guarded_watchOperands hlegal _),
      cellGet_countersMasked hlive.tidy (fun k => k - 1) a c hlegal.2, rfl⟩,
    fun hlegal => hlive.exec_fatal .badOperand (guarded_watchOperands_of_not hlegal _)⟩

/-- A SETWP that meets no fatal error had legal operands, and counted up. -/
theorem setwp_of_no_fatal {a : Addr} {n : Len24} {c : Byte} (hlive : Live s) (h : exec (.setwp a n c) s = .next t)
    (hf : t.fatal = false) :
    (c.toNat < 4 ∧ n.toNat ≤ 0x10000) ∧ t = respond (countersMasked (fun k => k + 1) s a n.toNat c) [0x00#8] := by
  rcases exec_live hlive.wired hlive.2 (.setwp a n c) with ⟨u, result, hc, he⟩ | ⟨code, -, he⟩
  · simp only [comes, guarded_eq_done, List.forall_mem_cons, checkMask_eq_none, checkLength_eq_none] at hc
    obtain ⟨⟨hmask, hlength, -⟩, -, ⟨⟩⟩ := hc
    cases he.symm.trans h
    exact ⟨⟨hmask, hlength⟩, rfl⟩
  · cases he.symm.trans h
    cases hf

/-- Counting a range up and then down gives a canonical table back (43_debug.md R193). -/
theorem countersRange_down_up {m : List (Nat × Nat)} (hwf : cellsWf 0 m) (haddrs : ∀ p ∈ m, p.1 < 0x10000)
    (a : Addr) {n : Nat} (hn : n ≤ 0x10000) :
    countersRange (fun k => k - 1) (countersRange (fun k => k + 1) m a n) a n = m := by
  refine cells_ext (countersRange_wf _ (countersRange_wf _ hwf a n) a n) hwf fun x => ?_
  obtain ⟨hupIn, hupOut⟩ := cellGet_countersRange_inWrap (fun k => k + 1) haddrs a n x hn
  obtain ⟨hdownIn, hdownOut⟩ :=
    cellGet_countersRange_inWrap (fun k => k - 1) (countersRange_addrs (fun k => k + 1) haddrs a n hn) a n x hn
  by_cases hx : InWrap a n x
  · rw [hdownIn hx, hupIn hx, Nat.add_sub_cancel]
  · rw [hdownOut hx, hupOut hx]

/-- Settles O24: REMOVEWP counts down the ranges that SETWP counted up, and leaves the other table alone. -/
theorem addThenRemoveRestoresTable : Obligations.AddThenRemoveRestoresTable := by
  intro s t a n c hlive h hf
  have hlive' : Live t := ⟨exec_keeps_inv hlive.1 h, hf⟩
  obtain ⟨hlegal, rfl⟩ := setwp_of_no_fatal hlive h hf
  have hread := countersRange_down_up hlive.tidy.wpRWf hlive.tidy.wpRAddrs a hlegal.2
  have hwrite := countersRange_down_up hlive.tidy.wpWWf hlive.tidy.wpWAddrs a hlegal.2
  refine ⟨_, hlive'.exec_done (guarded_watchOperands hlegal _), ?_, ?_, hf⟩
  · cases hc : maskRead c <;> simp [hc, hread]
  · cases hc : maskWrite c <;> simp [hc, hwrite]

/-! ### The hit latch (43_debug.md R194 to R197) -/

theorem bitByte_eq (b : Bool) : bitByte b = if b = true then 0x01#8 else 0x00#8 := by
  cases b <;> rfl

theorem accessByte_eq (acc : Access) : accessByte acc = if acc = .write then 0x01#8 else 0x00#8 := by
  cases acc <;> rfl

/-- Settles O25: an unset latch is zero by the invariant (10_state.md R33). -/
theorem hitLatchClearedAndRead : Obligations.HitLatchClearedAndRead := by
  intro s hlive
  have hclear := hlive.exec_done (i := .clearhit) rfl
  refine ⟨sentAs_of_encode rfl rfl, sentAs_of_encode rfl rfl, hclear, hlive.exec_done ?_,
    fun hunset => hlive.exec_done ?_⟩
  · rw [comes, bitByte_eq, accessByte_eq, toLe_two]
  · obtain ⟨haddr, hacc⟩ := hlive.tidy.hitUnset hunset
    rw [comes, hunset, haddr, hacc]
    rfl

/-- Every effect but CLEARHIT's leaves a set latch as it was (43_debug.md R197). -/
theorem Effect.keeps_set_latch (h : Effect s i u) (hclearhit : i ≠ .clearhit) (hset : s.hitValid = true) :
    u.hitValid = true ∧ u.hitAddr = s.hitAddr ∧ u.hitAccess = s.hitAccess := by
  cases h with
  | read8 a | fetch8 a | write8 a v => simp [watchHit_of_set a _ s hset, hset]
  | clearhit => exact absurd rfl hclearhit
  | _ => simp [hset]

/-- Only the CPU's accesses and CLEARHIT have an effect on the latch (43_debug.md R197). -/
theorem Effect.latch_of_others (h : Effect s i u) (hread8 : ∀ a, i ≠ .read8 a) (hfetch8 : ∀ a, i ≠ .fetch8 a)
    (hwrite8 : ∀ a v, i ≠ .write8 a v) (hclearhit : i ≠ .clearhit) :
    u.hitValid = s.hitValid ∧ u.hitAddr = s.hitAddr ∧ u.hitAccess = s.hitAccess := by
  cases h with
  | read8 a => exact absurd rfl (hread8 a)
  | fetch8 a => exact absurd rfl (hfetch8 a)
  | write8 a v => exact absurd rfl (hwrite8 a v)
  | clearhit => exact absurd rfl hclearhit
  | _ => simp

/-- Settles O42: an operation leaves the latch of one of its effects. -/
theorem hitLatchWriters : Obligations.HitLatchWriters := by
  intro s t i hi h
  obtain ⟨u, hu, ht⟩ := exec_next_effect hi h
  rw [ht]
  exact ⟨hu.keeps_set_latch, hu.latch_of_others⟩

/-! ### Visual memory cleared and read (43_debug.md R198, R200) -/

/-- Settles O26: an empty table reads NONE everywhere, and GETVIS answers a byte for each bucket. -/
theorem visualMemoryClearedAndRead : Obligations.VisualMemoryClearedAndRead := by
  intro s hlive
  refine ⟨sentAs_of_encode rfl rfl, sentAs_of_encode rfl rfl,
    ⟨_, hlive.exec_done rfl, fun k => cellGet_nil _ k, rfl⟩, _, hlive.exec_done rfl, ?_, fun k hk => ?_⟩
  · rw [List.length_map, List.length_range, visCount, Nat.shiftRight_eq_div_pow]
  · rw [List.getD_eq_getElem _ _ hk, List.getElem_map, List.getElem_range]
    cases cellGet .none s.vis k <;> rfl

end Sys2Proof.Machine

/-!
PROOFS. The snapshot (spec/44_snapshot.md). A snapshot is read by `snapshotBanks`, `snapshotStoreLength` and
`snapshotStore`: what each of them gives is said byte by byte for any bytes, and as a whole for the snapshot of a state.
`guarded_snapshotChecks` says once what DESERIALIZE's checks raise, `restore_snapshotOf` what a snapshot brings back.
-/

namespace Sys2Proof.Machine

variable {s u : State} {c : Config} {bytes : List Byte}

/-! ### The size of a snapshot (44_snapshot.md R221) -/

/-- A snapshot has at most 0x1000006 bytes, those of one slot and 256 banks. -/
theorem Wired.serSize_le (h : Wired s) : serSize s.cfg ≤ 0x1000006 := by
  have hbanks := h.bankCount_le
  unfold serSize storeSize bankSize
  rcases legal_slotCount_cases h.legal with hn | hn | hn | hn | hn | hn | hn | hn <;> rw [hn] <;> omega

/-- The header of a snapshot is part of its length. -/
theorem header_le (hl : bytes.length = serSize c) : 5 + c.slotCount ≤ bytes.length := by
  rw [hl, serSize]
  omega

/-- STORE_SIZE fits the length field of a snapshot. -/
theorem Wired.storeSize_lt (h : Wired s) : storeSize s.cfg < 256 ^ 4 := by
  have hle := h.serSize_le
  unfold serSize at hle
  omega

/-- The bytes of a 32-bit value that fits its field (30_encoding.md R83). -/
theorem toLe_four_of_lt {n : Nat} (h : n < 2 ^ 32) : toLe 4 n = le32Bytes (BitVec.ofNat 32 n) := by
  rw [← toLe_four, BitVec.toNat_ofNat, Nat.mod_eq_of_lt h]

/-! ### The snapshot of a state (44_snapshot.md R220, R222) -/

theorem storeBytes_length (c : Config) (m : Memory) : (storeBytes c m).length = storeSize c := by
  rw [storeBytes, List.length_map, List.length_range]

theorem storeBytes_getD (m : Memory) {j : Nat} (hj : j < storeSize c) :
    (storeBytes c m).getD j 0#8 = cellGet 0#8 m j := by
  rw [List.getD_eq_getElem _ _ ((storeBytes_length c m).symm ▸ hj)]
  simp [storeBytes]

/-- The byte of weight `256 ^ k` of a little-endian value. -/
theorem toLe_getD {n k : Nat} (hk : k < n) (v : Nat) : (toLe n v).getD k 0#8 = BitVec.ofNat 8 (v / 256 ^ k) := by
  induction n generalizing k v with
  | zero => omega
  | succ n ih =>
    cases k with
    | zero => simp
    | succ k => rw [toLe_succ, List.getD_cons_succ, ih (by omega), Nat.div_div_eq_div_mul, pow_succ']

theorem Wired.snapshotOf_length (h : Wired s) : (snapshotOf s).length = serSize s.cfg := by
  simp only [snapshotOf, List.length_cons, List.length_append, toLe_length, storeBytes_length, h.bankLength, serSize]
  omega

/-- The length field and the store stand behind the bank indexes. -/
theorem Wired.snapshotOf_drop_banks (h : Wired s) :
    (snapshotOf s).drop (1 + s.cfg.slotCount) = toLe 4 (storeSize s.cfg) ++ storeBytes s.cfg s.store := by
  rw [snapshotOf, Nat.add_comm, List.drop_succ_cons, List.append_assoc, List.drop_left' h.bankLength]

theorem Wired.snapshotBanks_snapshotOf (h : Wired s) : snapshotBanks s.cfg (snapshotOf s) = s.slotBank := by
  rw [snapshotBanks, snapshotOf, List.drop_succ_cons, List.drop_zero, List.append_assoc, List.take_left' h.bankLength]

theorem Wired.snapshotStoreLength_snapshotOf (h : Wired s) :
    snapshotStoreLength s.cfg (snapshotOf s) = storeSize s.cfg := by
  rw [snapshotStoreLength, h.snapshotOf_drop_banks, ofLe_lengthField 4 _ h.storeSize_lt]

theorem Wired.snapshotStore_snapshotOf (h : Wired s) :
    snapshotStore s.cfg (snapshotOf s) = storeBytes s.cfg s.store := by
  rw [snapshotStore, show 5 + s.cfg.slotCount = 1 + s.cfg.slotCount + 4 by omega, ← List.drop_drop,
    h.snapshotOf_drop_banks, List.drop_left' (toLe_length 4 _)]

/-- The slot count fits the first byte of a snapshot. -/
theorem Wired.slotCount_byte (h : Wired s) : (BitVec.ofNat 8 s.cfg.slotCount).toNat = s.cfg.slotCount := by
  rcases legal_slotCount_cases h.legal with hn | hn | hn | hn | hn | hn | hn | hn <;> rw [hn] <;> rfl

/-! ### Any bytes, read as a snapshot (44_snapshot.md R220) -/

theorem getD_drop (l : List Byte) (n k : Nat) : (l.drop n).getD k 0#8 = l.getD (n + k) 0#8 := by
  rw [List.getD_eq_getElem?_getD, List.getD_eq_getElem?_getD, List.getElem?_drop]

/-- Four bytes read little-endian; a byte that is not there counts 0. -/
theorem ofLe_take_four (l : List Byte) :
    ofLe (l.take 4) = (l.getD 0 0#8).toNat + 256 * (l.getD 1 0#8).toNat + 65536 * (l.getD 2 0#8).toNat
      + 16777216 * (l.getD 3 0#8).toNat := by
  rcases l with _ | ⟨b0, _ | ⟨b1, _ | ⟨b2, _ | ⟨b3, l⟩⟩⟩⟩ <;> simp <;> omega

/-- Every slot has its bank index where the header is whole. -/
theorem snapshotBanks_getElem? (hl : 5 + c.slotCount ≤ bytes.length) {i : Nat} (hi : i < c.slotCount) :
    (snapshotBanks c bytes)[i]? = some (bytes.getD (1 + i) 0#8) := by
  have hlt : 1 + i < bytes.length := by omega
  rw [snapshotBanks, List.getElem?_take_of_lt hi, List.getElem?_drop, List.getElem?_eq_getElem hlt,
    List.getD_eq_getElem _ _ hlt]

/-! ### The checks of DESERIALIZE (44_snapshot.md R224) -/

/-- The bytes hold a whole header, with the block's slot count and banks that exist. -/
abbrev HeaderOk (c : Config) (bytes : List Byte) : Prop :=
  5 + c.slotCount ≤ bytes.length ∧ (bytes.getD 0 0#8).toNat = c.slotCount ∧
    ∀ i < c.slotCount, (bytes.getD (1 + i) 0#8).toNat < c.bankCount

theorem snapshotBanks_exist_iff (hl : 5 + c.slotCount ≤ bytes.length) :
    (∀ b ∈ snapshotBanks c bytes, b.toNat < c.bankCount)
      ↔ ∀ i < c.slotCount, (bytes.getD (1 + i) 0#8).toNat < c.bankCount := by
  constructor
  · exact fun h i hi => h _ (List.mem_of_getElem? (snapshotBanks_getElem? hl hi))
  · intro h b hb
    obtain ⟨i, hget⟩ := List.getElem?_of_mem hb
    have hi : i < c.slotCount := by
      have hlt := (List.getElem?_eq_some_iff.mp hget).1
      rw [snapshotBanks, List.length_take] at hlt
      omega
    rw [snapshotBanks_getElem? hl hi] at hget
    cases hget
    exact h i hi

/-- One check with a decidable condition: the operation goes on, or its code is raised (60_exceptions.md R245). -/
theorem guarded_require (p : Prop) [Decidable p] (code : FatalCode) (checks : List Check) (r : OpResult) :
    guarded (require (decide p) code :: checks) r = if p then guarded checks r else .fatal code := by
  by_cases hp : p <;> simp [hp]

/-- What DESERIALIZE's checks raise, and when all of them pass: the three about the header raise one code. -/
theorem guarded_snapshotChecks (c : Config) (bytes : List Byte) (r : OpResult) :
    guarded (snapshotChecks c bytes) r =
      if HeaderOk c bytes then
        if snapshotStoreLength c bytes = storeSize c then
          if bytes.length = serSize c then r else .fatal .snapshotFormat
        else .fatal .snapshotSize
      else .fatal .snapshotFormat := by
  have hfirst : bytes.headD 0#8 = bytes.getD 0 0#8 := by cases bytes <;> rfl
  rw [snapshotChecks, guarded_require, guarded_require, hfirst]
  by_cases hl : 5 + c.slotCount ≤ bytes.length
  · by_cases hc : (bytes.getD 0 0#8).toNat = c.slotCount
    · have hbanks := snapshotBanks_exist_iff hl
      rw [if_pos hl, if_pos hc]
      by_cases hb : ∀ b ∈ snapshotBanks c bytes, b.toNat < c.bankCount
      · have hpass : (snapshotBanks c bytes).all (fun b => decide (b.toNat < c.bankCount)) = true := by simpa using hb
        rw [if_pos ⟨hl, hc, hbanks.mp hb⟩, hpass, require_true, guarded_pass, guarded_require, guarded_require,
          guarded_nil]
      · rw [if_neg fun ⟨_, _, h⟩ => hb (hbanks.mpr h), guarded_require_of_not (by simpa using hb)]
    · rw [if_pos hl, if_neg hc, if_neg fun ⟨_, h, _⟩ => hc h]
  · rw [if_neg hl, if_neg fun ⟨h, _⟩ => hl h]

/-- The snapshot of a wired state passes every check (44_snapshot.md R222, R224). -/
theorem Wired.guarded_snapshotOf (h : Wired s) (r : OpResult) : guarded (snapshotChecks s.cfg (snapshotOf s)) r = r := by
  have hheader : HeaderOk s.cfg (snapshotOf s) := by
    have hl := header_le h.snapshotOf_length
    refine ⟨hl, h.slotCount_byte, (snapshotBanks_exist_iff hl).mp ?_⟩
    rw [h.snapshotBanks_snapshotOf]
    exact h.banksExist
  rw [guarded_snapshotChecks, if_pos hheader, if_pos h.snapshotStoreLength_snapshotOf, if_pos h.snapshotOf_length]

/-! ### What DESERIALIZE brings (44_snapshot.md R224, R225) -/

/-- Every byte of the store is the snapshot's. -/
theorem storeByte_restore (hl : bytes.length = serSize s.cfg) {j : Nat} (hj : j < storeSize s.cfg) :
    storeByte (restore s bytes) j = bytes.getD (5 + s.cfg.slotCount + j) 0#8 := by
  rw [storeByte, restore_store, cellGet_cellPutRun, (snapshot_lengths hl).2, if_pos (by omega), Nat.sub_zero,
    snapshotStore, getD_drop]

/-- A store written over with all the bytes of another is that other. -/
theorem cellPutRun_storeBytes {m n : Memory} (hm : Memory.wf m) (hn : Memory.wf n)
    (hmBound : ∀ p ∈ m, p.1 < storeSize c) (hnBound : ∀ p ∈ n, p.1 < storeSize c) :
    cellPutRun 0#8 m 0 (storeBytes c n) = n := by
  have hout : ∀ {q : Memory} {x : Nat}, (∀ p ∈ q, p.1 < storeSize c) → ¬ x < storeSize c → cellGet 0#8 q x = 0#8 :=
    fun hq hx => cellGet_of_not_listed fun p hp he => hx (he ▸ hq p hp)
  refine cells_ext (cellPutRun_wf hm _ _) hn fun x => ?_
  rw [cellGet_cellPutRun, storeBytes_length]
  by_cases hx : x < storeSize c
  · rw [if_pos (by omega), Nat.sub_zero, storeBytes_getD n hx]
  · rw [if_neg (by omega), hout hmBound hx, hout hnBound hx]

/-- A snapshot brings its state's wiring and store into any live state of the same configuration. -/
theorem restore_snapshotOf (hs : Live s) (hu : Live u) (hcfg : u.cfg = s.cfg) :
    restore u (snapshotOf s) = { u with slotBank := s.slotBank, store := s.store, vis := [] } := by
  have hstore : cellPutRun 0#8 u.store 0 (storeBytes s.cfg s.store) = s.store :=
    cellPutRun_storeBytes hu.tidy.storeWf hs.tidy.storeWf (hcfg ▸ hu.wired.storeBound) hs.wired.storeBound
  rw [restore, storePutRun, hcfg, hs.wired.snapshotBanks_snapshotOf, hs.wired.snapshotStore_snapshotOf, hstore]

/-- DESERIALIZE of a snapshot of any live state of the same configuration completes. -/
theorem exec_deserialize_snapshotOf (hs : Live s) (hu : Live u) (hcfg : u.cfg = s.cfg) :
    exec (.deserialize (snapshotOf s)) u = .next { u with
      slotBank := s.slotBank, store := s.store, vis := [], responses := u.responses ++ [[0x00#8]] } := by
  have hcomes : comes u (.deserialize (snapshotOf s)) = .done (restore u (snapshotOf s)) [] := by
    rw [comes, hcfg, hs.wired.guarded_snapshotOf]
  rw [restore_snapshotOf hs hu hcfg] at hcomes
  exact hu.exec_done hcomes

/-! ### The statements -/

/-- SERIALIZE answers the snapshot (44_snapshot.md R222). -/
theorem Live.exec_serialize (h : Live s) : exec .serialize s = .next (respond s (0x00#8 :: snapshotOf s)) :=
  h.exec_done rfl

/-- Settles O27: the bytes answered are `snapshotOf`, read part by part. -/
theorem serializeLayout : Obligations.SerializeLayout := by
  intro s hlive
  have hw := hlive.wired
  refine ⟨sentAs_of_encode rfl rfl, snapshotOf s, hlive.exec_serialize, hw.snapshotOf_length, hw.slotCount_byte,
    fun i hi => ?bank, fun k hk => ?field, fun j hj => ?store⟩
  case bank =>
    rw [← snapshotBanks_getElem? (header_le hw.snapshotOf_length) hi, hw.snapshotBanks_snapshotOf]
  case field =>
    rw [← getD_drop, hw.snapshotOf_drop_banks, List.getD_append _ _ _ _ (by rw [toLe_length]; exact hk), toLe_getD hk,
      BitVec.toNat_ofNat]
    rfl
  case store =>
    rw [← getD_drop, ← snapshotStore, hw.snapshotStore_snapshotOf, storeBytes_getD _ hj, storeByte]

/-- Settles O28: each clause is one of the branches of `guarded_snapshotChecks`. -/
theorem deserializeChecksThenRestores : Obligations.DeserializeChecksThenRestores := by
  intro s x hlive size lengthField headerOk
  have hfield : snapshotStoreLength s.cfg x = lengthField := by
    rw [snapshotStoreLength, ofLe_take_four]
    simp only [getD_drop, lengthField, Nat.add_right_comm 1 s.cfg.slotCount]
  have hcomes := guarded_snapshotChecks s.cfg x (.done (restore s x) [])
  rw [hfield] at hcomes
  refine ⟨fun hl => sentAs_of_encode (decide_eq_true hl) (by rw [encode, toLe_four_of_lt hl]; rfl),
    fun hheader => hlive.exec_fatal .snapshotFormat ?_,
    fun hheader (hsize : lengthField ≠ storeSize s.cfg) => hlive.exec_fatal .snapshotSize ?_,
    fun hheader (hsize : lengthField = storeSize s.cfg) (hl : x.length ≠ serSize s.cfg) =>
      hlive.exec_fatal .snapshotFormat ?_,
    fun hheader (hsize : lengthField = storeSize s.cfg) (hl : x.length = serSize s.cfg) => ?restored⟩
  · rw [comes, hcomes, if_neg hheader]
  · rw [comes, hcomes, if_pos hheader, if_neg hsize]
  · rw [comes, hcomes, if_pos hheader, if_pos hsize, if_neg hl]
  case restored =>
    have hdone : comes s (.deserialize x) = .done (restore s x) [] := by
      rw [comes, hcomes, if_pos hheader, if_pos hsize, if_pos hl]
    exact ⟨_, hlive.exec_done hdone, fun i hi => snapshotBanks_getElem? hheader.1 hi, (snapshot_lengths hl).1,
      fun j hj => storeByte_restore hl hj, fun k => cellGet_nil _ k, rfl⟩

/-- Settles O29: `exec_deserialize_snapshotOf` in the state SERIALIZE leaves, and in any other. -/
theorem snapshotRoundTrip : Obligations.SnapshotRoundTrip := by
  intro s hlive
  have hserialize := hlive.exec_serialize
  have hlive' : Live (respond s (0x00#8 :: snapshotOf s)) := ⟨exec_keeps_inv hlive.1 hserialize, hlive.2⟩
  exact ⟨_, snapshotOf s, hserialize, rfl, exec_deserialize_snapshotOf hlive hlive' rfl,
    fun u hu hcfg => exec_deserialize_snapshotOf hlive hu hcfg⟩

/-- Settles O30: SER_SIZE fits the answer's four bytes, and is the length of `snapshotOf`. -/
theorem serializedSizeIsConstant : Obligations.SerializedSizeIsConstant := by
  intro s hlive
  have hle := hlive.wired.serSize_le
  refine ⟨sentAs_of_encode rfl rfl, hlive.exec_done ?_, hle, fun t u out ht hcfg h hout => ?_⟩
  · rw [comes, toLe_four_of_lt (by omega)]
    rfl
  · cases ht.exec_serialize.symm.trans h
    have hsnapshot : snapshotOf t = out := by simpa using hout
    rw [← hsnapshot, ht.wired.snapshotOf_length, hcfg]
    rfl

end Sys2Proof.Machine

/-!
PROOFS. Fatal errors and the idle block (spec/60_exceptions.md). What a dead block does is `exec_dead` for an operation
and `perform_dead` for a reserved opcode; what an operation of a live block can do is `exec_next`. An operation that
comes to a completed one raises no fatal error (`Live.exec_not_fatal`).
-/

namespace Sys2Proof.Machine

variable {s u : State} {i : Instr} {op : Byte} {rest result : List Byte}

/-! ### The idle block (60_exceptions.md R256) -/

theorem step_of_noRequest (h : decode s.requests = .noRequest) : step s = noRequestStep s := by
  simp only [step, takeRequest, h]

/-- Settles O7: an empty port decodes to no request, and no reset event is there to serve. -/
theorem idleBlockDoesNothing : Obligations.IdleBlockDoesNothing := by
  intro s hreq hp
  rw [step_of_noRequest (decode_eq_noRequest_iff.mpr hreq)]
  simp only [noRequestStep, hp, hreq]

/-! ### The dead block (60_exceptions.md R243, R247) -/

/-- A reserved opcode is taken off the port by itself (30_encoding.md R87). -/
theorem step_of_reserved_opcode (hreq : s.requests = op :: rest) (hop : op = 0x00#8 ∨ 0x19 ≤ op.toNat) :
    step s = performReserved { s with requests := rest } :=
  step_of_reserved (decode_eq_reserved_iff.mpr ⟨hreq, hop.imp_left (congrArg BitVec.toNat)⟩)

theorem performReserved_dead (h : s.fatal = true) : performReserved s = .next (answerDead s) := perform_dead h

/-- Settles O31: an operation and a reserved opcode both come to `answerDead`, of the state that the request was taken
from. -/
theorem deadBlockPerformsNothing : Obligations.DeadBlockPerformsNothing := by
  refine ⟨fun s i hf => exec_dead hf i, fun s i rest hf hdecode => ?request, fun s op rest hf hreq hop => ?reserved⟩
  case request =>
    rw [step_of_request hdecode]
    exact exec_dead (s := { s with requests := rest }) hf i
  case reserved =>
    rw [step_of_reserved_opcode hreq hop]
    exact performReserved_dead hf

/-- Settles O35: of what a step can do, only the serving of a reset event is anything but `answerDead` or nothing. -/
theorem fatalUntilReset : Obligations.FatalUntilReset := by
  intro s t hf h
  rcases step_next h with ⟨i, rest, he⟩ | ⟨rest, hr⟩ | hreset | rfl
  · cases he.symm.trans (exec_dead (s := { s with requests := rest }) hf i)
    exact .inl ⟨hf, rfl⟩
  · cases hr.symm.trans (performReserved_dead hf)
    exact .inl ⟨hf, rfl⟩
  · exact .inr hreset
  · exact .inl ⟨hf, rfl⟩

/-! ### The live block: precise errors, and operations that raise none (60_exceptions.md R241, R242, R244) -/

theorem runtimeCodes_bounds : ∀ code ∈ runtimeCodes, 0x01 ≤ code.toNat ∧ code.toNat ≤ 0x08 := by decide

/-- Settles O32: of the three things an operation can do, a live block dies of `raiseFatal` alone, since no effect
touches the fatal bit. -/
theorem fatalErrorsArePrecise : Obligations.FatalErrorsArePrecise := by
  intro s t i hlive h ht
  rcases exec_next hlive.1 h with ⟨hf, -⟩ | ⟨-, code, hcode, rfl⟩ | ⟨hf, u, result, hu, rfl⟩
  · exact absurd hf (by simp [hlive.2])
  · exact ⟨rfl, runtimeCodes_bounds _ hcode⟩
  · obtain ⟨hfatal, -⟩ := hu.fatal_responses
    exact absurd ht (by simp [hfatal, hf])

/-- An operation that comes to a completed one leaves a live block live. -/
theorem Live.exec_not_fatal (h : Live s) (hc : comes s i = .done u result) :
    ∃ t, exec i s = .next t ∧ t.fatal = false := by
  obtain ⟨hfatal, -⟩ := (effect_of_done hc).fatal_responses
  exact ⟨_, h.exec_done hc, hfatal.trans h.2⟩

/-- IOWRITE completes, under the lock and without it (42_mapping.md R168). -/
theorem comes_iowrite (s : State) (p : Port) (v : Byte) :
    comes s (.iowrite p v) = .done (if s.lock then s else runRules p v s) [] := by
  rw [comes]
  split <;> rfl

/-- Settles O33: each of these operations comes to a completed one, the checked ones because their operands pass. -/
theorem memoryAccessesNeverFatal : Obligations.MemoryAccessesNeverFatal := by
  intro s hlive
  exact ⟨fun a => ⟨hlive.exec_not_fatal rfl, hlive.exec_not_fatal rfl, hlive.exec_not_fatal rfl,
      hlive.exec_not_fatal rfl, hlive.exec_not_fatal rfl⟩,
    fun a v => ⟨hlive.exec_not_fatal rfl, hlive.exec_not_fatal rfl⟩,
    fun a w => hlive.exec_not_fatal rfl,
    fun a n hn => hlive.exec_not_fatal (guarded_checkLength hn _),
    fun a bytes hn => hlive.exec_not_fatal (guarded_checkLength hn _),
    fun p v => hlive.exec_not_fatal (comes_iowrite s p v),
    fun a n c hc hn => hlive.exec_not_fatal (guarded_watchOperands ⟨hc, hn⟩ _)⟩

end Sys2Proof.Machine

/-!
PROOFS. Reset (spec/70_reset_and_hazards.md R270 to R275). What a slot starts with is known from its definition
(`initSlotBank_of_slotDef`), which check fails first from `validate`'s conditions one by one, and what ROM loading leaves
in a bank from the last image that names it (`loadRoms_last`).
-/

namespace Sys2Proof.Machine

variable {s : State} {c : Config} {i : Nat} {d : SlotDef}

/-! ### Serving a reset event (70 R270) -/

theorem step_of_no_complete_request (h : decode s.requests = .noRequest ∨ decode s.requests = .truncated) :
    step s = noRequestStep s := by
  rcases h with h | h <;> simp only [step, takeRequest, h]

/-- Settles O8: with no complete request on the port, a pending reset event comes first. -/
theorem resetEventRebuildsBlock : Obligations.ResetEventRebuildsBlock := by
  intro s e later hreq hp
  rw [step_of_no_complete_request hreq, noRequestStep, hp]
  rfl

/-! ### What the configuration gives each slot and bank (10_state.md R23, R25, R27) -/

theorem slotDef_eq_some : slotDef c i = some d ↔ c.slots[i]? = some (some d) := by
  unfold slotDef
  rcases c.slots[i]? with - | - | d' <;> simp

theorem slotDef_eq_none (h : ∀ d : SlotDef, c.slots[i]? ≠ some (some d)) : slotDef c i = none :=
  Option.eq_none_iff_forall_ne_some.mpr fun d hd => h d (slotDef_eq_some.mp hd)

theorem initSlotBank_of_slotDef (h : slotDef c i = some d) : initSlotBank c i = if d.populated then d.bank else 0 := by
  rw [initSlotBank, h]

theorem initSlotPop_of_slotDef (h : slotDef c i = some d) : initSlotPop c i = d.populated := by
  rw [initSlotPop, h]

theorem initSlotPop_of_gap (h : slotDef c i = none) : initSlotPop c i = false := by
  rw [initSlotPop, h]

/-- A slot that no definition gives as populated starts unpopulated. -/
theorem initSlotPop_eq_false (h : ∀ d : SlotDef, c.slots[i]? = some (some d) → d.populated = false) :
    initSlotPop c i = false := by
  cases hd : slotDef c i with
  | none => exact initSlotPop_of_gap hd
  | some d => exact (initSlotPop_of_slotDef hd).trans (h d (slotDef_eq_some.mp hd))

theorem bootSlotBank_getElem? (hi : i < c.slotCount) :
    (bootSlotBank c)[i]? = some (BitVec.ofNat 8 (initSlotBank c i)) := by
  simp [bootSlotBank, hi]

theorem bootSlotPop_getElem? (hi : i < c.slotCount) : (bootSlotPop c)[i]? = some (initSlotPop c i) := by
  simp [bootSlotPop, hi]

theorem bootRomBank_getElem? {b : Nat} (hb : b < c.bankCount) :
    (bootRomBank c)[b]? = some (c.romFlags.getD b false) := by
  simp [bootRomBank, hb]

/-- A slot that starts unpopulated starts with bank 0 (10_state.md R23). -/
theorem boot_of_unpopulated (hi : i < c.slotCount) (h : initSlotPop c i = false) :
    (bootSlotBank c)[i]? = some 0#8 ∧ (bootSlotPop c)[i]? = some false := by
  rw [bootSlotBank_getElem? hi, bootSlotPop_getElem? hi, initSlotBank_of_unpopulated h, h]
  exact ⟨rfl, rfl⟩

/-- The bank a valid configuration first wires into a slot fits its register. -/
theorem initSlotBank_lt_byte (hv : validate c = none) (hi : i < c.slotCount) : initSlotBank c i < 2 ^ 8 := by
  obtain ⟨-, -, hbanks, hgeometry, -⟩ := validate_none hv
  exact (initSlotBank_lt (hgeometry i hi)).trans_le hbanks

/-- Settles O46: the state after a successful reset is `State.afterReset`, whose slots are read off their definitions. -/
theorem successfulResetState : Obligations.SuccessfulResetState := by
  intro c m hm
  obtain ⟨hv, -, -⟩ := construct_ok hm
  rw [resetWith_of_ok hm]
  refine ⟨rfl, rfl, by simp [State.afterReset, bootSlotBank], by simp [State.afterReset, bootSlotPop],
    fun i hi d hd => ⟨?bank, ?populated⟩, fun i hi hgap => ?gap, fun b hb => bootRomBank_getElem? hb,
    fun _ => ⟨rfl, rfl⟩, fun _ => rfl, rfl, rfl, rfl, rfl, rfl, rfl, rfl⟩
  case bank =>
    show ((bootSlotBank c).getD i 0#8).toNat = _
    rw [List.getD_eq_getElem?_getD, bootSlotBank_getElem? hi, Option.getD_some, BitVec.toNat_ofNat,
      Nat.mod_eq_of_lt (initSlotBank_lt_byte hv hi), initSlotBank_of_slotDef (slotDef_eq_some.mpr hd)]
  case populated => exact (bootSlotPop_getElem? hi).trans (by rw [initSlotPop_of_slotDef (slotDef_eq_some.mpr hd)])
  case gap => exact boot_of_unpopulated hi (initSlotPop_of_gap (slotDef_eq_none hgap))

/-! ### The checks in the words of the rules (70 R271, R273, 42_mapping.md R167) -/

/-- A slot the definition leaves out passes, and only a populated slot's bank is checked. -/
theorem slotGeometryOk_iff (hbanks : 0 < c.bankCount) :
    slotGeometryOk c i = true ↔ ∀ d : SlotDef, c.slots[i]? = some (some d) →
      d.lo = i * bankSize c ∧ d.hi = i * bankSize c + bankSize c - 1 ∧ (d.populated = true → d.bank < c.bankCount) := by
  simp only [← slotDef_eq_some]
  cases hd : slotDef c i with
  | none => simpa [slotGeometryOk, slotWindowOk, initSlotBank, hd] using hbanks
  | some d => cases hp : d.populated <;> simp [slotGeometryOk, slotWindowOk, initSlotBank, hd, hp, hbanks, and_assoc]

theorem ruleValid_iff {r : BankRule} : ruleValid c r = true ↔
    r.srcLsb.toNat + r.srcWidth.toNat ≤ 8 ∧ (r.slot.toNat < c.slotCount ∨ r.slot = 0xFF#8) ∧
      (r.slot ≠ 0xFF#8 → r.bankBase.toNat + r.bankScale.toNat * (2 ^ r.srcWidth.toNat - 1) < c.bankCount) ∧
      (r.lockBit.toNat ≤ 7 ∨ r.lockBit = 15#4) ∧ r.portMatch &&& ~~~r.portMask = 0#16 := by
  simp only [ruleValid, Bool.and_eq_true, Bool.or_eq_true, decide_eq_true_eq, and_assoc, ne_eq, or_iff_not_imp_left]

/-- The geometry check of 70 R271: the slots, the display banks, the visual shift and the counter width. -/
def GeometryOk (c : Config) : Prop :=
  (∀ i < c.slotCount, slotGeometryOk c i = true) ∧
    (c.hasDisplaySelect = true → c.displayPrimaryBank < c.bankCount ∧ c.displayShadowBank < c.bankCount) ∧
    c.visualShift ≤ 16 ∧ 1 ≤ c.wpCntW

theorem validate_slotCount (h : c.slotCount ∉ legalSlotCounts) : validate c = some .cfgSlotCount := by
  rw [validate, if_pos h]

section
variable (hslots : c.slotCount ∈ legalSlotCounts)
include hslots

theorem validate_bankCount (h : ¬ (c.slotCount ≤ c.bankCount ∧ c.bankCount ≤ 256)) :
    validate c = some .cfgBankCount := by
  rw [validate, if_neg (not_not_intro hslots), if_pos (by omega)]

variable (hbanks : c.slotCount ≤ c.bankCount ∧ c.bankCount ≤ 256)
include hbanks

theorem validate_geometry (h : ¬ GeometryOk c) : validate c = some .cfgGeometry := by
  rw [validate, if_neg (not_not_intro hslots), if_neg (by omega)]
  split
  · rfl
  next hslotsOk =>
    split
    · rfl
    next hdisplay =>
      refine if_pos (by_contra fun hrest => h ?_)
      simp only [not_not, List.all_eq_true, List.mem_range, not_and, not_or, not_le, not_lt] at hslotsOk hdisplay hrest
      exact ⟨hslotsOk, hdisplay, hrest⟩

variable (hgeometry : GeometryOk c)
include hgeometry

/-- After the geometry, the rules decide. -/
theorem validate_of_geometryOk : validate c = if ∀ r ∈ c.rules, ruleValid c r = true then none else some .cfgRule := by
  obtain ⟨hslotsOk, hdisplay, hshift, hwidth⟩ := hgeometry
  have hall : (List.range c.slotCount).all (slotGeometryOk c) = true := by simpa using hslotsOk
  have hshown : ¬ (c.hasDisplaySelect = true ∧
      (c.bankCount ≤ c.displayPrimaryBank ∨ c.bankCount ≤ c.displayShadowBank)) := by
    simpa only [not_and, not_or, not_le] using hdisplay
  rw [validate, if_neg (not_not_intro hslots), if_neg (by omega), if_neg (not_not_intro hall), if_neg hshown,
    if_neg (by omega)]
  simp only [List.all_eq_true, ite_not]

end

/-- A ROM load that fits: its bank exists and the image holds its slice (70 R273). -/
def RomFits (c : Config) (r : RomLoad) : Prop := r.bank < c.bankCount ∧ r.offset + bankSize c ≤ r.image.length

theorem loadRoms_cons_of_fits {r : RomLoad} (h : RomFits c r) (rs : List RomLoad) (m : Memory) :
    loadRoms c (r :: rs) m
      = loadRoms c rs (cellPutRun 0#8 m (r.bank * bankSize c) (romSlice c r.image r.offset)) := by
  obtain ⟨hbank, himage⟩ := h
  rw [loadRoms, if_neg (by omega), if_neg (by omega)]

theorem loadRoms_cons_of_not_fits {r : RomLoad} (h : ¬ RomFits c r) (rs : List RomLoad) (m : Memory) :
    loadRoms c (r :: rs) m = .error .cfgRomImage := by
  unfold RomFits at h
  rw [loadRoms]
  split
  · rfl
  · exact if_pos (by omega)

/-- ROM loading succeeds exactly when every image fits. -/
theorem loadRoms_ok_iff {rs : List RomLoad} {m : Memory} : (∃ m', loadRoms c rs m = .ok m') ↔ ∀ r ∈ rs, RomFits c r := by
  induction rs generalizing m with
  | nil => simp [loadRoms]
  | cons r rs ih =>
    by_cases h : RomFits c r
    · rw [loadRoms_cons_of_fits h, ih, List.forall_mem_cons]
      exact (and_iff_right h).symm
    · simp [loadRoms_cons_of_not_fits h, h]

theorem construct_of_validate_some {code : FatalCode} (h : validate c = some code) : construct c = .error code := by
  rw [construct, h]

theorem construct_of_validate_none (h : validate c = none) : construct c = loadRoms c c.romImages (initialStore c) := by
  rw [construct, h]

/-- A failed reset leaves the block dead with the check's code, the latch unset and DISP_SHADOW clear (70 R272). -/
theorem resetWith_dead {code : FatalCode} (h : construct c = .error code) :
    (State.resetWith c).fatal = true ∧ (State.resetWith c).fatalCode = fatalByte code ∧
      (State.resetWith c).hitValid = false ∧ (State.resetWith c).hitAddr = 0#16 ∧
      (State.resetWith c).hitAccess = .read ∧ (State.resetWith c).dispShadow = false := by
  rw [resetWith_of_error h]
  exact ⟨rfl, rfl, rfl, rfl, rfl, rfl⟩

/-- Settles O47: each clause is the branch of `construct` that its check leads to, once the statement's checks are those
of `validate` (`hgeometry`, `hrules`). -/
theorem failedResetReportsFirstCheck : Obligations.FailedResetReportsFirstCheck := by
  intro c s dead slotsOk banksOk size geometryOk ruleOk
  have hrules : (∀ r ∈ c.rules, ruleOk r) ↔ ∀ r ∈ c.rules, ruleValid c r = true := by
    simp only [ruleValid_iff, ruleOk]
  have hpos (hs : slotsOk) (hb : banksOk) : 0 < c.bankCount := by
    have := legal_slotCount_cases hs
    have := hb.1
    omega
  have hgeometry (hs : slotsOk) (hb : banksOk) : geometryOk ↔ GeometryOk c := by
    simp only [GeometryOk, slotGeometryOk_iff (hpos hs hb)]
    rfl
  have hvalid (hs : slotsOk) (hb : banksOk) (hg : geometryOk) (hr : ∀ r ∈ c.rules, ruleOk r) : validate c = none := by
    rw [validate_of_geometryOk hs hb ((hgeometry hs hb).mp hg), if_pos (hrules.mp hr)]
  refine ⟨fun hs => ?slots, fun hs hb => ?banks, fun hs hb hg => ?geometry, fun hs hb hg hr => ?rules,
    fun hs hb hg hr hroms => ?roms, fun hs hb hg hr hroms => ?passed⟩
  case slots => exact resetWith_dead (construct_of_validate_some (validate_slotCount hs))
  case banks => exact resetWith_dead (construct_of_validate_some (validate_bankCount hs hb))
  case geometry =>
    exact resetWith_dead (construct_of_validate_some (validate_geometry hs hb (mt (hgeometry hs hb).mpr hg)))
  case rules =>
    refine resetWith_dead (construct_of_validate_some (code := .cfgRule) ?_)
    rw [validate_of_geometryOk hs hb ((hgeometry hs hb).mp hg), if_neg (mt hrules.mpr hr)]
  case roms =>
    obtain ⟨r, hmem, hbad⟩ := hroms
    cases hc : construct c with
    | ok m =>
      rw [construct_of_validate_none (hvalid hs hb hg hr)] at hc
      obtain ⟨hbank, himage⟩ := loadRoms_ok_iff.mp ⟨m, hc⟩ r hmem
      exact absurd hbad (not_or.mpr ⟨hbank.not_ge, himage.not_gt⟩)
    | error code =>
      have hcode := hc
      rw [construct_of_validate_none (hvalid hs hb hg hr)] at hcode
      cases loadRoms_error hcode
      exact resetWith_dead hc
  case passed =>
    obtain ⟨m, hm⟩ := loadRoms_ok_iff.mpr hroms
    have hs' : s = State.afterReset c m :=
      resetWith_of_ok ((construct_of_validate_none (hvalid hs hb hg hr)).trans hm)
    rw [hs']
    exact ⟨rfl, fun i hi hslot => boot_of_unpopulated hi (initSlotPop_eq_false hslot)⟩

/-! ### The store that ROM loading leaves (70 R273, 10_state.md R21) -/

theorem flatOffset_ofNat {b : Nat} (hb : b < 256) (off : Nat) :
    flatOffset c (BitVec.ofNat 8 b) off = b * bankSize c + off := by
  rw [flatOffset, BitVec.toNat_ofNat, Nat.mod_eq_of_lt hb]

theorem romSlice_length {r : RomLoad} (h : RomFits c r) : (romSlice c r.image r.offset).length = bankSize c := by
  have := h.2
  simp only [romSlice, List.length_take, List.length_drop]
  omega

theorem romSlice_getD {off : Nat} (ho : off < bankSize c) (image : List Byte) (offset : Nat) :
    (romSlice c image offset).getD off 0#8 = image.getD (offset + off) 0#8 := by
  simp [romSlice, List.getD_eq_getElem?_getD, ho]

/-- A read after one load: the image's slice in the bank it names, what was there before in every other. -/
theorem cellGet_loadRom {r : RomLoad} (h : RomFits c r) (hbanks : c.bankCount ≤ 256) {b off : Nat}
    (hb : b < c.bankCount) (ho : off < bankSize c) (m : Memory) :
    cellGet 0#8 (cellPutRun 0#8 m (r.bank * bankSize c) (romSlice c r.image r.offset)) (b * bankSize c + off)
      = if b = r.bank then r.image.getD (r.offset + off) 0#8 else cellGet 0#8 m (b * bankSize c + off) := by
  have hr := h.1
  have hput := cellGet_putBank (b := BitVec.ofNat 8 r.bank) (b' := BitVec.ofNat 8 b) (romSlice_length h) ho m
  have hsame : BitVec.ofNat 8 b = BitVec.ofNat 8 r.bank ↔ b = r.bank := by
    rw [← BitVec.toNat_inj, BitVec.toNat_ofNat, BitVec.toNat_ofNat]
    omega
  rw [flatOffset_ofNat (by omega), flatOffset_ofNat (by omega), romSlice_getD ho, Nat.add_zero] at hput
  simpa only [hsame] using hput

/-- Images for other banks leave a bank as it was. -/
theorem loadRoms_unnamed {rs : List RomLoad} {m m' : Memory} (h : loadRoms c rs m = .ok m')
    (hbanks : c.bankCount ≤ 256) {b off : Nat} (hb : b < c.bankCount) (ho : off < bankSize c)
    (hother : ∀ q ∈ rs, q.bank ≠ b) :
    cellGet 0#8 m' (b * bankSize c + off) = cellGet 0#8 m (b * bankSize c + off) := by
  induction rs generalizing m with
  | nil => cases h; rfl
  | cons r rs ih =>
    obtain ⟨hne, hother⟩ := List.forall_mem_cons.mp hother
    have hfits := loadRoms_ok_iff.mp ⟨m', h⟩ r (by simp)
    rw [loadRoms_cons_of_fits hfits] at h
    rw [ih h hother, cellGet_loadRom hfits hbanks hb ho, if_neg hne.symm]

/-- A bank holds the slice of the last image loaded into it. -/
theorem loadRoms_last {pre post : List RomLoad} {r : RomLoad} {m m' : Memory}
    (h : loadRoms c (pre ++ r :: post) m = .ok m') (hbanks : c.bankCount ≤ 256)
    (hlast : ∀ q ∈ post, q.bank ≠ r.bank) {off : Nat} (ho : off < bankSize c) :
    cellGet 0#8 m' (r.bank * bankSize c + off) = r.image.getD (r.offset + off) 0#8 := by
  induction pre generalizing m with
  | nil =>
    have hfits := loadRoms_ok_iff.mp ⟨m', h⟩ r (by simp)
    rw [List.nil_append, loadRoms_cons_of_fits hfits] at h
    rw [loadRoms_unnamed h hbanks hfits.1 ho hlast, cellGet_loadRom hfits hbanks hfits.1 ho, if_pos rfl]
  | cons q pre ih =>
    rw [List.cons_append, loadRoms_cons_of_fits (loadRoms_ok_iff.mp ⟨m', h⟩ q (by simp))] at h
    exact ih h

/-- A read after a list of cells was set one by one: the last entry for the index, else what was there before. -/
theorem cellGet_foldl_cellSet (l : List Host.Cell) {m : Memory} (hm : Memory.wf m) (x : Nat) :
    cellGet 0#8 (l.foldl (fun m p => cellSet 0#8 m p.1 p.2) m) x
      = (l.reverse.find? (fun p => p.1 == x)).elim (cellGet 0#8 m x) (fun p => p.2) := by
  induction l generalizing m with
  | nil => rfl
  | cons q l ih =>
    rw [List.foldl_cons, ih (cellSet_wf hm _ _), cellGet_cellSet hm, List.reverse_cons, List.find?_append]
    cases l.reverse.find? (fun p => p.1 == x) with
    | some p => rfl
    | none => by_cases hq : q.1 = x <;> simp [hq]

/-- INIT_STORE read as the last entry for the offset, 0 where there is none (log 4). -/
theorem cellGet_initialStore {x : Nat} (hx : x < storeSize c) :
    cellGet 0#8 (initialStore c) x = (c.initStore.reverse.find? (fun p => p.1 == x)).elim 0#8 (fun p => p.2) := by
  have hinside (p : Host.Cell) : (p.1 < storeSize c ∧ p.1 = x) ↔ p.1 = x := and_iff_right_of_imp fun hp => hp ▸ hx
  rw [initialStore, cellGet_foldl_cellSet _ (cellsWf_nil _), ← List.filter_reverse, List.find?_filter]
  simp [hinside, beq_eq_decide]

/-- Settles O48, from the last image of a bank and from a bank that no image names. -/
theorem romImagesLoadedInOrder : Obligations.RomImagesLoadedInOrder := by
  intro c m hm
  obtain ⟨hv, -, -⟩ := construct_ok hm
  obtain ⟨-, -, hbanks, -⟩ := validate_none hv
  rw [resetWith_of_ok hm]
  rw [construct_of_validate_none hv] at hm
  refine ⟨fun pre post r hroms hlast off ho => loadRoms_last (hroms ▸ hm) hbanks hlast ho,
    fun b hb hother off ho => (loadRoms_unnamed hm hbanks hb ho hother).trans (cellGet_initialStore ?_)⟩
  rw [← flatOffset_ofNat (by omega)]
  exact flatOffset_lt (by rw [BitVec.toNat_ofNat]; omega) ho

/-! ### A ROM load is a WRITEBANK (70 R275) -/

/-- Loading a list of images does not look at the configuration's own list. -/
theorem loadRoms_withRomImages (roms rs : List RomLoad) (m : Memory) :
    loadRoms { c with romImages := roms } rs m = loadRoms c rs m := by
  induction rs generalizing m with
  | nil => rfl
  | cons r rs ih => rw [loadRoms, ih]; rfl

/-- A block that constructs with `r` as its last image constructs without it too, and `r` fits: it was put over the
store left without it. -/
theorem construct_snoc {earlier : List RomLoad} {r : RomLoad} {m : Memory} (hroms : c.romImages = earlier ++ [r])
    (h : construct c = .ok m) :
    RomFits c r ∧ ∃ m₀, construct { c with romImages := earlier } = .ok m₀ ∧
      m = cellPutRun 0#8 m₀ (r.bank * bankSize c) (romSlice c r.image r.offset) := by
  have hv := (construct_ok h).1
  rw [construct_of_validate_none hv, hroms] at h
  have hfits := loadRoms_ok_iff.mp ⟨m, h⟩ r (by simp)
  rw [loadRoms_append] at h
  cases hm₀ : loadRoms c earlier (initialStore c) with
  | error code => rw [hm₀] at h; cases h
  | ok m₀ =>
    rw [hm₀, Except.bind, loadRoms_cons_of_fits hfits] at h
    cases h
    have hv' : validate { c with romImages := earlier } = none := hv
    exact ⟨hfits, m₀, (construct_of_validate_none hv').trans ((loadRoms_withRomImages _ _ _).trans hm₀), rfl⟩

/-- Settles O49: both put the run of the image's slice over the store that the earlier loads leave. -/
theorem romLoadIsWriteBank : Obligations.RomLoadIsWriteBank := by
  rintro c earlier r hroms ⟨m, hm⟩
  obtain ⟨hfits, m₀, hm₀, rfl⟩ := construct_snoc hroms hm
  have hbank : r.bank < 256 := by
    obtain ⟨-, -, hbanks, -⟩ := validate_none (construct_ok hm).1
    exact hfits.1.trans_le hbanks
  have hpassed : ∀ k ∈ [checkBank c (BitVec.ofNat 8 r.bank), checkBankLength c (romSlice c r.image r.offset).length],
      k = none := by
    simpa [romSlice_length hfits, Nat.mod_eq_of_lt hbank] using hfits.1
  rw [resetWith_of_ok hm, resetWith_of_ok hm₀]
  refine ⟨_, (afterReset_live hm₀).exec_done (guarded_of_passed hpassed _), rfl, ?_⟩
  have hoff : flatOffset { c with romImages := earlier } (BitVec.ofNat 8 r.bank) 0 = r.bank * bankSize c :=
    flatOffset_ofNat hbank 0
  rw [show (State.afterReset { c with romImages := earlier } m₀).cfg = { c with romImages := earlier } from rfl, hoff]
  rfl

end Sys2Proof.Machine

/-!
PROOFS. Runs and their observation (spec/70_reset_and_hazards.md R283). What one request does to the fatal state and to
the response port is `Answered`. Each request of a run keeps the invariant (`step_sendRequest_keeps`), and what is
dead stays dead with its code (`serveAll_dead`); the two statements follow by induction over the requests.
-/

namespace Sys2Proof.Machine

variable {s t u : State} {i : Instr} {r bytes : List Byte} {rs : List (List Byte)}

/-! ### Without reset events, a run keeps the invariant and the fatal state -/

/-- A reserved opcode leaves the ports' inputs as they are. -/
theorem performReserved_ports (h : performReserved s = .next t) :
    t.requests = s.requests ∧ t.pendingResets = s.pendingResets := by
  rcases perform_next h with ⟨-, rfl⟩ | ⟨-, u, result, ho, -⟩ | ⟨-, code, -, rfl⟩
  · exact ⟨rfl, rfl⟩
  · cases ho
  · exact ⟨rfl, rfl⟩

theorem exec_ports (hi : Inv s) (h : exec i s = .next t) :
    t.requests = s.requests ∧ t.pendingResets = s.pendingResets := by
  obtain ⟨-, -, hreq, hp, -⟩ := stateWrittenOnlyAsListed s t i hi h
  exact ⟨hreq, hp⟩

/-- No step raises a reset event. -/
theorem step_keeps_no_resets (hi : Inv s) (hp : s.pendingResets = []) (h : step s = .next t) :
    t.pendingResets = [] := by
  rcases step_next h with ⟨i, rest, he⟩ | ⟨rest, hr⟩ | ⟨e, later, hreset, -⟩ | rfl
  · exact (exec_ports (hi.withPorts rest _ _) he).2.trans hp
  · exact (performReserved_ports hr).2.trans hp
  · simp [hp] at hreset
  · exact hp

theorem Inv.sendRequest (hi : Inv s) (bytes : List Byte) : Inv (s.sendRequest bytes) := hi.withPorts _ _ _

/-- One request of a run keeps the invariant and raises no reset event. -/
theorem step_sendRequest_keeps (hi : Inv s) (hp : s.pendingResets = []) (h : step (s.sendRequest r) = .next u) :
    Inv u ∧ u.pendingResets = [] :=
  ⟨stepKeepsInvariant _ _ (hi.sendRequest r) h, step_keeps_no_resets (hi.sendRequest r) hp h⟩

/-- Without a reset event the block stays in the fatal state, with its code (60_exceptions.md R243, R247). -/
theorem step_sendRequest_dead (hf : s.fatal = true) (hp : s.pendingResets = []) (h : step (s.sendRequest r) = .next u) :
    u.fatal = true ∧ u.fatalCode = s.fatalCode := by
  rcases fatalUntilReset (s.sendRequest r) u hf h with hdead | ⟨e, later, hreset, -⟩
  · exact hdead
  · simp [hp] at hreset

theorem serveAll_dead (hi : Inv s) (hp : s.pendingResets = []) (hf : s.fatal = true) (h : serveAll rs s = .next t) :
    t.fatal = true ∧ t.fatalCode = s.fatalCode := by
  induction rs generalizing s with
  | nil => cases h; exact ⟨hf, rfl⟩
  | cons r rs ih =>
    obtain ⟨u, hu, ht⟩ := serveAll_cons_next.mp h
    obtain ⟨hui, hup⟩ := step_sendRequest_keeps hi hp hu
    obtain ⟨huf, huc⟩ := step_sendRequest_dead hf hp hu
    obtain ⟨htf, htc⟩ := ih hui hup huf ht
    exact ⟨htf, htc.trans huc⟩

/-! ### The observation of a run (70 R283) -/

/-- A run that reaches the fatal state is refuted with the code of its first fatal error. -/
theorem observeFrom_of_reaches_fatal {later : List (List Byte)} (hi : Inv s) (hp : s.pendingResets = [])
    (h : serveAll rs s = .next t) (hf : t.fatal = true) :
    observeFrom (rs ++ later) s = .fault (.fatalReached t.fatalCode) := by
  induction rs generalizing s with
  | nil => cases h; exact observeFrom_of_fatal hf
  | cons r rs ih =>
    cases hs : s.fatal with
    | true => rw [observeFrom_of_fatal hs, (serveAll_dead hi hp hs h).2]
    | false =>
      obtain ⟨u, hu, ht⟩ := serveAll_cons_next.mp h
      obtain ⟨hui, hup⟩ := step_sendRequest_keeps hi hp hu
      rw [List.cons_append, observeFrom_cons_of_next hs hu]
      exact ih hui hup ht

/-- A run that ends with no fatal error is observed as its responses and its last state. -/
theorem observeFrom_of_ends_live (hi : Inv s) (hp : s.pendingResets = []) (h : serveAll rs s = .next t)
    (hf : t.fatal = false) : observeFrom rs s = .next { responses := t.responses, after := t } := by
  induction rs generalizing s with
  | nil => cases h; exact observeFrom_nil_of_live hf
  | cons r rs ih =>
    have hs : s.fatal = false := by
      by_contra hs
      obtain ⟨ht, -⟩ := serveAll_dead hi hp (by simpa using hs) h
      simp [hf] at ht
    obtain ⟨u, hu, ht⟩ := serveAll_cons_next.mp h
    obtain ⟨hui, hup⟩ := step_sendRequest_keeps hi hp hu
    rw [observeFrom_cons_of_next hs hu]
    exact ih hui hup ht

/-- An observation with a result is that of a run served to its end. -/
theorem serveAll_of_observeFrom_next {q : RunResult} (h : observeFrom rs s = .next q) :
    serveAll rs s = .next q.after ∧ q.responses = q.after.responses ∧ q.after.fatal = false := by
  induction rs generalizing s with
  | nil =>
    obtain ⟨hs, hq⟩ := unlessFatal_next.mp h
    cases hq
    exact ⟨rfl, rfl, hs⟩
  | cons r rs ih =>
    obtain ⟨-, u, hu, hq⟩ := observeFrom_cons_next.mp h
    rw [serveAll_cons_of_next hu]
    exact ih hq

/-- An observation with a result met no fatal error on the way. -/
theorem live_of_observeFrom_next {later : List (List Byte)} {q : RunResult} (h : observeFrom (rs ++ later) s = .next q)
    (ht : serveAll rs s = .next t) : t.fatal = false := by
  induction rs generalizing s with
  | nil =>
    cases ht
    by_contra hs
    rw [observeFrom_of_fatal (by simpa using hs)] at h
    cases h
  | cons r rs ih =>
    obtain ⟨u, hu, ht⟩ := serveAll_cons_next.mp ht
    obtain ⟨-, v, hv, hq⟩ := observeFrom_cons_next.mp h
    cases hu.symm.trans hv
    exact ih hq ht

/-- Settles O50: a refuted run by where it reaches the fatal state, an observed one by the steps it was served by. -/
theorem fatalStateRefutesObservation : Obligations.FatalStateRefutesObservation := by
  refine ⟨fun c requests hf => observeFrom_of_fatal hf,
    fun s t earlier later hi hp h hf => observeFrom_of_reaches_fatal hi hp h hf, fun s requests q h => ?_⟩
  obtain ⟨hserved, hresponses, hlive⟩ := serveAll_of_observeFrom_next h
  refine ⟨hserved, hresponses, hlive, fun earlier later t hsplit ht => ?_⟩
  subst hsplit
  exact live_of_observeFrom_next h ht

/-! ### Every request is answered (70 R283, 30_encoding.md R80, R89) -/

/-- What one request leaves of the fatal state, and its response: status 0x00 from a live block that stays live, or the
code of the first fatal error. -/
inductive Answered (s u : State) : Prop
  | live (result : List Byte) (hs : s.fatal = false) (hu : u.fatal = false)
    (hresponse : u.responses = s.responses ++ [0x00#8 :: result])
  | dead (hu : u.fatal = true) (hcode : s.fatal = true → u.fatalCode = s.fatalCode)
    (hresponse : u.responses = s.responses ++ [[0x80#8 ||| u.fatalCode]])

theorem answered_answerDead (hf : s.fatal = true) : Answered s (answerDead s) := .dead hf (fun _ => rfl) rfl

theorem answered_raiseFatal (hf : s.fatal = false) (code : FatalCode) : Answered s (raiseFatal code s) :=
  .dead rfl (fun h => by simp [hf] at h) rfl

theorem exec_answered (hi : Inv s) (h : exec i s = .next t) : Answered s t := by
  rcases exec_next hi h with ⟨hf, rfl⟩ | ⟨hf, code, -, rfl⟩ | ⟨hf, u, result, hu, rfl⟩
  · exact answered_answerDead hf
  · exact answered_raiseFatal hf code
  · obtain ⟨hfatal, hresponses⟩ := hu.fatal_responses
    exact .live result hf (hfatal.trans hf) (congrArg (· ++ _) hresponses)

theorem performReserved_answered (h : performReserved s = .next t) : Answered s t := by
  rcases perform_next h with ⟨hf, rfl⟩ | ⟨-, u, result, ho, -⟩ | ⟨hf, code, -, rfl⟩
  · exact answered_answerDead hf
  · cases ho
  · exact answered_raiseFatal hf code

/-- To an idle port, taking the one request sent gives the state before it was sent. -/
theorem withRequests_nil_of_idle (h : s.requests = []) : { s.sendRequest bytes with requests := [] } = s := by
  rw [← h]
  rfl

/-- A block with nothing on its request port serves one request, and has nothing on it again. -/
theorem step_of_one_request (hi : Inv s) (hreq : s.requests = []) (hr : isOneRequest r = true) :
    ∃ u, step (s.sendRequest r) = .next u ∧ u.requests = [] ∧ Answered s u := by
  rcases isOneRequest_iff.mp hr with ⟨i, hd⟩ | ⟨op, hd⟩
  · obtain ⟨u, hu⟩ := exec_answers hi i
    have hstep := step_of_request (s := s.sendRequest r) (by simpa [hreq] using hd)
    rw [withRequests_nil_of_idle hreq] at hstep
    exact ⟨u, hstep.trans hu, (exec_ports hi hu).1.trans hreq, exec_answered hi hu⟩
  · obtain ⟨u, hu⟩ := performReserved_answers s
    have hstep := step_of_reserved (s := s.sendRequest r) (by simpa [hreq] using hd)
    rw [withRequests_nil_of_idle hreq] at hstep
    exact ⟨u, hstep.trans hu, (performReserved_ports hu).1.trans hreq, performReserved_answered hu⟩

/-- A run's responses: status 0x00 up to the first fatal error, and from there on its code (60_exceptions.md R243). -/
structure RunAnswered (s t : State) (served dead : List (List Byte)) : Prop where
  responses : t.responses = s.responses ++ (served ++ dead)
  served_ok : ∀ r ∈ served, r.head? = some 0x00#8
  dead_code : ∀ r ∈ dead, r = [0x80#8 ||| t.fatalCode]
  dead_nil : t.fatal = false → dead = []
  dead_ne_nil : t.fatal = true → s.fatal = false → dead ≠ []
  served_nil : s.fatal = true → served = []

theorem RunAnswered.refl (s : State) : RunAnswered s s [] [] where
  responses := (List.append_nil _).symm
  served_ok := nofun
  dead_code := nofun
  dead_nil := fun _ => rfl
  dead_ne_nil := fun ht hs => by simp [ht] at hs
  served_nil := fun _ => rfl

/-- A response of status 0x00 before the rest of a run. -/
theorem RunAnswered.cons_live {served dead : List (List Byte)} {result : List Byte} (h : RunAnswered u t served dead)
    (hs : s.fatal = false) (hu : u.fatal = false) (hresponse : u.responses = s.responses ++ [0x00#8 :: result]) :
    RunAnswered s t ((0x00#8 :: result) :: served) dead where
  responses := by simp [h.responses, hresponse]
  served_ok := List.forall_mem_cons.mpr ⟨rfl, h.served_ok⟩
  dead_code := h.dead_code
  dead_nil := h.dead_nil
  dead_ne_nil := fun ht _ => h.dead_ne_nil ht hu
  served_nil := fun hf => by simp [hs] at hf

/-- The response of a dead block before the rest of a run, which is dead throughout. -/
theorem RunAnswered.cons_dead {served dead : List (List Byte)} (h : RunAnswered u t served dead)
    (hu : u.fatal = true) (ht : t.fatal = true ∧ t.fatalCode = u.fatalCode)
    (hresponse : u.responses = s.responses ++ [[0x80#8 ||| u.fatalCode]]) :
    RunAnswered s t [] ([0x80#8 ||| u.fatalCode] :: dead) where
  responses := by simp [h.responses, hresponse, h.served_nil hu]
  served_ok := nofun
  dead_code := List.forall_mem_cons.mpr ⟨by rw [ht.2], h.dead_code⟩
  dead_nil := fun hf => by simp [ht.1] at hf
  dead_ne_nil := fun _ _ => List.cons_ne_nil _ _
  served_nil := fun _ => rfl

/-- Every sequence of requests is served to its end, one response each. -/
theorem serveAll_answered (hi : Inv s) (hreq : s.requests = []) (hp : s.pendingResets = [])
    (hrs : ∀ r ∈ rs, isOneRequest r = true) :
    ∃ t served dead, serveAll rs s = .next t ∧ t.requests = [] ∧ (served ++ dead).length = rs.length ∧
      RunAnswered s t served dead := by
  induction rs generalizing s with
  | nil => exact ⟨s, [], [], rfl, hreq, rfl, .refl s⟩
  | cons r rs ih =>
    obtain ⟨hr, hrs⟩ := List.forall_mem_cons.mp hrs
    obtain ⟨u, hu, hureq, hanswer⟩ := step_of_one_request hi hreq hr
    obtain ⟨hui, hup⟩ := step_sendRequest_keeps hi hp hu
    obtain ⟨t, served, dead, ht, htreq, hlength, hrest⟩ := ih hui hureq hup hrs
    have hserve := (serveAll_cons_of_next hu).trans ht
    cases hanswer with
    | live result hs huf hresponse =>
      exact ⟨t, _, dead, hserve, htreq, congrArg (· + 1) hlength, hrest.cons_live hs huf hresponse⟩
    | dead huf hcode hresponse =>
      rw [hrest.served_nil huf] at hlength
      exact ⟨t, [], _, hserve, htreq, congrArg (· + 1) hlength,
        hrest.cons_dead huf (serveAll_dead hui hup huf ht) hresponse⟩

/-- Settles O51: the responses by induction over the requests, the observation by whether the run ends live. -/
theorem runServesEveryRequest : Obligations.RunServesEveryRequest := by
  intro s requests hi hreq hp hone
  obtain ⟨t, served, dead, ht, htreq, hlength, hrun⟩ := serveAll_answered hi hreq hp hone
  refine ⟨t, served, dead, ht, htreq, hrun.responses, hlength, hrun.served_ok, hrun.dead_code,
    fun hf => ⟨hrun.dead_nil hf, observeFrom_of_ends_live hi hp ht hf⟩,
    fun hf => ⟨hrun.dead_ne_nil hf, hrun.served_nil, ?_⟩⟩
  simpa using observeFrom_of_reaches_fatal (later := []) hi hp ht hf

end Sys2Proof.Machine
